-- ==== Sys2Proof/Word.lean ====
section
/-! DEFINITION. The two widths the spec computes with: bytes (R11) and 32-bit words (R12). Every value is
unsigned (R10). -/

namespace Sys2Proof

/-- A byte of a byte string (R11). -/
abbrev Byte := BitVec 8

/-- A register of the window, an argument, an address or a word of the block function (R8, R9, R12).
`+` on it is the spec's `+32` and `^^^` its `^`. -/
abbrev Word := BitVec 32

end Sys2Proof
end

