-- ==== Sys2Proof/Syntax.lean ====
section
/-! DEFINITION. The command word's format CMDW (R58), the ten commands (R59), and the transactions of the HOST
(R57, R66). -/

namespace Sys2Proof

/-- The command word's one format (R58): RSV [31:9], M [8], OPC [7:0]. -/
structure CmdWord where
  rsv : BitVec 23
  m   : BitVec 1
  opc : BitVec 8
  deriving DecidableEq, Repr

/-- One constructor per legal command word, that is, per row of the opcode table (R59). A command's operands are
not in its word: it takes them from the argument registers (R61). -/
inductive Instr where
  /-- `set_backend.cpu`, 0x00000001 (R100) -/
  | setBackendCpu
  /-- `set_backend.dma`, 0x00000101 (R100) -/
  | setBackendDma
  /-- `init.enc`, 0x00000002 (R101) -/
  | initEnc
  /-- `init.dec`, 0x00000102 (R101) -/
  | initDec
  /-- `update_excl`, 0x00000003 (R102) -/
  | updateExcl
  /-- `update_incl`, 0x00000004 (R103) -/
  | updateIncl
  /-- `aead.enc`, 0x00000005 (R104) -/
  | aeadEnc
  /-- `aead.dec`, 0x00000105 (R104) -/
  | aeadDec
  /-- `release`, 0x00000006 (R106) -/
  | release
  /-- `gen_block`, 0x00000007 (R79) -/
  | genBlock
  deriving DecidableEq, Repr

/-- Why a command word is illegal (R63). -/
inductive Illegal where
  /-- OPC is 0x00 or in 0x08 .. 0xFF -/
  | opcode
  /-- RSV ≠ 0 -/
  | reserved
  /-- M = 1 with an OPC other than 0x01, 0x02 or 0x05 -/
  | modeBit
  deriving DecidableEq, Repr

/-- What decoding a command word gives: a command, or the reason the word is illegal. -/
inductive Decoded where
  | ok (i : Instr)
  | illegal (why : Illegal)
  deriving DecidableEq, Repr

/-- Width of a HOST access to the register window (R42). -/
inductive Width where
  | w8
  | w16
  | w32
  deriving DecidableEq, Repr

/-- One operation of the HOST: a transaction on the register window at offset `off` (R57), or an ordinary access
of system memory (R38). -/
inductive HostOp where
  /-- BUS_WRITE: write `data` to the register at `BASE + off` -/
  | busWrite (off : Nat) (width : Width) (data : Word)
  /-- BUS_READ: read the register at `BASE + off` -/
  | busRead (off : Nat) (width : Width)
  /-- an ordinary write of a byte string at a byte address -/
  | store (addr : Nat) (bytes : List Byte)
  /-- an ordinary read of `len` bytes at a byte address -/
  | load (addr : Nat) (len : Nat)
  /-- the `wait` loop of R67: read STATUS, and again while STATUS[3] = 1 -/
  | wait
  /-- an access by a second HOST agent (R18, MF8) -/
  | secondHost
  deriving DecidableEq, Repr

/-- Which agent moves next (R17), or the platform's reset (R136). A DMA turn carries its draw of DMA_OK (R117). -/
inductive Turn where
  | host
  | dma (ok : Bool)
  | reset
  deriving DecidableEq, Repr

end Sys2Proof
end

