-- ==== Sys2Proof/WellFormed.lean ====
section
/-! DEFINITION. When a command word is legal (R63), and when a HOST access to the register window is well formed
(R42). -/

namespace Sys2Proof

/-- OPC is one of 0x01 .. 0x07 (R59, R63). -/
def CmdWord.opcKnown (c : CmdWord) : Bool := decide (1 ≤ c.opc.toNat ∧ c.opc.toNat ≤ 7)

/-- RSV = 0 (R58, R63). -/
def CmdWord.rsvZero (c : CmdWord) : Bool := c.rsv == 0

/-- M = 1 only with SET_BACKEND, INIT or AEAD (R60, R63). -/
def CmdWord.modeAllowed (c : CmdWord) : Bool :=
  c.m == 0 || c.opc == 0x01 || c.opc == 0x02 || c.opc == 0x05

/-- The word is none of the illegal ones of R63. -/
def CmdWord.legal (c : CmdWord) : Bool := c.opcKnown && c.rsvZero && c.modeAllowed

/-- The access is 32 bits wide at an offset that is a multiple of 4 (R42; otherwise MF4). -/
def accessAligned (off : Nat) (width : Width) : Bool := width == .w32 && off % 4 == 0

/-- The offset is below 0x80 and not in 0x30 .. 0x3C (R42; otherwise MF3). -/
def offsetMapped (off : Nat) : Bool := decide (off < 0x80) && !(decide (0x30 ≤ off ∧ off < 0x40))

/-- A HOST access to the window that R42 gives an outcome. -/
def accessWellFormed (off : Nat) (width : Width) : Bool := accessAligned off width && offsetMapped off

end Sys2Proof
end

