-- ==== Sys2Proof/Decode.lean ====
section
/-! DEFINITION. Decoding a command word (R58 to R60, R63), total and refusing by name, and encoding a command
(R59). -/

namespace Sys2Proof

/-- The fields of a 32-bit command word (R58). -/
def cmdFields (w : Word) : CmdWord :=
  { rsv := w.extractLsb' 9 23, m := w.extractLsb' 8 1, opc := w.extractLsb' 0 8 }

/-- The word with the given fields, `{RSV, M, OPC}` (R58). -/
def cmdWord (c : CmdWord) : Word := c.rsv ++ c.m ++ c.opc

/-- The command an OPC and an M bit name (R59, R60). -/
def opcodeMap (opc : Nat) (m : Bool) : Decoded :=
  match opc, m with
  | 0x01, false => .ok .setBackendCpu
  | 0x01, true  => .ok .setBackendDma
  | 0x02, false => .ok .initEnc
  | 0x02, true  => .ok .initDec
  | 0x03, false => .ok .updateExcl
  | 0x04, false => .ok .updateIncl
  | 0x05, false => .ok .aeadEnc
  | 0x05, true  => .ok .aeadDec
  | 0x06, false => .ok .release
  | 0x07, false => .ok .genBlock
  | 0x03, true  => .illegal .modeBit
  | 0x04, true  => .illegal .modeBit
  | 0x06, true  => .illegal .modeBit
  | 0x07, true  => .illegal .modeBit
  | _, _        => .illegal .opcode

/-- Decoding needs nothing but the word (R57, R65). RSV ≠ 0 makes every word illegal (R63). -/
def decode (w : Word) : Decoded :=
  let c := cmdFields w
  if c.rsv ≠ 0 then .illegal .reserved else opcodeMap c.opc.toNat (c.m == 1)

/-- OPC and M of a command (R59). -/
def encodeFields : Instr → CmdWord
  | .setBackendCpu => { rsv := 0, m := 0, opc := 0x01 }
  | .setBackendDma => { rsv := 0, m := 1, opc := 0x01 }
  | .initEnc       => { rsv := 0, m := 0, opc := 0x02 }
  | .initDec       => { rsv := 0, m := 1, opc := 0x02 }
  | .updateExcl    => { rsv := 0, m := 0, opc := 0x03 }
  | .updateIncl    => { rsv := 0, m := 0, opc := 0x04 }
  | .aeadEnc       => { rsv := 0, m := 0, opc := 0x05 }
  | .aeadDec       => { rsv := 0, m := 1, opc := 0x05 }
  | .release       => { rsv := 0, m := 0, opc := 0x06 }
  | .genBlock      => { rsv := 0, m := 0, opc := 0x07 }

/-- The command word of a command (R59). -/
def encode (i : Instr) : Word := cmdWord (encodeFields i)

/-- The command a decoder's answer holds, if it holds one. -/
def Decoded.toOption : Decoded → Option Instr
  | .ok i      => some i
  | .illegal _ => none

/-- The 32-bit word a table row's bits stand for: the bits above `nbits` are 0, and a command is one word (R57). -/
def tableWord (nbits w : Nat) : Word := BitVec.ofNat 32 (w % 2 ^ min nbits 32)

/-- What the decoder reads from a table row's bits, numbered as the opcode table numbers them. -/
def decodeTableWord (nbits w : Nat) : Option Instr := (decode (tableWord nbits w)).toOption

/-- A command as syntax is well formed when its word is legal (R63). -/
def Instr.WellFormed (i : Instr) : Prop := (cmdFields (encode i)).legal = true

end Sys2Proof
end

