-- ==== Sys2Proof/Machine/Bytes.lean ====
section
/-! DEFINITION. Byte strings and their little-endian conversions (R11), and the rotation of words (R12). -/

namespace Sys2Proof.Machine

/-- `le_N(B)`: the number whose little-endian bytes are `B` (R11). -/
def leNat : List Byte → Nat
  | []      => 0
  | b :: bs => b.toNat + 256 * leNat bs

/-- `bytes_le(v, n)`: the `n`-byte string of `v` (R11). -/
def bytesLe (v : Nat) : Nat → List Byte
  | 0     => []
  | n + 1 => BitVec.ofNat 8 v :: bytesLe (v / 256) n

/-- `zeros(n)` (R11). -/
def zeros (n : Nat) : List Byte := List.replicate n 0

/-- `a <<< n`, the left rotation of a word (R12). -/
def rotl (a : Word) (n : Nat) : Word := a <<< n ||| a >>> (32 - n)

/-- `ceil_div(n, 64)` (R12). -/
def blocksOf (n : Nat) : Nat := (n + 63) / 64

/-- `^` on byte strings, byte by byte (R12). -/
def xorBytes (a b : List Byte) : List Byte := List.zipWith (fun x y => x ^^^ y) a b

end Sys2Proof.Machine
end

