-- ==== Sys2Proof/Config.lean ====
section
/-! DEFINITION. What the implementation fixes (R8, R9), and the FREE VALUES: constants with no body, so that a
claim about them holds whatever they are. A free value is applied to the counter `draws` of State, which the step
advances, so that each read draws anew (R16). The OPEN parameters BASE and the platform's memory map are plain data
of State (log entries 9 and 10), and the draw DMA_OK is plain data of a scheduled DMA turn (log entry 6). -/

namespace Sys2Proof.Config

/-- Interface revision, the spec's own label (R2). -/
def interfaceRevision : Nat := 1

/-- `2^ADDR_W`: the size of system memory in bytes, with `ADDR_W` = 32 (R9, R38). -/
def addressSpace : Nat := 4294967296

/-- Size of the register window in bytes (R21). -/
def windowSize : Nat := 128

/-- `OTK_CTR`: the counter value of the Poly1305 key block (R9, R82). -/
def otkCtr : Word := 0

/-- `d`th draw of a byte that holds any value (R16). Free: log entry 4. -/
opaque freeByte : Nat → Byte

/-- `d`th draw of a 32-bit register (or half of a counter) that holds any value (R16, R118). Free: log entry 4. -/
opaque freeWord : Nat → Word

/-- `d`th draw of ACC where it holds any value (R52); used modulo p. Free: log entry 14. -/
opaque freeAcc : Nat → Nat

/-- `d`th draw of DMA_OK for a DMA step that no scheduled turn has given a draw (R9, R117). Free: log entry 6. -/
opaque dmaOk : Nat → Bool

end Sys2Proof.Config
end

