-- ==== Sys2Proof/Machine/State.lean ====
section
/-! DEFINITION. The machine's state as plain data (10_state.md), the reasons a step can stop, and the state after
reset (R137). -/

namespace Sys2Proof.Machine

/-- STATUS.STATE, the session state machine (R24). -/
inductive SessState where
  | created
  | aadDone
  | payloadStreaming
  | finalized
  | faulted
  deriving DecidableEq, Repr

/-- The error codes of STATUS.ERR and ERRLOG (R125). -/
inductive ErrCode where
  | ok
  | bufferNull
  | lengthInvalid
  | alreadyFinalized
  | sequenceInvalid
  | hardwareFault
  | illegalCommand
  | busyReject
  deriving DecidableEq, Repr

/-- STATUS.BACKEND (R27). -/
inductive Backend where
  | cpu
  | dma
  deriving DecidableEq, Repr

/-- STATUS.DIR (R29). -/
inductive Dir where
  | encrypt
  | decrypt
  deriving DecidableEq, Repr

/-- The operands of INIT, as snapshotted from ARG0 .. ARG6 (R61). -/
structure InitArgs where
  keyPtr   : Word
  constant : Word
  ivLo     : Word
  ivHi     : Word
  aadPtr   : Word
  aadLen   : Word
  initCtr  : Word
  deriving DecidableEq, Repr

/-- The payload operands of UPDATE_EXCL, UPDATE_INCL and AEAD (R61). -/
structure PayloadArgs where
  inPtr  : Word
  outPtr : Word
  len    : Word
  deriving DecidableEq, Repr

/-- The operands of GEN_BLOCK, as snapshotted from ARG0 .. ARG5 (R61). -/
structure GenArgs where
  keyPtr   : Word
  constant : Word
  ivLo     : Word
  ivHi     : Word
  counter  : Word
  outPtr   : Word
  deriving DecidableEq, Repr

/-- A command that has a body, with its snapshotted operands (R95, R116). -/
inductive Command where
  | init (dir : Dir) (a : InitArgs)
  | updateExcl (p : PayloadArgs)
  | updateIncl (p : PayloadArgs) (tagPtr : Word)
  | aead (dir : Dir) (a : InitArgs) (p : PayloadArgs) (tagPtr : Word)
  deriving DecidableEq, Repr

/-- The in-flight DMA job (R35, R116), and whether a HOST write has raced with it (R52). -/
structure Job where
  cmd   : Command
  raced : Bool
  deriving DecidableEq, Repr

/-- A range of `size` byte addresses from `base` on. -/
structure Region where
  base : Nat
  size : Nat
  deriving DecidableEq, Repr

/-- The agent that makes an engine memory access (R39). -/
inductive Agent where
  | engine
  | dma
  deriving DecidableEq, Repr

/-- The direction of an engine memory access (R39). -/
inductive AccessKind where
  | read
  | write
  deriving DecidableEq, Repr

/-- One engine memory access as an event: agent, direction, address, length (R39). -/
structure Access where
  agent : Agent
  kind  : AccessKind
  addr  : Nat
  len   : Nat
  deriving DecidableEq, Repr

/-- Why a step stops with a fault. -/
inductive Fault where
  /-- Raised by a HOST memory access to an address outside system memory or that the platform does not back (R40,
  log entry 12). Safe: the spec gives such an access no outcome. -/
  | hostAccessUnbacked
  deriving DecidableEq, Repr

/-- Why a step has no meaning: the model faults of R129 by name, and what else the spec has a model refuse. -/
inductive Refusal where
  /-- Raised by exec's arm of an instruction that has no meaning yet; no arm of this model is one. Safe. -/
  | notModelled (mnemonic : String)
  /-- R15: a read by a command of an element that holds no value "is a model fault", "the internal key before the first
  INIT" among its examples; here of KEY, NONCE, R, S or ACC. Raised by a command body in a state that no run from reset
  reaches (92_eei_decisions.md D25; the invariant rules it out). Safe. -/
  | contextNoValue
  /-- MF1 (R15, R94 step 3, R129). Raised by a command whose snapshot reads an ARG that holds no value: the spec has the
  model refuse it ("refuse (MF1)", 93_implementation_defined.md I12), and 95_test_vectors.md V11 has it as an outcome: "After
  reset, a command whose named ARG was never written is a model fault". Safe. -/
  | argNoValue
  /-- MF2 (R15, R42, R129). Raised by a HOST read of an ARG that holds no value: the spec has the model refuse it
  ("refuse (MF2)", 93_implementation_defined.md I13). Safe. -/
  | hostArgNoValue
  /-- MF3 (R42). Raised by a HOST access to a reserved window offset. Safe. -/
  | reservedOffset
  /-- MF4 (R42). Raised by a HOST register access that is not 32 bits wide or not aligned to 4. Safe. -/
  | badAccess
  /-- MF5 (R46). Raised by a command that names a buffer wrapping past 2^32. Safe. -/
  | bufferWraps
  /-- MF6 (R47). Raised by a command whose payload input and output ranges partly overlap. Safe. -/
  | payloadOverlap
  /-- MF7 (R40). Raised by a command that, within the write to CMD, accesses an address no memory backs. Safe. -/
  | unbackedAccess
  /-- MF8 (R18). Raised by an access of a second HOST agent. Safe. -/
  | secondHost
  /-- R49. Raised by a command that names a buffer on a device with read side effects. Safe. -/
  | deviceBuffer
  /-- Raised by a HOST memory access to such a device, whose behaviour the spec does not give (log entry 12). Safe. -/
  | hostDeviceAccess
  deriving DecidableEq, Repr

/-- The machine's state. Every field up to `devices` is state the spec names (10_state.md, 20_memory.md); the last
five are the model's own (INVENTORY.md, '## State'). -/
structure State where
  /-- STATUS.STATE (R24) -/
  session      : SessState
  /-- STATUS.ERR (R26) -/
  err          : ErrCode
  /-- STATUS.BACKEND (R27) -/
  backend      : Backend
  /-- STATUS.LOCK (R27) -/
  lock         : Bool
  /-- STATUS.CH0_OWNED (R28) -/
  ch0Owned     : Bool
  /-- STATUS.CH1_OWNED (R28) -/
  ch1Owned     : Bool
  /-- STATUS.DIR (R29) -/
  dir          : Dir
  /-- STATUS.CTR_EXH (R30) -/
  ctrExh       : Bool
  /-- CTR (R30) -/
  ctr          : Word
  /-- ERRLOG (R33) -/
  errlog       : Word
  /-- AAD_BYTES (R31) -/
  aadBytes     : BitVec 64
  /-- PAYLOAD_BYTES (R31) -/
  payloadBytes : BitVec 64
  /-- TAG0 (R32) -/
  tag0         : Word
  /-- TAG1 (R32) -/
  tag1         : Word
  /-- TAG2 (R32) -/
  tag2         : Word
  /-- TAG3 (R32) -/
  tag3         : Word
  /-- TAG0..3 hold any value (R32, R52) -/
  tagAny       : Bool
  /-- ARG[0] .. ARG[15] (R19) -/
  args         : Vector Word 16
  /-- whether each ARG holds a value (R15, R19) -/
  argsHeld     : Vector Bool 16
  /-- KEY; byte `i` is bits 8i+7 .. 8i (R35) -/
  key          : BitVec 256
  /-- NONCE; byte `i` is bits 8i+7 .. 8i (R35, R70) -/
  nonce        : BitVec 96
  /-- R, the clamped multiplier (R35, R83) -/
  polyR        : BitVec 128
  /-- S, the final addend (R35, R82) -/
  polyS        : BitVec 128
  /-- ACC, the running tag state (R35, R91) -/
  acc          : Nat
  /-- KEY, NONCE, R, S and ACC hold a value (R15, R35) -/
  ctxHeld      : Bool
  /-- ACC holds any value for the rest of the session (R52) -/
  accAny       : Bool
  /-- JOB (R35, R116); STATUS.BUSY is `job ≠ none` (R25) -/
  job          : Option Job
  /-- system memory (R39), in canonical form -/
  mem          : List Host.Cell
  /-- addresses of the bytes that hold any value (R16), strictly rising -/
  anyMem       : List Nat
  /-- the engine's memory accesses, newest first (R39) -/
  accessLog    : List Access
  /-- BASE = 128 * baseIndex (R9) -/
  baseIndex    : BitVec 25
  /-- regions of system memory the platform does not back (R40) -/
  absent       : List Region
  /-- regions that are devices with read side effects (R49) -/
  devices      : List Region
  /-- the HOST's operations not yet performed, oldest first -/
  inbox        : List HostOp
  /-- which agent moves next -/
  turns        : List Turn
  /-- what the HOST's last register read returned -/
  busData      : Word
  /-- what the HOST's last memory read returned -/
  loadData     : List Byte
  /-- how many free values have been drawn -/
  draws        : Nat
  deriving DecidableEq, Repr

/-- The state after reset (R137). Where the spec says "no value", the held flag is false and the value below it is
a placeholder nothing can read (log entries 1, 2). Memory lists nothing: an unlisted byte reads as 0 (log entry 3). -/
def State.reset : State where
  session := .created
  err := .ok
  backend := .cpu
  lock := false
  ch0Owned := false
  ch1Owned := false
  dir := .encrypt
  ctrExh := false
  ctr := 0
  errlog := 0
  aadBytes := 0
  payloadBytes := 0
  tag0 := 0
  tag1 := 0
  tag2 := 0
  tag3 := 0
  tagAny := false
  args := Vector.replicate 16 0
  argsHeld := Vector.replicate 16 false
  key := 0
  nonce := 0
  polyR := 0
  polyS := 0
  acc := 0
  ctxHeld := false
  accAny := false
  job := none
  mem := []
  anyMem := []
  accessLog := []
  baseIndex := 0x800000
  absent := []
  devices := []
  inbox := []
  turns := []
  busData := 0
  loadData := []
  draws := 0

end Sys2Proof.Machine
end

