-- ==== Sys2Proof/Machine/Flags.lean ====
section
/-! DEFINITION. The STATUS word and its fields (R23), the numbers of the states and error codes (R24, R125), and the
counter check (R97). The engine has no condition codes (R37). -/

namespace Sys2Proof.Machine

/-- The number of a session state in STATUS[2:0] (R23, R24). -/
def sessCode : SessState → BitVec 3
  | .created          => 0
  | .aadDone          => 1
  | .payloadStreaming => 2
  | .finalized        => 3
  | .faulted          => 4

/-- The number of an error code in STATUS[7:4] (R125). -/
def errCode : ErrCode → BitVec 4
  | .ok               => 0
  | .bufferNull       => 1
  | .lengthInvalid    => 2
  | .alreadyFinalized => 3
  | .sequenceInvalid  => 4
  | .hardwareFault    => 5
  | .illegalCommand   => 6
  | .busyReject       => 7

/-- The bit of STATUS.BACKEND: 0 CPU, 1 DMA (R23). -/
def backendBit : Backend → Bool
  | .cpu => false
  | .dma => true

/-- The bit of STATUS.DIR: 0 encrypt, 1 decrypt (R23). -/
def dirBit : Dir → Bool
  | .encrypt => false
  | .decrypt => true

/-- STATUS.BUSY: a DMA job is in flight (R25). -/
def busy (s : State) : Bool := s.job.isSome

/-- The STATUS word (R23); the concatenation has the high bits first (R10), the reserved ones being 0. -/
def statusWord (s : State) : Word :=
  0#18 ++ BitVec.ofBool s.ctrExh ++ BitVec.ofBool (dirBit s.dir) ++ BitVec.ofBool s.ch1Owned ++
    BitVec.ofBool s.ch0Owned ++ BitVec.ofBool s.lock ++ BitVec.ofBool (backendBit s.backend) ++
    errCode s.err ++ BitVec.ofBool (busy s) ++ sessCode s.session

/-- The bit of ERRLOG that an error code sets (R33). -/
def errlogBit (e : ErrCode) : Word := 1#32 <<< (errCode e).toNat

/-- CTR, AAD_BYTES and PAYLOAD_BYTES hold any value: from a HardwareFault until RELEASE or reset, which is exactly
while STATE is FAULTED (R30, R31, R118; log entry 15). -/
def countersAny (s : State) : Bool := s.session == .faulted

/-- `CAPACITY(nb)` (R97). -/
def capacity (s : State) (nb : Nat) : Bool :=
  nb == 0 || (!s.ctrExh && decide (s.ctr.toNat + nb ≤ 2 ^ 32))

/-- The counter check of AEAD, which starts a fresh counter at `init_ctr` (R104). -/
def aeadCapacity (initCtr : Word) (nb : Nat) : Bool := decide (initCtr.toNat + nb ≤ 2 ^ 32)

end Sys2Proof.Machine
end

