-- ==== Sys2Proof/Machine/Memory.lean ====
section
/-! DEFINITION. System memory (R39) as a list of cells in ONE canonical form: addresses strictly rising and inside
the address space, and no cell equal to what an unlisted address reads as. Beside it the list of the addresses that
hold any value (R16), strictly rising. -/

namespace Sys2Proof.Machine

/-- What a byte reads as that nothing has written (log entry 3). -/
def unlistedByte : Byte := 0

/-- The byte `M[a]`. -/
def memGet (m : List Host.Cell) (a : Nat) : Byte :=
  match m with
  | []          => unlistedByte
  | (b, v) :: t => if a = b then v else memGet t a

/-- The cells that hold the byte string `bs` at `a`, but for those that need no cell. -/
def cellsOf (a : Nat) : List Byte → List Host.Cell
  | []      => []
  | b :: bs => if b = unlistedByte then cellsOf (a + 1) bs else (a, b) :: cellsOf (a + 1) bs

/-- Memory with the byte string `bs` stored at `a` (R39). -/
def memPut (m : List Host.Cell) (a : Nat) (bs : List Byte) : List Host.Cell :=
  m.filter (fun c => decide (c.1 < a)) ++ cellsOf a bs ++ m.filter (fun c => decide (a + bs.length ≤ c.1))

/-- The canonical form of memory. -/
def memWf (m : List Host.Cell) : Bool :=
  decide (m.Pairwise (fun c d => c.1 < d.1)) && m.all (fun c => decide (c.1 < Config.addressSpace) && c.2 != unlistedByte)

/-- The addresses `a .. a+n-1` added to those that hold any value. -/
def markAny (l : List Nat) (a n : Nat) : List Nat :=
  l.filter (fun x => decide (x < a)) ++ List.range' a n ++ l.filter (fun x => decide (a + n ≤ x))

/-- The addresses `a .. a+n-1` taken out: they have been given a value. -/
def unmarkAny (l : List Nat) (a n : Nat) : List Nat :=
  l.filter (fun x => decide (x < a ∨ a + n ≤ x))

/-- The canonical form of the list of addresses that hold any value. -/
def marksWf (l : List Nat) : Bool :=
  decide (l.Pairwise (fun x y => x < y)) && l.all (fun x => decide (x < Config.addressSpace))

/-- The region holds the address. -/
def inRegion (r : Region) (a : Nat) : Bool := decide (r.base ≤ a ∧ a < r.base + r.size)

/-- Two regions have an address in common. -/
def regionsMeet (r q : Region) : Bool :=
  decide (0 < r.size ∧ 0 < q.size ∧ r.base < q.base + q.size ∧ q.base < r.base + r.size)

/-- A region meets one of a list. -/
def meetsAny (r : Region) (rs : List Region) : Bool := rs.any (regionsMeet r)

end Sys2Proof.Machine
end

