-- ==== Sys2Proof/Machine/Operands.lean ====
section
/-! DEFINITION. The argument snapshot: which ARG gives which operand (R61), read only where every ARG the command
names holds a value (R15, R94 step 3), and the buffers and ranges a command's operands name (R44 to R49). -/

namespace Sys2Proof.Machine

/-- The registers ARG0 .. ARG(n-1) all hold a value. A command names an initial run of the ARGs (R61). -/
def argsNamedHeld (s : State) (n : Nat) : Bool := (s.argsHeld.toList.take n).all (fun h => h)

/-- The snapshot of INIT: ARG0 .. ARG6 (R61). -/
def initArgs (s : State) : Option InitArgs :=
  if argsNamedHeld s 7 then
    some { keyPtr := s.args[0], constant := s.args[1], ivLo := s.args[2], ivHi := s.args[3],
           aadPtr := s.args[4], aadLen := s.args[5], initCtr := s.args[6] }
  else none

/-- The snapshot of UPDATE_EXCL: ARG0 .. ARG2 (R61). -/
def updateExclArgs (s : State) : Option PayloadArgs :=
  if argsNamedHeld s 3 then some { inPtr := s.args[0], outPtr := s.args[1], len := s.args[2] } else none

/-- The snapshot of UPDATE_INCL: ARG0 .. ARG2 and tag_ptr in ARG3 (R61). -/
def updateInclArgs (s : State) : Option (PayloadArgs × Word) :=
  if argsNamedHeld s 4 then
    some ({ inPtr := s.args[0], outPtr := s.args[1], len := s.args[2] }, s.args[3])
  else none

/-- The snapshot of AEAD: ARG0 .. ARG6 as for INIT, ARG7 .. ARG9 the payload, ARG10 the tag pointer (R61). -/
def aeadArgs (s : State) : Option (InitArgs × PayloadArgs × Word) :=
  if argsNamedHeld s 11 then
    some ({ keyPtr := s.args[0], constant := s.args[1], ivLo := s.args[2], ivHi := s.args[3],
            aadPtr := s.args[4], aadLen := s.args[5], initCtr := s.args[6] },
          { inPtr := s.args[7], outPtr := s.args[8], len := s.args[9] }, s.args[10])
  else none

/-- The snapshot of GEN_BLOCK: ARG0 .. ARG5 (R61). -/
def genArgs (s : State) : Option GenArgs :=
  if argsNamedHeld s 6 then
    some { keyPtr := s.args[0], constant := s.args[1], ivLo := s.args[2], ivHi := s.args[3],
           counter := s.args[4], outPtr := s.args[5] }
  else none

/-- The buffer `(a, n)` as a range of byte addresses. -/
def buffer (a : Word) (n : Nat) : Region := { base := a.toNat, size := n }

/-- The key buffer (R49). -/
def keyBuffer (a : Word) : Region := buffer a 32

/-- The AAD buffer (R49). -/
def aadBuffer (a : InitArgs) : Region := buffer a.aadPtr a.aadLen.toNat

/-- The payload input range (R47). -/
def inBuffer (p : PayloadArgs) : Region := buffer p.inPtr p.len.toNat

/-- The payload output range (R47). -/
def outBuffer (p : PayloadArgs) : Region := buffer p.outPtr p.len.toNat

/-- The tag buffer (R49). -/
def tagBuffer (a : Word) : Region := buffer a 16

/-- The key buffer a command names; INIT and AEAD read it at accept (R48). -/
def keyRanges : Command → List Region
  | .init _ a      => [keyBuffer a.keyPtr]
  | .updateExcl _  => []
  | .updateIncl .. => []
  | .aead _ a _ _  => [keyBuffer a.keyPtr]

/-- The channel that carries a transfer of a job: CH0 the AAD, CH1 the payload (R112). -/
inductive Channel where
  | ch0
  | ch1
  deriving DecidableEq, Repr

/-- A channel transfer `start(src, dst_or_null, len)` (R112). -/
structure Transfer where
  channel : Channel
  src     : Word
  dst     : Option Word
  len     : Word
  deriving DecidableEq, Repr

/-- The channel transfers that make up a job (R112). They are not separately observable. -/
def transfersOf : Command → List Transfer
  | .init _ a       => [{ channel := .ch0, src := a.aadPtr, dst := none, len := a.aadLen }]
  | .updateExcl p   => [{ channel := .ch1, src := p.inPtr, dst := some p.outPtr, len := p.len }]
  | .updateIncl p _ => [{ channel := .ch1, src := p.inPtr, dst := some p.outPtr, len := p.len }]
  | .aead _ a p _   => [{ channel := .ch0, src := a.aadPtr, dst := none, len := a.aadLen },
                        { channel := .ch1, src := p.inPtr, dst := some p.outPtr, len := p.len }]

/-- The ranges a command's body reads: the sources of its transfers, AAD and payload input (R52). -/
def inputRanges (c : Command) : List Region := (transfersOf c).map (fun t => buffer t.src t.len.toNat)

/-- The tag buffer a command's body writes, if any (R103, R104). -/
def tagRanges : Command → List Region
  | .init ..        => []
  | .updateExcl _   => []
  | .updateIncl _ t => [tagBuffer t]
  | .aead _ _ _ t   => [tagBuffer t]

/-- The ranges a command's body writes: the destinations of its transfers, and the tag (R116). -/
def outputRanges (c : Command) : List Region :=
  (transfersOf c).filterMap (fun t => t.dst.map (fun d => buffer d t.len.toNat)) ++ tagRanges c

/-- The payload operands of a command that has them (R47). -/
def payloadOf : Command → Option PayloadArgs
  | .init ..        => none
  | .updateExcl p   => some p
  | .updateIncl p _ => some p
  | .aead _ _ p _   => some p

/-- The ranges a command's body accesses. -/
def bodyRanges (c : Command) : List Region := inputRanges c ++ outputRanges c

end Sys2Proof.Machine
end

