-- ==== Sys2Proof/Machine/ChaCha.lean ====
section
/-! DEFINITION. The ChaCha20 block-cipher core (40_chacha20_core.md): a pure function of key, counter and nonce
(R68, R69). -/

namespace Sys2Proof.Machine

/-- The nonce of R70: `bytes_le(constant,4) ‖ bytes_le(iv_lo,4) ‖ bytes_le(iv_hi,4)` as a little-endian number. -/
def nonceOf (constant ivLo ivHi : Word) : BitVec 96 := ivHi ++ ivLo ++ constant

/-- Word `i` of a little-endian byte string held as a number: `le_32(B[4i .. 4i+4))`. -/
def wordAt {n : Nat} (b : BitVec n) (i : Nat) : Word := b.extractLsb' (32 * i) 32

/-- The initial state of the block function (R71, R72). -/
def chachaInit (key : BitVec 256) (counter : Word) (nonce : BitVec 96) : Vector Word 16 :=
  #v[0x61707865, 0x3320646e, 0x79622d32, 0x6b206574,
     wordAt key 0, wordAt key 1, wordAt key 2, wordAt key 3,
     wordAt key 4, wordAt key 5, wordAt key 6, wordAt key 7,
     counter, wordAt nonce 0, wordAt nonce 1, wordAt nonce 2]

/-- `W[x] <- W[x] +32 W[y];  W[z] <- W[z] ^ W[x];  W[z] <- W[z] <<< n`: one line of the quarter round (R73). -/
def quarterLine (w : Vector Word 16) (x y z : Fin 16) (n : Nat) : Vector Word 16 :=
  let w := w.set x (w[x] + w[y])
  w.set z (rotl (w[z] ^^^ w[x]) n)

/-- `QR(a, b, c, d)` (R73). -/
def quarterRound (w : Vector Word 16) (a b c d : Fin 16) : Vector Word 16 :=
  let w := quarterLine w a b d 16
  let w := quarterLine w c d b 12
  let w := quarterLine w a b d 8
  quarterLine w c d b 7

/-- A double round: four column rounds, then four diagonal rounds (R74). -/
def doubleRound (w : Vector Word 16) : Vector Word 16 :=
  let w := quarterRound w 0 4 8 12
  let w := quarterRound w 1 5 9 13
  let w := quarterRound w 2 6 10 14
  let w := quarterRound w 3 7 11 15
  let w := quarterRound w 0 5 10 15
  let w := quarterRound w 1 6 11 12
  let w := quarterRound w 2 7 8 13
  quarterRound w 3 4 9 14

/-- `n` double rounds. -/
def doubleRounds : Nat → Vector Word 16 → Vector Word 16
  | 0, w     => w
  | n + 1, w => doubleRounds n (doubleRound w)

/-- The sixteen words `Z` of the block: ten double rounds and the feed-forward addition (R74, R75). -/
def chachaWords (key : BitVec 256) (counter : Word) (nonce : BitVec 96) : Vector Word 16 :=
  let x := chachaInit key counter nonce
  Vector.zipWith (fun w y => w + y) (doubleRounds 10 x) x

/-- `CHACHA20_BLOCK(key, counter, nonce)`, 64 bytes (R75). Total: every input is legal (R76). -/
@[irreducible] def chachaBlock (key : BitVec 256) (counter : Word) (nonce : BitVec 96) : List Byte :=
  (chachaWords key counter nonce).toList.flatMap (fun z => bytesLe z.toNat 4)

/-- `XOR_PREFIX(ks, in, k)`: `in[0..k) ^ ks[0..k)`; the rest of the keystream is discarded (R77). -/
def xorPrefix (ks input : List Byte) (k : Nat) : List Byte := xorBytes (input.take k) (ks.take k)

end Sys2Proof.Machine
end

