-- ==== Sys2Proof/Machine/Poly.lean ====
section
/-! DEFINITION. The Poly1305 accumulator (41_poly1305_accumulator.md): exact arithmetic on naturals, reduced modulo
p (R92). -/

namespace Sys2Proof.Machine

/-- `p = 2^130 - 5` (R12). -/
def polyP : Nat := 1361129467683753853853498429727072845819

/-- The clamp mask (R83). -/
def clampMask : BitVec 128 := 0x0ffffffc0ffffffc0ffffffc0fffffff

/-- `otk`: the first 32 bytes of the block at counter OTK_CTR (R82). -/
def oneTimeKey (key : BitVec 256) (nonce : BitVec 96) : List Byte :=
  (chachaBlock key Config.otkCtr nonce).take 32

/-- `R` of POLY_KEYGEN: the first half of the one-time key, clamped (R82, R83). -/
def polyKeyR (key : BitVec 256) (nonce : BitVec 96) : BitVec 128 :=
  BitVec.ofNat 128 (leNat ((oneTimeKey key nonce).take 16)) &&& clampMask

/-- `S` of POLY_KEYGEN: the second half of the one-time key (R82). -/
def polyKeyS (key : BitVec 256) (nonce : BitVec 96) : BitVec 128 :=
  BitVec.ofNat 128 (leNat ((oneTimeKey key nonce).drop 16))

/-- `POLY_ABSORB(ACC, R, B)` for a 16-byte block (R84). -/
def polyAbsorb (r : BitVec 128) (acc : Nat) (blk : List Byte) : Nat :=
  (acc + (leNat blk + 2 ^ 128)) * r.toNat % polyP

/-- A block completed with zero bytes to 16 (R85). -/
def padBlock (blk : List Byte) : List Byte := blk ++ zeros (16 - blk.length)

/-- Absorb `n` blocks of 16 bytes of `d`, the last one padded (R85). -/
def polyAbsorbBlocks (r : BitVec 128) : Nat → Nat → List Byte → Nat
  | 0, acc, _     => acc
  | n + 1, acc, d => polyAbsorbBlocks r n (polyAbsorb r acc (padBlock (d.take 16))) (d.drop 16)

/-- `POLY_ABSORB_PADDED(D)`: every 16-byte block of `D`, the last one padded; nothing for an empty string (R85). -/
def polyAbsorbPadded (r : BitVec 128) (acc : Nat) (d : List Byte) : Nat :=
  polyAbsorbBlocks r ((d.length + 15) / 16) acc d

/-- `LENBLK` (R89). -/
def lengthBlock (aadBytes payloadBytes : BitVec 64) : List Byte :=
  bytesLe aadBytes.toNat 8 ++ bytesLe payloadBytes.toNat 8

/-- `(ACC + S) mod 2^128`: the tag's value (R90). -/
def polyTag (acc : Nat) (s : BitVec 128) : BitVec 128 := BitVec.ofNat 128 (acc + s.toNat)

end Sys2Proof.Machine
end

