-- ==== Sys2Proof/Machine/Ops.lean ====
section
/-! DEFINITION. The operations the meanings share: raising an error (R96), reading and writing memory (R39), the
channels (R113, R114), and the session load (R99). The engine has no trap entry and no trap return (R131, R132):
`raiseErr` is the whole of what an error does. -/

namespace Sys2Proof.Machine

/-- What a meaning answers. -/
abbrev Out := Host.Outcome State Fault Refusal

/-- `STATUS.ERR <- e`. -/
def setErr (e : ErrCode) (s : State) : State := { s with err := e }

/-- To release the channels (R114). -/
def releaseChannels (s : State) : State := { s with ch0Owned := false, ch1Owned := false }

/-- To acquire both channels (R113). -/
def acquireChannels (s : State) : State := { s with ch0Owned := true, ch1Owned := true }

/-- `STATUS.ERR <- E` and `ERRLOG[E] <- 1` (R33, R96). -/
def logErr (e : ErrCode) (s : State) : State :=
  { s with err := e, errlog := s.errlog ||| errlogBit e }

/-- `raise E` (R96): ERR and ERRLOG, and for ALREADY_FINALIZED also the channels. Nothing else. -/
def raiseErr (e : ErrCode) (s : State) : State :=
  match e with
  | .alreadyFinalized => releaseChannels (logErr e s)
  | _                 => logErr e s

/-- The byte at `a` as an engine access reads it, `d` being the draw used if the byte holds any value (R16). -/
def byteAt (s : State) (d a : Nat) : Byte :=
  if s.anyMem.contains a then Config.freeByte d else memGet s.mem a

/-- `MemRead(a, n)` (R39): the byte string at `a .. a+n-1`; the byte at `a+j` uses the `j`th draw from now. -/
def bytesAt (s : State) (a n : Nat) : List Byte :=
  (List.range n).map (fun j => byteAt s (s.draws + j) (a + j))

/-- `n` free values have been drawn. -/
def draw (n : Nat) (s : State) : State := { s with draws := s.draws + n }

/-- Record an engine access (R39); `n = 0` performs none. -/
def logAccess (ag : Agent) (k : AccessKind) (a n : Nat) (s : State) : State :=
  if n = 0 then s else { s with accessLog := { agent := ag, kind := k, addr := a, len := n } :: s.accessLog }

/-- The state after the engine has read `bytesAt s a n`. -/
def afterRead (ag : Agent) (a n : Nat) (s : State) : State := draw n (logAccess ag .read a n s)

/-- Store a byte string: the bytes get a value (R39, R16). An empty string stores nothing. -/
def storeBytes (a : Nat) (bs : List Byte) (s : State) : State :=
  if bs.length = 0 then s
  else { s with mem := memPut s.mem a bs, anyMem := unmarkAny s.anyMem a bs.length }

/-- `MemWrite(a, n, v)` of an engine agent (R39). -/
def engineWrite (ag : Agent) (a : Nat) (bs : List Byte) (s : State) : State :=
  storeBytes a bs (logAccess ag .write a bs.length s)

/-- Every byte of the ranges holds any value (R16). -/
def markRanges (rs : List Region) (s : State) : State :=
  { s with anyMem := rs.foldl (fun l r => markAny l r.base r.size) s.anyMem }

/-- KEY, NONCE, R, S and ACC hold no value (R35, R106, R118). -/
def wipeContext (s : State) : State :=
  { s with key := 0, nonce := 0, polyR := 0, polyS := 0, acc := 0, ctxHeld := false, accAny := false }

/-- TAG0..TAG3 <- the words of the tag `t`, `TAGj = le_32(T[4j .. 4j+4))` (R32). -/
def writeTag (t : BitVec 128) (s : State) : State :=
  { s with tag0 := wordAt t 0, tag1 := wordAt t 1, tag2 := wordAt t 2, tag3 := wordAt t 3, tagAny := false }

/-- The key as `MemRead(key_ptr, 32)` gives it (R99). -/
def keyAt (s : State) (keyPtr : Word) : BitVec 256 := BitVec.ofNat 256 (leNat (bytesAt s keyPtr.toNat 32))

/-- KEY and NONCE loaded and POLY_KEYGEN performed (R82, R99). -/
def loadContext (key : BitVec 256) (nonce : BitVec 96) (s : State) : State :=
  { s with key := key, nonce := nonce, polyR := polyKeyR key nonce, polyS := polyKeyS key nonce,
           acc := 0, ctxHeld := true, accAny := false }

/-- `SESSION_LOAD` (R99). -/
def sessionLoad (m : Dir) (a : InitArgs) (s : State) : State :=
  let s1 := loadContext (keyAt s a.keyPtr) (nonceOf a.constant a.ivLo a.ivHi) (afterRead .engine a.keyPtr.toNat 32 s)
  { s1 with dir := m, ctr := a.initCtr, ctrExh := false, aadBytes := 0, payloadBytes := 0,
            tag0 := 0, tag1 := 0, tag2 := 0, tag3 := 0, tagAny := false, lock := true }

/-- A buffer that wraps past the top of the address space (R46). -/
def wraps (r : Region) : Bool := decide (0 < r.size ∧ Config.addressSpace < r.base + r.size)

/-- The payload ranges overlap but are not identical (R47). -/
def partlyOverlap (p : PayloadArgs) : Bool := regionsMeet (inBuffer p) (outBuffer p) && p.inPtr != p.outPtr

/-- Step 5 of R94, the refusals, over the buffers a command names and those it accesses within the write to CMD:
wrap (MF5), partial overlap (MF6), a device (R49), an unbacked access (MF7, R40). Their order is log entry 18.
DESIGN CHOICE: a buffer that covers addresses of the register window is no ground of refusal. R38 does not say what an
engine or DMA access meets there; the model gives it bytes of system memory (log entry 29). -/
def bufferRefusal (s : State) (named within : List Region) (p : Option PayloadArgs) : Option Refusal :=
  if named.any wraps then some .bufferWraps
  else if p.any partlyOverlap then some .payloadOverlap
  else if named.any (fun r => meetsAny r s.devices) then some .deviceBuffer
  else if within.any (fun r => meetsAny r s.absent) then some .unbackedAccess
  else none

/-- Step 2 of R94: a command while a job is in flight is rejected. -/
def unlessBusy (s : State) (k : Out) : Out := if busy s then .next (raiseErr .busyReject s) else k

end Sys2Proof.Machine
end

