-- ==== Sys2Proof/Machine/Session.lean ====
section
/-! DEFINITION. The bodies of the session commands (R95, R101 to R104): absorbing the AAD, the payload procedure
(R98) and the finalisation (R90, R103). -/

namespace Sys2Proof.Machine

/-- The ciphertext of a block: what the engine has produced, or what it has consumed (R88). -/
def ciphertextOf (d : Dir) (input output : List Byte) : List Byte :=
  match d with
  | .encrypt => output
  | .decrypt => input

/-- The input bytes of a payload block (R98). -/
def blockInput (inA k : Nat) (s : State) : List Byte := bytesAt s inA k

/-- The output bytes of a payload block: the input XORed with the keystream block at CTR (R77, R98). -/
def blockOutput (inA k : Nat) (s : State) : List Byte :=
  xorPrefix (chachaBlock s.key s.ctr s.nonce) (blockInput inA k s) k

/-- `CTR <- CTR +32 1` with CTR_EXH, and PAYLOAD_BYTES (R30, R98). -/
def countBlock (k : Nat) (s : State) : State :=
  { s with ctrExh := s.ctrExh || s.ctr == 0xFFFFFFFF, ctr := s.ctr + 1,
           payloadBytes := s.payloadBytes + BitVec.ofNat 64 k }

/-- `POLY_ABSORB_PADDED(D)` (R85). -/
def absorb (d : List Byte) (s : State) : State := { s with acc := polyAbsorbPadded s.polyR s.acc d }

/-- One iteration of PROCESS_PAYLOAD on a block of `k` bytes: read, absorb, write, count (R98). -/
def payloadBlock (ag : Agent) (inA outA k : Nat) (s : State) : State :=
  let x := blockInput inA k s
  let y := blockOutput inA k s
  countBlock k (engineWrite ag outA y (absorb (ciphertextOf s.dir x y) (afterRead ag inA k s)))

/-- `n` iterations of PROCESS_PAYLOAD over `len` bytes. -/
def payloadBlocks (ag : Agent) : Nat → Nat → Nat → Nat → State → State
  | 0, _, _, _, s           => s
  | n + 1, inA, outA, len, s =>
    payloadBlocks ag n (inA + 64) (outA + 64) (len - 64) (payloadBlock ag inA outA (min 64 len) s)

/-- `PROCESS_PAYLOAD(in, out, n)` (R98). -/
def processPayload (ag : Agent) (p : PayloadArgs) (s : State) : State :=
  payloadBlocks ag (blocksOf p.len.toNat) p.inPtr.toNat p.outPtr.toNat p.len.toNat s

/-- `POLY_ABSORB_PADDED(MemRead(aad_ptr, aad_len));  AAD_BYTES <- aad_len` (R101). -/
def absorbAad (ag : Agent) (a : InitArgs) (s : State) : State :=
  let s1 := absorb (bytesAt s a.aadPtr.toNat a.aadLen.toNat) (afterRead ag a.aadPtr.toNat a.aadLen.toNat s)
  { s1 with aadBytes := a.aadLen.setWidth 64 }

/-- ACC after the length block is absorbed (R90); a free value below p where ACC holds any value (R52). -/
def finalAcc (s : State) : Nat :=
  if s.accAny then Config.freeAcc s.draws % polyP
  else polyAbsorb s.polyR s.acc (lengthBlock s.aadBytes s.payloadBytes)

/-- The tag that POLY_FINISH returns (R90). -/
def finalTag (s : State) : BitVec 128 := polyTag (finalAcc s) s.polyS

/-- The tag's 16 bytes, `bytes_le(tagvalue, 16)` (R90). -/
def tagBytes (t : BitVec 128) : List Byte := bytesLe t.toNat 16

/-- ACC absorbs the length block (R90). -/
def finishAcc (s : State) : State :=
  { s with acc := finalAcc s, draws := if s.accAny then s.draws + 1 else s.draws }

/-- The end of the bodies of UPDATE_INCL and AEAD: the tag to memory and to TAG0..3, STATE <- FINALIZED, the
channels released (R103, R104). -/
def finishSession (ag : Agent) (tagPtr : Word) (s : State) : State :=
  let s1 := writeTag (finalTag s) (engineWrite ag tagPtr.toNat (tagBytes (finalTag s)) (finishAcc s))
  releaseChannels { s1 with session := .finalized }

/-- The body of INIT (R101). -/
def initBody (ag : Agent) (a : InitArgs) (s : State) : State := { absorbAad ag a s with session := .aadDone }

/-- The body of UPDATE_EXCL (R102). -/
def updateExclBody (ag : Agent) (p : PayloadArgs) (s : State) : State :=
  { processPayload ag p s with session := .payloadStreaming }

/-- The body of UPDATE_INCL (R103). -/
def updateInclBody (ag : Agent) (p : PayloadArgs) (tagPtr : Word) (s : State) : State :=
  finishSession ag tagPtr (processPayload ag p s)

/-- The body of AEAD (R104). -/
def aeadBody (ag : Agent) (a : InitArgs) (p : PayloadArgs) (tagPtr : Word) (s : State) : State :=
  finishSession ag tagPtr (processPayload ag p (absorbAad ag a s))

/-- The body of a command with its snapshotted operands (R95). -/
def bodyOf (ag : Agent) (c : Command) (s : State) : State :=
  match c with
  | .init _ a       => initBody ag a s
  | .updateExcl p   => updateExclBody ag p s
  | .updateIncl p t => updateInclBody ag p t s
  | .aead _ a p t   => aeadBody ag a p t s

/-- A body reads the session context; a read of it while it holds no value is a model fault, which the model refuses
(R15, R129). -/
def runBody (ag : Agent) (c : Command) (s : State) : Out :=
  if s.ctxHeld then .next (bodyOf ag c s) else .refused .contextNoValue

end Sys2Proof.Machine
end

