-- ==== Sys2Proof/Machine/Dma.lean ====
section
/-! DEFINITION. The bulk-transfer backend controller (43_bulk_transfer_backend.md): accepting a command in either
backend (R95, R116), the DMA agent's completion step (R117), the HardwareFault (R118) and the race of a HOST write
with a job (R52). -/

namespace Sys2Proof.Machine

/-- The accept part of a command: `ERR <- OK`, and for INIT and AEAD the session load, with the channels in the DMA
backend (R94 step 6, R101, R104, R113). -/
def acceptPart (c : Command) (s : State) : State :=
  let s1 := setErr .ok s
  match c with
  | .init m a =>
    let s2 := sessionLoad m a s1
    if s.backend = .dma then acquireChannels s2 else s2
  | .updateExcl _ => s1
  | .updateIncl _ _ => s1
  | .aead m a _ _ =>
    let s2 := sessionLoad m a s1
    if s.backend = .dma then acquireChannels s2 else s2

/-- `JOB <- (cmd, operands)`, `STATUS.BUSY <- 1` (R116). -/
def startJob (c : Command) (s : State) : State := { s with job := some { cmd := c, raced := false } }

/-- Accept, then body at once (CPU) or job start (DMA) (R94 steps 6 and 7, R95). -/
def launch (c : Command) (s : State) : Out :=
  match s.backend with
  | .cpu => runBody .engine c (acceptPart c s)
  | .dma => .next (startJob c (acceptPart c s))

/-- The buffers a command accesses within the write to CMD: all of them in the CPU backend, the key alone in the
DMA backend (R40). -/
def accessedWithin (s : State) (c : Command) : List Region :=
  match s.backend with
  | .cpu => keyRanges c ++ bodyRanges c
  | .dma => keyRanges c

/-- Steps 4 to 7 of R94 for a command whose checks give `err`. -/
def issue (c : Command) (err : Option ErrCode) (s : State) : Out :=
  match err with
  | some e => .next (raiseErr e s)
  | none =>
    match bufferRefusal s (keyRanges c ++ bodyRanges c) (accessedWithin s c) (payloadOf c) with
    | some r => .refused r
    | none   => launch c s

/-- The ranges that a HOST write must leave alone while the job is in flight (R52, R122, R142; log entry 13). -/
def jobRanges (j : Job) : List Region := keyRanges j.cmd ++ bodyRanges j.cmd

/-- The output ranges of the job in flight, if any (R116). -/
def jobOutputs (s : State) : List Region :=
  match s.job with
  | none   => []
  | some j => outputRanges j.cmd

/-- The job's body accesses an address no memory backs (R40, R118). -/
def jobUnbacked (s : State) (j : Job) : Bool := (bodyRanges j.cmd).any (fun r => meetsAny r s.absent)

/-- What a race leaves at the completion of a job (R52): its output bytes, the tag and TAG0..3 hold any value, and
ACC for the rest of the session. -/
def raceEffect (j : Job) (s : State) : State :=
  if j.raced then { markRanges (outputRanges j.cmd) s with tagAny := true, accAny := true } else s

/-- `DMA_FAULT()` (R118). CTR, AAD_BYTES and PAYLOAD_BYTES hold any value by STATE = FAULTED (`countersAny`). -/
def dmaFault (j : Job) (s : State) : State :=
  markRanges (outputRanges j.cmd)
    (wipeContext { raiseErr .hardwareFault s with session := .faulted, tagAny := true })

/-- `DMA_COMPLETE()` with the draw `ok` (R117); with no job the DMA agent has no step and nothing changes. -/
def dmaTurn (ok : Bool) (s : State) : Out :=
  match s.job with
  | none => .next s
  | some j =>
    let s1 := { s with job := none }
    if ok && !jobUnbacked s j then
      match runBody .dma j.cmd s1 with
      | .next s2   => .next (setErr .ok (raceEffect j s2))
      | .fault f   => .fault f
      | .refused r => .refused r
    else .next (dmaFault j s1)

/-- A HOST write of `n` bytes at `a` races with the job in flight if it touches one of its ranges (R52). -/
def noteRace (a n : Nat) (s : State) : State :=
  match s.job with
  | none   => s
  | some j =>
    if meetsAny { base := a, size := n } (jobRanges j) then { s with job := some { j with raced := true } } else s

end Sys2Proof.Machine
end

