-- ==== Sys2Proof/Machine/Init.lean ====
section
/-! DEFINITION. INIT (R101). -/

namespace Sys2Proof.Machine

/-- A session may begin: STATE ∈ {CREATED, FINALIZED} (R101, R104). -/
def mayBegin (s : State) : Bool := s.session == .created || s.session == .finalized

/-- The checks of INIT, in order (R101). -/
def initError (s : State) (a : InitArgs) : Option ErrCode :=
  if !mayBegin s then some .sequenceInvalid
  else if a.keyPtr = 0 then some .bufferNull
  else if a.aadLen ≠ 0 ∧ a.aadPtr = 0 then some .bufferNull
  else none

/-- INIT with direction `m` (R101), by the steps of R94. An ARG that holds no value is MF1 (step 3). -/
def initCommand (m : Dir) (s : State) : Out :=
  unlessBusy s
    (match initArgs s with
     | none   => .refused .argNoValue
     | some a => issue (.init m a) (initError s a) s)

/-- `init.enc` (R101). -/
def execInitEnc (s : State) : Out := initCommand .encrypt s

/-- `init.dec` (R101). -/
def execInitDec (s : State) : Out := initCommand .decrypt s

end Sys2Proof.Machine
end

