-- ==== Sys2Proof/Machine/Update.lean ====
section
/-! DEFINITION. UPDATE_EXCL (R102) and UPDATE_INCL (R103). -/

namespace Sys2Proof.Machine

/-- A session is in progress: STATE ∈ {AAD_DONE, PAYLOAD_STREAMING} (R102, R103). -/
def mayUpdate (s : State) : Bool := s.session == .aadDone || s.session == .payloadStreaming

/-- `len > 0 and (in_ptr = 0 or out_ptr = 0)` (R102). -/
def payloadNull (p : PayloadArgs) : Bool := p.len != 0 && (p.inPtr == 0 || p.outPtr == 0)

/-- The checks of UPDATE_EXCL, in order (R102). -/
def updateExclError (s : State) (p : PayloadArgs) : Option ErrCode :=
  if s.session = .finalized then some .alreadyFinalized
  else if !mayUpdate s then some .sequenceInvalid
  else if payloadNull p then some .bufferNull
  else if p.len.toNat % 64 ≠ 0 then some .lengthInvalid
  else if !capacity s (p.len.toNat / 64) then some .lengthInvalid
  else none

/-- The checks of UPDATE_INCL, in order (R103). -/
def updateInclError (s : State) (p : PayloadArgs) (tagPtr : Word) : Option ErrCode :=
  if s.session = .finalized then some .alreadyFinalized
  else if !mayUpdate s then some .sequenceInvalid
  else if payloadNull p then some .bufferNull
  else if tagPtr = 0 then some .bufferNull
  else if !capacity s (blocksOf p.len.toNat) then some .lengthInvalid
  else none

/-- `update_excl` (R102), by the steps of R94. An ARG that holds no value is MF1 (step 3). -/
def execUpdateExcl (s : State) : Out :=
  unlessBusy s
    (match updateExclArgs s with
     | none   => .refused .argNoValue
     | some p => issue (.updateExcl p) (updateExclError s p) s)

/-- `update_incl` (R103), by the steps of R94. An ARG that holds no value is MF1 (step 3). -/
def execUpdateIncl (s : State) : Out :=
  unlessBusy s
    (match updateInclArgs s with
     | none        => .refused .argNoValue
     | some (p, t) => issue (.updateIncl p t) (updateInclError s p t) s)

end Sys2Proof.Machine
end

