-- ==== Sys2Proof/Machine/Aead.lean ====
section
/-! DEFINITION. AEAD, the one-shot form (R104). -/

namespace Sys2Proof.Machine

/-- The checks of AEAD, in order (R104). -/
def aeadError (s : State) (a : InitArgs) (p : PayloadArgs) (tagPtr : Word) : Option ErrCode :=
  if !mayBegin s then some .sequenceInvalid
  else if a.keyPtr = 0 then some .bufferNull
  else if a.aadLen ≠ 0 ∧ a.aadPtr = 0 then some .bufferNull
  else if payloadNull p then some .bufferNull
  else if tagPtr = 0 then some .bufferNull
  else if !aeadCapacity a.initCtr (blocksOf p.len.toNat) then some .lengthInvalid
  else none

/-- AEAD with direction `m` (R104), by the steps of R94. An ARG that holds no value is MF1 (step 3). -/
def aeadCommand (m : Dir) (s : State) : Out :=
  unlessBusy s
    (match aeadArgs s with
     | none           => .refused .argNoValue
     | some (a, p, t) => issue (.aead m a p t) (aeadError s a p t) s)

/-- `aead.enc` (R104). -/
def execAeadEnc (s : State) : Out := aeadCommand .encrypt s

/-- `aead.dec` (R104). -/
def execAeadDec (s : State) : Out := aeadCommand .decrypt s

end Sys2Proof.Machine
end

