-- ==== Sys2Proof/Machine/BackendSelect.lean ====
section
/-! DEFINITION. SET_BACKEND (R100). It has no operands, starts no job and completes within the write (R95). -/

namespace Sys2Proof.Machine

/-- `if STATUS.LOCK = 1: raise SEQUENCE_INVALID;  STATUS.BACKEND <- M` (R100). -/
def setBackend (b : Backend) (s : State) : Out :=
  unlessBusy s
    (if s.lock then .next (raiseErr .sequenceInvalid s) else .next (setErr .ok { s with backend := b }))

/-- `set_backend.cpu` (R100). -/
def execSetBackendCpu (s : State) : Out := setBackend .cpu s

/-- `set_backend.dma` (R100). -/
def execSetBackendDma (s : State) : Out := setBackend .dma s

end Sys2Proof.Machine
end

