-- ==== Sys2Proof/Machine/GenBlock.lean ====
section
/-! DEFINITION. GEN_BLOCK (R79): one keystream block to memory, synchronous in both backends, no session state
touched. -/

namespace Sys2Proof.Machine

/-- The check of GEN_BLOCK (R79). -/
def genError (a : GenArgs) : Option ErrCode :=
  if a.keyPtr = 0 ∨ a.outPtr = 0 then some .bufferNull else none

/-- The buffers of GEN_BLOCK, all accessed within the write to CMD (R40, R49). -/
def genBuffers (a : GenArgs) : List Region := [keyBuffer a.keyPtr, buffer a.outPtr 64]

/-- The keystream block GEN_BLOCK writes (R79). -/
def genKeystream (a : GenArgs) (s : State) : List Byte :=
  chachaBlock (keyAt s a.keyPtr) a.counter (nonceOf a.constant a.ivLo a.ivHi)

/-- The effect of GEN_BLOCK: the key is read first, then the block is written (R79). -/
def genEffect (a : GenArgs) (s : State) : State :=
  engineWrite .engine a.outPtr.toNat (genKeystream a s) (afterRead .engine a.keyPtr.toNat 32 (setErr .ok s))

/-- `gen_block` (R79), by the steps of R94. An ARG that holds no value is MF1 (step 3). -/
def execGenBlock (s : State) : Out :=
  unlessBusy s
    (match genArgs s with
     | none   => .refused .argNoValue
     | some a =>
       match genError a with
       | some e => .next (raiseErr e s)
       | none   =>
         match bufferRefusal s (genBuffers a) (genBuffers a) none with
         | some r => .refused r
         | none   => .next (genEffect a s))

end Sys2Proof.Machine
end

