-- ==== Sys2Proof/Machine/Release.lean ====
section
/-! DEFINITION. RELEASE (R106), the way out of a session and out of FAULTED (R132). -/

namespace Sys2Proof.Machine

/-- The accept part of RELEASE (R106). BACKEND, LOCK, ERRLOG and memory stay. -/
def releaseSession (s : State) : State :=
  let s1 := wipeContext (releaseChannels (setErr .ok s))
  { s1 with session := .created, dir := .encrypt, ctrExh := false, ctr := 0, aadBytes := 0, payloadBytes := 0,
            tag0 := 0, tag1 := 0, tag2 := 0, tag3 := 0, tagAny := false }

/-- `release` (R106): no check beyond decode and busy. -/
def execRelease (s : State) : Out := unlessBusy s (.next (releaseSession s))

end Sys2Proof.Machine
end

