-- ==== Sys2Proof/Machine/Dispatch.lean ====
section
/-! DEFINITION. One arm per command (R59), each a direct call of its meaning. -/

namespace Sys2Proof.Machine

def exec (i : Instr) (s : State) : Host.Outcome State Fault Refusal :=
  match i with
  | .setBackendCpu => Sys2Proof.Machine.execSetBackendCpu s
  | .setBackendDma => Sys2Proof.Machine.execSetBackendDma s
  | .initEnc => Sys2Proof.Machine.execInitEnc s
  | .initDec => Sys2Proof.Machine.execInitDec s
  | .updateExcl => Sys2Proof.Machine.execUpdateExcl s
  | .updateIncl => Sys2Proof.Machine.execUpdateIncl s
  | .aeadEnc => Sys2Proof.Machine.execAeadEnc s
  | .aeadDec => Sys2Proof.Machine.execAeadDec s
  | .release => Sys2Proof.Machine.execRelease s
  | .genBlock => Sys2Proof.Machine.execGenBlock s

end Sys2Proof.Machine
end

