-- ==== Sys2Proof/Machine/Bus.lean ====
section
/-! DEFINITION. The HOST's side: the register window (R21, R42), writing a command word to CMD (R22, R94 step 1),
ordinary accesses of system memory (R38, R51, R52), and the `wait` loop (R67). -/

namespace Sys2Proof.Machine

/-- The registers of the window (R21). -/
inductive WinReg where
  | cmd
  | status
  | ctr
  | errlog
  | aadLo
  | aadHi
  | payloadLo
  | payloadHi
  | tag0
  | tag1
  | tag2
  | tag3
  | arg (i : Fin 16)
  deriving DecidableEq, Repr

/-- The register at a window offset (R21), none at a reserved one or at 0x80 and above (R34). -/
def regAt (off : Nat) : Option WinReg :=
  match off with
  | 0x00 => some .cmd
  | 0x04 => some .status
  | 0x08 => some .ctr
  | 0x0C => some .errlog
  | 0x10 => some .aadLo
  | 0x14 => some .aadHi
  | 0x18 => some .payloadLo
  | 0x1C => some .payloadHi
  | 0x20 => some .tag0
  | 0x24 => some .tag1
  | 0x28 => some .tag2
  | 0x2C => some .tag3
  | n    => if h : 0x40 ≤ n ∧ n < 0x80 ∧ n % 4 = 0 then some (.arg ⟨(n - 0x40) / 4, by omega⟩) else none

/-- The offset of a register of the window (R21). -/
def regOffset : WinReg → Nat
  | .cmd       => 0x00
  | .status    => 0x04
  | .ctr       => 0x08
  | .errlog    => 0x0C
  | .aadLo     => 0x10
  | .aadHi     => 0x14
  | .payloadLo => 0x18
  | .payloadHi => 0x1C
  | .tag0      => 0x20
  | .tag1      => 0x24
  | .tag2      => 0x28
  | .tag3      => 0x2C
  | .arg i     => 0x40 + 4 * i.val

/-- A register that holds any value where `any` says so is drawn at the read (R16). -/
def anyOr (any : Bool) (s : State) (v : Word) : Word := if any then Config.freeWord s.draws else v

/-- The value a HOST read of a register returns (R42, R22); none for an ARG that holds no value (MF2). -/
def regValue (s : State) : WinReg → Option Word
  | .cmd       => some 0
  | .status    => some (statusWord s)
  | .ctr       => some (anyOr (countersAny s) s s.ctr)
  | .errlog    => some s.errlog
  | .aadLo     => some (anyOr (countersAny s) s (s.aadBytes.extractLsb' 0 32))
  | .aadHi     => some (anyOr (countersAny s) s (s.aadBytes.extractLsb' 32 32))
  | .payloadLo => some (anyOr (countersAny s) s (s.payloadBytes.extractLsb' 0 32))
  | .payloadHi => some (anyOr (countersAny s) s (s.payloadBytes.extractLsb' 32 32))
  | .tag0      => some (anyOr s.tagAny s s.tag0)
  | .tag1      => some (anyOr s.tagAny s s.tag1)
  | .tag2      => some (anyOr s.tagAny s s.tag2)
  | .tag3      => some (anyOr s.tagAny s s.tag3)
  | .arg i     => if s.argsHeld[i] then some s.args[i] else none

/-- The register's value is drawn at a read, because it holds any value (R16, R118, R52). -/
def regIsAny (s : State) : WinReg → Bool
  | .ctr | .aadLo | .aadHi | .payloadLo | .payloadHi => countersAny s
  | .tag0 | .tag1 | .tag2 | .tag3                    => s.tagAny
  | .cmd | .status | .errlog | .arg _                => false

/-- Why an access to the window is refused, if it is (R42: MF4, MF3). DESIGN CHOICE: where an access meets both, MF4
is the one reported (log entry 28); the spec gives no order. -/
def accessRefusal (off : Nat) (width : Width) : Option Refusal :=
  if !accessAligned off width then some .badAccess
  else if !offsetMapped off then some .reservedOffset
  else none

/-- The state after a HOST read returned `v`: no side effect (R42) but the draw and what the HOST now holds. -/
def returnWord (v : Word) (isAny : Bool) (s : State) : State :=
  draw (if isAny then 1 else 0) { s with busData := v }

/-- `ARG[i] <- value`, at any time (R42, R55). -/
def writeArg (i : Fin 16) (v : Word) (s : State) : State :=
  { s with args := s.args.set i v, argsHeld := s.argsHeld.set i true }

/-- A HOST write of word `w` to CMD (R22, R94): an illegal word raises ILLEGAL_COMMAND before every other check
(R63, R126). -/
def writeCmd (w : Word) (s : State) : Out :=
  match decode w with
  | .ok i      => exec i s
  | .illegal _ => .next (raiseErr .illegalCommand s)

/-- BUS_READ of the register at `off` (R42, R57); of an ARG that holds no value it is MF2. -/
def busRead (off : Nat) (width : Width) (s : State) : Out :=
  match accessRefusal off width with
  | some r => .refused r
  | none =>
    match regAt off with
    | none => .refused .reservedOffset
    | some r =>
      match regValue s r with
      | none   => .refused .hostArgNoValue
      | some v => .next (returnWord v (regIsAny s r) s)

/-- BUS_WRITE of `data` to the register at `off` (R42, R57): a read-only register ignores it. -/
def busWrite (off : Nat) (width : Width) (data : Word) (s : State) : Out :=
  match accessRefusal off width with
  | some r => .refused r
  | none =>
    match regAt off with
    | none          => .refused .reservedOffset
    | some .cmd     => writeCmd data s
    | some (.arg i) => .next (writeArg i data s)
    | some _        => .next s

/-- BASE, the byte address of the window: a multiple of 128 (R9). -/
def windowBase (s : State) : Nat := Config.windowSize * s.baseIndex.toNat

/-- The window as a range of byte addresses (R38). -/
def windowRegion (s : State) : Region := { base := windowBase s, size := Config.windowSize }

/-- Why a HOST access of `n` bytes at `a` has no outcome (log entry 12): it leaves the address space or the memory
the platform backs, or it acts on a device. -/
def hostAccessStop (a n : Nat) (s : State) : Option Out :=
  if wraps { base := a, size := n } || meetsAny { base := a, size := n } s.absent then
    some (.fault .hostAccessUnbacked)
  else if meetsAny { base := a, size := n } s.devices then some (.refused .hostDeviceAccess)
  else none

/-- The byte at `a` as the HOST reads it: any value in an output range of the job in flight (R51), else as it is. -/
def hostByteAt (s : State) (d a : Nat) : Byte :=
  if (jobOutputs s).any (fun r => inRegion r a) then Config.freeByte d else byteAt s d a

/-- The bytes of a HOST read of system memory. -/
def hostBytesAt (s : State) (a n : Nat) : List Byte :=
  (List.range n).map (fun j => hostByteAt s (s.draws + j) (a + j))

/-- An ordinary HOST read. At an address of the window it is a register read, as the register's bytes (R43). -/
def hostLoad (a n : Nat) (s : State) : Out :=
  if regionsMeet { base := a, size := n } (windowRegion s) then
    (if windowBase s ≤ a ∧ n = 4 then
       match busRead (a - windowBase s) .w32 s with
       | .next t    => .next { t with loadData := bytesLe t.busData.toNat 4 }
       | .fault f   => .fault f
       | .refused r => .refused r
     else .refused .badAccess)
  else
    match hostAccessStop a n s with
    | some o => o
    | none   => .next (draw n { s with loadData := hostBytesAt s a n })

/-- An ordinary HOST write. At an address of the window it is a register write (R43); elsewhere the bytes are
stored, and a write to a range of the job in flight races with it (R52). -/
def hostStore (a : Nat) (bs : List Byte) (s : State) : Out :=
  if regionsMeet { base := a, size := bs.length } (windowRegion s) then
    (if windowBase s ≤ a ∧ bs.length = 4 then
       busWrite (a - windowBase s) .w32 (BitVec.ofNat 32 (leNat bs)) s
     else .refused .badAccess)
  else
    match hostAccessStop a bs.length s with
    | some o => o
    | none   => .next (noteRace a bs.length (storeBytes a bs s))

/-- One pass of the `wait` loop: read STATUS; while BUSY is 1 the loop stays at the head of the inbox (R67, R120). -/
def hostWait (s : State) : Out :=
  let s1 := { s with busData := statusWord s }
  .next (if busy s then { s1 with inbox := .wait :: s1.inbox } else s1)

/-- One operation of the HOST (R17). -/
def hostOp (op : HostOp) (s : State) : Out :=
  match op with
  | .busWrite off width data => busWrite off width data s
  | .busRead off width       => busRead off width s
  | .store a bs              => hostStore a bs s
  | .load a n                => hostLoad a n s
  | .wait                    => hostWait s
  | .secondHost              => .refused .secondHost

end Sys2Proof.Machine
end

