-- ==== Sys2Proof/Machine/Agents.lean ====
section
/-! DEFINITION. Which agent moves next (R17), the platform's reset (R136, R138), and how a command comes to be the
machine's next one. The order of the agents is plain data of State: `turns` (log entry 6). -/

namespace Sys2Proof.Machine

/-- The HOST's turn: it performs the oldest operation of its inbox; with none left it is idle. -/
def hostTurn (s : State) : Out :=
  match s.inbox with
  | []         => .next s
  | op :: rest => hostOp op { s with inbox := rest }

/-- Reset (R137, R138): every register as after reset, memory unchanged, and the output ranges of a job in flight
hold any value. The HOST, the platform and the record of accesses are not the engine's and stay (log entry 22). -/
def platformReset (s : State) : State :=
  let s1 := markRanges (jobOutputs s) s
  { State.reset with
    mem := s1.mem, anyMem := s1.anyMem, accessLog := s1.accessLog, baseIndex := s1.baseIndex, absent := s1.absent,
    devices := s1.devices, inbox := s1.inbox, turns := s1.turns, busData := s1.busData, loadData := s1.loadData,
    draws := s1.draws }

/-- One step of the machine. With no turn scheduled the DMA agent completes a job in flight, its draw being free
(R119: it eventually does), and otherwise the HOST moves. -/
def takeTurn (s : State) : Out :=
  match s.turns with
  | .host :: ts   => hostTurn { s with turns := ts }
  | .dma ok :: ts => dmaTurn ok { s with turns := ts }
  | .reset :: ts  => .next (platformReset { s with turns := ts })
  | []            =>
    if busy s then dmaTurn (Config.dmaOk s.draws) (draw 1 s) else hostTurn s

/-- Every ARG that holds no value is given 0: a command's operand words, where nothing has written them. -/
def zeroUnheldArgs (s : State) : State :=
  { s with args := Vector.zipWith (fun v h => if h then v else 0) s.args s.argsHeld,
           argsHeld := Vector.replicate 16 true }

/-- The state whose next step is the HOST's write of `w` to CMD, with the operand words that hold no value at zero
(log entry 8). -/
def placeCommand (w : Word) (s : State) : State :=
  let s1 := zeroUnheldArgs s
  { s1 with inbox := .busWrite 0x00 .w32 w :: s1.inbox, turns := .host :: s1.turns }

end Sys2Proof.Machine
end

