-- ==== Sys2Proof/Machine/HostProgram.lean ====
section
/-! DEFINITION. The assembly syntax of HOST programs (R66) and the expansion of each form and pseudo-instruction into
transactions (R66, R67). -/

namespace Sys2Proof.Machine

/-- The forms and pseudo-instructions of R66 and R67; `iv` is the 64-bit value that R62 splits. -/
inductive Asm where
  | wr (r : WinReg) (v : Word)
  | rd (r : WinReg)
  | cmd (i : Instr)
  | args (vs : List Word)
  | init (d : Dir) (key c : Word) (iv : BitVec 64) (aad alen ctr0 : Word)
  | updateExcl (input output len : Word)
  | updateIncl (input output len tag : Word)
  | aead (d : Dir) (key c : Word) (iv : BitVec 64) (aad alen ctr0 input output len tag : Word)
  | genBlock (key c : Word) (iv : BitVec 64) (ctr out : Word)
  | wait
  | expectOk
  deriving DecidableEq, Repr

/-- `wr <reg>, <value>` (R66). -/
def wrOp (r : WinReg) (v : Word) : HostOp := .busWrite (regOffset r) .w32 v

/-- `cmd <mnemonic>`: a write of the command word to CMD (R66). -/
def cmdOp (i : Instr) : HostOp := wrOp .cmd (encode i)

/-- `wr ARGi, v0 ; wr ARG(i+1), v1 ; ...`, in increasing order (R67). -/
def argOps : Nat → List Word → List HostOp
  | _, []      => []
  | i, v :: vs => .busWrite (0x40 + 4 * i) .w32 v :: argOps (i + 1) vs

/-- The low and high words of the iv (R62, R67). -/
def ivWords (iv : BitVec 64) : List Word := [iv.extractLsb' 0 32, iv.extractLsb' 32 32]

/-- The transactions a form expands to (R66, R67). `wait` stays one operation: it loops while BUSY = 1. `expect_ok`
is a read of STATUS; its assertion is the HOST's and has no engine effect. -/
def expand : Asm → List HostOp
  | .wr r v => [wrOp r v]
  | .rd r   => [.busRead (regOffset r) .w32]
  | .cmd i  => [cmdOp i]
  | .args vs => argOps 0 vs
  | .init d key c iv aad alen ctr0 =>
    argOps 0 ([key, c] ++ ivWords iv ++ [aad, alen, ctr0]) ++
      [cmdOp (match d with | .encrypt => .initEnc | .decrypt => .initDec)]
  | .updateExcl input output len => argOps 0 [input, output, len] ++ [cmdOp .updateExcl]
  | .updateIncl input output len tag => argOps 0 [input, output, len, tag] ++ [cmdOp .updateIncl]
  | .aead d key c iv aad alen ctr0 input output len tag =>
    argOps 0 ([key, c] ++ ivWords iv ++ [aad, alen, ctr0, input, output, len, tag]) ++
      [cmdOp (match d with | .encrypt => .aeadEnc | .decrypt => .aeadDec)]
  | .genBlock key c iv ctr out =>
    argOps 0 ([key, c] ++ ivWords iv ++ [ctr, out]) ++ [cmdOp .genBlock]
  | .wait     => [.wait]
  | .expectOk => [.busRead (regOffset .status) .w32]

/-- A HOST program as the operations of its lines, in order (R66). -/
def assemble (p : List Asm) : List HostOp := p.flatMap expand

/-- A HOST program placed behind what the inbox holds. -/
def loadProgram (p : List Asm) (s : State) : State := { s with inbox := s.inbox ++ assemble p }

end Sys2Proof.Machine
end

