-- ==== Sys2Proof/Machine/Step.lean ====
section
/-! DEFINITION. One step of the machine, and where its next command stands. -/

namespace Sys2Proof.Machine

/-- One step: the agent whose turn it is moves (R17). -/
def step (s : State) : Host.Outcome State Fault Refusal := takeTurn s

/-- `s` with the command word of a table row's bits as the HOST's next write to CMD. -/
def State.withFetchWord (s : State) (nbits w : Nat) : State := placeCommand (tableWord nbits w) s

end Sys2Proof.Machine
end

