-- ==== Sys2Proof/Safety.lean ====
section
/-! DEFINITION. The terms claims use: the invariants of the machine, and when a buffer may be used. -/

namespace Sys2Proof.Machine

/-- A command that begins a session (R101, R104). -/
def beginsSession : Command → Bool
  | .init ..       => true
  | .updateExcl _  => false
  | .updateIncl .. => false
  | .aead ..       => true

/-- How many payload blocks a command's body will consume (R97, R102 to R104). -/
def payloadBlocksOf (c : Command) : Nat :=
  match payloadOf c with
  | none   => 0
  | some p => blocksOf p.len.toNat

/-- Memory and the list of any-value bytes are in canonical form. -/
def MemCanonical (s : State) : Prop := memWf s.mem = true ∧ marksWf s.anyMem = true

/-- Bit 0 and bits 31:8 of ERRLOG are 0 (R33). -/
def ErrlogLegal (s : State) : Prop := s.errlog &&& 0xFFFFFF01 = 0

/-- ACC is below p (R91). -/
def AccReduced (s : State) : Prop := s.acc < polyP

/-- R is clamped (R83). -/
def MultiplierClamped (s : State) : Prop := s.polyR &&& clampMask = s.polyR

/-- CH0_OWNED = CH1_OWNED, and they are 1 exactly in the DMA backend while a session that has begun is not finished,
or the job that begins one is in flight (R28, R113 to R115). -/
def ChannelsLegal (s : State) : Prop :=
  s.ch0Owned = s.ch1Owned ∧
  (s.ch0Owned = true ↔
    s.backend = .dma ∧
      (mayUpdate s = true ∨ s.session = .faulted ∨ ∃ j, s.job = some j ∧ beginsSession j.cmd = true))

/-- The session context holds a value where a command body may read it: in AAD_DONE and PAYLOAD_STREAMING, and while a
job is in flight (R35, R99). -/
def ContextLegal (s : State) : Prop := (mayUpdate s = true ∨ s.job ≠ none) → s.ctxHeld = true

/-- Outside CREATED, and while a job is in flight, the backend is locked (R27, R99). -/
def LockLegal (s : State) : Prop := (s.session ≠ .created ∨ s.job ≠ none) → s.lock = true

/-- Once block 0xFFFFFFFF has been consumed CTR has come back to 0 (R30, R97). -/
def CounterLegal (s : State) : Prop := s.ctrExh = true → s.ctr = 0

/-- A job is in flight only in the DMA backend, from a STATE that admits its command, with buffers that do not wrap
and a counter range that does not run out (R94, R97, R111, R116). -/
def JobLegal (s : State) : Prop :=
  ∀ j, s.job = some j →
    s.backend = .dma ∧
    (if beginsSession j.cmd then mayBegin s = true else mayUpdate s = true) ∧
    (bodyRanges j.cmd).any wraps = false ∧
    capacity s (payloadBlocksOf j.cmd) = true

/-- In CREATED with no job in flight the session registers hold their reset values and the context no value (R106,
R137). -/
def CreatedIsClear (s : State) : Prop :=
  s.session = .created → s.job = none →
    s.dir = .encrypt ∧ s.ctrExh = false ∧ s.ctr = 0 ∧ s.aadBytes = 0 ∧ s.payloadBytes = 0 ∧
    s.tag0 = 0 ∧ s.tag1 = 0 ∧ s.tag2 = 0 ∧ s.tag3 = 0 ∧ s.tagAny = false ∧
    s.key = 0 ∧ s.nonce = 0 ∧ s.polyR = 0 ∧ s.polyS = 0 ∧ s.acc = 0 ∧ s.ctxHeld = false ∧ s.accAny = false

/-- After a HardwareFault the context holds no value and TAG0..3 hold any value (R118). -/
def FaultedIsWiped (s : State) : Prop :=
  s.session = .faulted → s.job = none ∧ s.ctxHeld = false ∧ s.tagAny = true

/-- The invariant of the machine. -/
structure MachineInv (s : State) : Prop where
  memory     : MemCanonical s
  errlog     : ErrlogLegal s
  acc        : AccReduced s
  multiplier : MultiplierClamped s
  channels   : ChannelsLegal s
  context    : ContextLegal s
  lock       : LockLegal s
  counter    : CounterLegal s
  job        : JobLegal s
  created    : CreatedIsClear s
  faulted    : FaultedIsWiped s

/-- A range that does not wrap past the top of the address space (R46); an empty range is not accessed (R39). -/
def Fits (r : Region) : Prop := r.size = 0 ∨ r.base + r.size ≤ 2 ^ 32

/-- The address lies in the region. -/
def InRegion (r : Region) (a : Nat) : Prop := r.base ≤ a ∧ a < r.base + r.size

/-- No address of the range is in one of the regions. -/
def AvoidsAll (qs : List Region) (r : Region) : Prop := ∀ a, InRegion r a → ∀ q ∈ qs, ¬ InRegion q a

/-- A range a command may access in the state: it does not wrap (R46), it is on no device (R49), and every address of
it is backed by memory (R40). -/
def Usable (s : State) (r : Region) : Prop := Fits r ∧ AvoidsAll s.devices r ∧ AvoidsAll s.absent r

/-- A range a DMA job may name: what Usable asks but for the backing, which the completion step sees to (R40, R118). -/
def Nameable (s : State) (r : Region) : Prop := Fits r ∧ AvoidsAll s.devices r

/-- The registers ARG0 .. ARG(n-1) hold a value (R15, R61). -/
def NamedHeld (s : State) (n : Nat) : Prop := ∀ i : Fin 16, i.val < n → s.argsHeld[i] = true

/-- The payload ranges are identical or have no address in common (R47). -/
def DisjointOrInPlace (p : PayloadArgs) : Prop :=
  p.inPtr = p.outPtr ∨ p.inPtr.toNat + p.len.toNat ≤ p.outPtr.toNat ∨ p.outPtr.toNat + p.len.toNat ≤ p.inPtr.toNat

/-- No address of the range holds any value (R16). -/
def Definite (s : State) (r : Region) : Prop := ∀ a, InRegion r a → a ∉ s.anyMem

/-- Two ranges have no address in common. -/
def Apart (r q : Region) : Prop := ∀ a, ¬ (InRegion r a ∧ InRegion q a)

/-- The byte at `a` is the same in both states: the same value, or any value in both (R16). -/
def SameByte (s t : State) (a : Nat) : Prop :=
  memGet t.mem a = memGet s.mem a ∧ (a ∈ t.anyMem ↔ a ∈ s.anyMem)

/-- Every byte outside the ranges is the same in both states. -/
def MemSameOutside (rs : List Region) (s t : State) : Prop :=
  ∀ a, (∀ r ∈ rs, ¬ InRegion r a) → SameByte s t a

/-- The `n` bytes of memory at `a`. -/
def memBytes (m : List Host.Cell) (a n : Nat) : List Byte := (List.range n).map (fun j => memGet m (a + j))

/-- The keystream byte at payload offset `o` for the counter value `ctr` of offset 0 (R80). -/
def keystreamByte (key : BitVec 256) (nonce : BitVec 96) (ctr : Word) (o : Nat) : Byte :=
  ((chachaBlock key (ctr + BitVec.ofNat 32 (o / 64)) nonce)[o % 64]?).getD 0

/-- The `n` keystream bytes from payload offset 0 (R80). -/
def keystream (key : BitVec 256) (nonce : BitVec 96) (ctr : Word) (n : Nat) : List Byte :=
  (List.range n).map (keystreamByte key nonce ctr)

/-- The accesses of block `i` of a payload piece, newest first: the input is read, then the output is written (R48). -/
def blockAccesses (ag : Agent) (p : PayloadArgs) (i : Nat) : List Access :=
  [{ agent := ag, kind := .write, addr := p.outPtr.toNat + 64 * i, len := min 64 (p.len.toNat - 64 * i) },
   { agent := ag, kind := .read, addr := p.inPtr.toNat + 64 * i, len := min 64 (p.len.toNat - 64 * i) }]

/-- The accesses of a payload piece, newest first: its blocks in increasing order (R48); none for an empty piece. -/
def payloadAccesses (ag : Agent) (p : PayloadArgs) : List Access :=
  (List.range (blocksOf p.len.toNat)).reverse.flatMap (blockAccesses ag p)

/-- The read of the AAD (R48); an empty AAD is not read (R39). -/
def aadAccesses (ag : Agent) (a : Word) (n : Word) : List Access :=
  if n = 0 then [] else [{ agent := ag, kind := .read, addr := a.toNat, len := n.toNat }]

/-- A command that names the ranges `named`, accesses `within` in the write to CMD, and has the payload operands `p`,
is refused where they are unusable: a range wraps (R46, MF5), the payload ranges partly overlap (R47, MF6), a range is on
a device (R49), no memory backs an access within the write (R40, MF7). The order among them is log entry 18. -/
def RefusedWhereUnusable (s : State) (named within : List Region) (p : Option PayloadArgs) (o : Out) : Prop :=
  ((∃ r ∈ named, ¬ Fits r) → o = .refused .bufferWraps) ∧
  ((∀ r ∈ named, Fits r) → (∃ q ∈ p, ¬ DisjointOrInPlace q) → o = .refused .payloadOverlap) ∧
  ((∀ r ∈ named, Fits r) → (∀ q ∈ p, DisjointOrInPlace q) → (∃ r ∈ named, ¬ AvoidsAll s.devices r) →
    o = .refused .deviceBuffer) ∧
  ((∀ r ∈ named, Nameable s r) → (∀ q ∈ p, DisjointOrInPlace q) → (∃ r ∈ within, ¬ AvoidsAll s.absent r) →
    o = .refused .unbackedAccess)

/-- The HOST operation writes the word `w` to CMD: the register write, or the store of its bytes at BASE (R22, R43). -/
def WritesCmd (s : State) (op : HostOp) (w : Word) : Prop :=
  op = .busWrite 0x00 .w32 w ∨
  ∃ bs : List Byte, op = .store (windowBase s) bs ∧ bs.length = 4 ∧ w = BitVec.ofNat 32 (leNat bs)

/-- The step from `s` is the HOST's write of the command `i` to CMD (R94; whose turn it is: log entry 6). -/
def NextIsCommand (s : State) (i : Instr) : Prop :=
  ((∃ ts, s.turns = .host :: ts) ∨ s.turns = [] ∧ s.job = none) ∧
  ∃ op rest w, s.inbox = op :: rest ∧ WritesCmd s op w ∧ decode w = .ok i

/-- The step from `s` is the DMA agent's completion of a job of the command `c` (R117; log entry 6). -/
def NextIsCompletion (s : State) (c : Command) : Prop :=
  (∃ raced, s.job = some { cmd := c, raced := raced }) ∧ ((∃ ok ts, s.turns = .dma ok :: ts) ∨ s.turns = [])

/-- The argument registers, the platform and the HOST's side are the same in both states; no command writes them
(R19, R55). -/
def HostSideSame (s t : State) : Prop :=
  t.args = s.args ∧ t.argsHeld = s.argsHeld ∧ t.baseIndex = s.baseIndex ∧ t.absent = s.absent ∧
  t.devices = s.devices ∧ t.inbox = s.inbox ∧ t.turns = s.turns ∧ t.busData = s.busData ∧ t.loadData = s.loadData

/-- The session's registers and internal context are the same in both states. -/
def SessionSame (s t : State) : Prop :=
  t.session = s.session ∧ t.dir = s.dir ∧ t.ctrExh = s.ctrExh ∧ t.ctr = s.ctr ∧ t.aadBytes = s.aadBytes ∧
  t.payloadBytes = s.payloadBytes ∧ t.tag0 = s.tag0 ∧ t.tag1 = s.tag1 ∧ t.tag2 = s.tag2 ∧ t.tag3 = s.tag3 ∧
  t.tagAny = s.tagAny ∧ t.key = s.key ∧ t.nonce = s.nonce ∧ t.polyR = s.polyR ∧ t.polyS = s.polyS ∧ t.acc = s.acc ∧
  t.ctxHeld = s.ctxHeld ∧ t.accAny = s.accAny

end Sys2Proof.Machine
end

