-- ==== Sys2Proof/Certificates/Slice0/Obligations.lean ====
section
/-! DEFINITION. The statements for the provers. Each docstring names the rules of spec/ it formalises. -/

open Sys2Proof Sys2Proof.Machine

/-! ## Encoding -/

/-- R59: under a full 32-bit match the legal command words are exactly the ten of the opcode map, and each is the
command the map names. -/
def Obligations.LegalWordsAreExactlyTheOpcodeMap : Prop :=
  ∀ (w : Word) (i : Instr), decode w = .ok i ↔
    (w, i) ∈ [((0x00000001 : Word), Instr.setBackendCpu), (0x00000101, .setBackendDma), (0x00000002, .initEnc),
      (0x00000102, .initDec), (0x00000003, .updateExcl), (0x00000004, .updateIncl), (0x00000005, .aeadEnc),
      (0x00000105, .aeadDec), (0x00000006, .release), (0x00000007, .genBlock)]

/-- R58, R59: decoding the word of any command gives that command back, and a word that decodes to a command is that
command's word, so no bit of a word is dropped. -/
def Obligations.DecodeAndEncodeAgree : Prop :=
  (∀ i : Instr, i.WellFormed ∧ decode (encode i) = .ok i) ∧
  (∀ (w : Word) (i : Instr), decode w = .ok i → encode i = w)

/-- R63: a command word is illegal exactly if OPC is 0x00 or in 0x08 .. 0xFF, or RSV ≠ 0, or M = 1 with an OPC other
than 0x01, 0x02 or 0x05; writing it to CMD raises ILLEGAL_COMMAND before every other check, so in every state. -/
def Obligations.IllegalWordsRaiseIllegalCommand : Prop :=
  (∀ w : Word, (∃ why, decode w = .illegal why) ↔
    ((w.extractLsb' 0 8 = 0 ∨ 8 ≤ (w.extractLsb' 0 8).toNat) ∨ w.extractLsb' 9 23 ≠ 0 ∨
      (w.extractLsb' 8 1 = 1 ∧ w.extractLsb' 0 8 ≠ 1 ∧ w.extractLsb' 0 8 ≠ 2 ∧ w.extractLsb' 0 8 ≠ 5))) ∧
  (∀ (s : State) (w : Word), (∃ why, decode w = .illegal why) →
    busWrite 0x00 .w32 w s = .next { s with err := .illegalCommand, errlog := s.errlog ||| 0x40 })

/-- V15: words written out bit by bit from the format of R58 decode to what they stand for. -/
def Obligations.SampleWordsDecode : Prop :=
  decode 0b00000000000000000000000100000001 = .ok .setBackendDma ∧
  decode 0b00000000000000000000000100000010 = .ok .initDec ∧
  decode 0b00000000000000000000000000000011 = .ok .updateExcl ∧
  decode 0b00000000000000000000000000000100 = .ok .updateIncl ∧
  decode 0b00000000000000000000000100000101 = .ok .aeadDec ∧
  decode 0b00000000000000000000000000000110 = .ok .release ∧
  decode 0b00000000000000000000000000000111 = .ok .genBlock ∧
  decode 0b00000000000000000000000100000011 = .illegal .modeBit ∧
  decode 0b00000000000000000000000000001000 = .illegal .opcode ∧
  decode 0b00000000000000000000001000000001 = .illegal .reserved

/-! ## The register window -/

/-- R23, R24, R125: the fields of the STATUS word stand at the bits the rule gives them, and bits 31:14 read 0; STATE
reads 0 CREATED, 1 AAD_DONE, 2 PAYLOAD_STREAMING, 3 FINALIZED, 4 FAULTED, and ERR reads 0 OK, 1 BUFFER_NULL,
2 LENGTH_INVALID, 3 ALREADY_FINALIZED, 4 SEQUENCE_INVALID, 5 HARDWARE_FAULT, 6 ILLEGAL_COMMAND, 7 BUSY_REJECT. -/
def Obligations.StatusFieldsStandAtTheirBits : Prop :=
  (sessCode .created = 0 ∧ sessCode .aadDone = 1 ∧ sessCode .payloadStreaming = 2 ∧ sessCode .finalized = 3 ∧
    sessCode .faulted = 4) ∧
  (errCode .ok = 0 ∧ errCode .bufferNull = 1 ∧ errCode .lengthInvalid = 2 ∧ errCode .alreadyFinalized = 3 ∧
    errCode .sequenceInvalid = 4 ∧ errCode .hardwareFault = 5 ∧ errCode .illegalCommand = 6 ∧
    errCode .busyReject = 7) ∧
  ∀ s : State,
    (statusWord s).extractLsb' 0 3 = sessCode s.session ∧
    (statusWord s).getLsbD 3 = s.job.isSome ∧
    (statusWord s).extractLsb' 4 4 = errCode s.err ∧
    (statusWord s).getLsbD 8 = (s.backend == .dma) ∧
    (statusWord s).getLsbD 9 = s.lock ∧
    (statusWord s).getLsbD 10 = s.ch0Owned ∧
    (statusWord s).getLsbD 11 = s.ch1Owned ∧
    (statusWord s).getLsbD 12 = (s.dir == .decrypt) ∧
    (statusWord s).getLsbD 13 = s.ctrExh ∧
    (statusWord s).extractLsb' 14 18 = 0

/-- R21, R22, R42: a 32-bit read of a register returns its value and changes nothing of the engine (only the HOST's
last value read, a field of the model's own, log entry 26); CMD reads 0, STATUS and ERRLOG always read as they are.
CTR and the halves of the counters are read so outside FAULTED, TAG0..3 while they hold a value, and an ARG while it
holds one. -/
def Obligations.RegisterReadsReturnTheirValues : Prop :=
  ∀ s : State,
    busRead 0x00 .w32 s = .next { s with busData := 0 } ∧
    busRead 0x04 .w32 s = .next { s with busData := statusWord s } ∧
    busRead 0x0C .w32 s = .next { s with busData := s.errlog } ∧
    (s.session ≠ .faulted →
      busRead 0x08 .w32 s = .next { s with busData := s.ctr } ∧
      busRead 0x10 .w32 s = .next { s with busData := s.aadBytes.extractLsb' 0 32 } ∧
      busRead 0x14 .w32 s = .next { s with busData := s.aadBytes.extractLsb' 32 32 } ∧
      busRead 0x18 .w32 s = .next { s with busData := s.payloadBytes.extractLsb' 0 32 } ∧
      busRead 0x1C .w32 s = .next { s with busData := s.payloadBytes.extractLsb' 32 32 }) ∧
    (s.tagAny = false →
      busRead 0x20 .w32 s = .next { s with busData := s.tag0 } ∧
      busRead 0x24 .w32 s = .next { s with busData := s.tag1 } ∧
      busRead 0x28 .w32 s = .next { s with busData := s.tag2 } ∧
      busRead 0x2C .w32 s = .next { s with busData := s.tag3 }) ∧
    (∀ i : Fin 16, s.argsHeld[i] = true →
      busRead (0x40 + 4 * i.val) .w32 s = .next { s with busData := s.args[i] })

/-- R16, R30, R31, R32: in FAULTED a read of CTR or of a half of a counter, and while TAG0..3 hold any value a read of
one of them, returns the next free draw, and the next read draws anew. That a draw is an opaque constant applied to a
counter of the model is the model's choice (log entry 4); every value of it is allowed. That the counters hold any
value exactly in FAULTED is deduced (log entry 15). -/
def Obligations.AnyValueRegistersAreDrawn : Prop :=
  ∀ s : State,
    (s.session = .faulted → ∀ off ∈ [0x08, 0x10, 0x14, 0x18, 0x1C],
      busRead off .w32 s = .next { s with busData := Config.freeWord s.draws, draws := s.draws + 1 }) ∧
    (s.tagAny = true → ∀ off ∈ [0x20, 0x24, 0x28, 0x2C],
      busRead off .w32 s = .next { s with busData := Config.freeWord s.draws, draws := s.draws + 1 })

/-- R42: a 32-bit write of a read-only register is ignored. -/
def Obligations.ReadOnlyRegistersIgnoreWrites : Prop :=
  ∀ (s : State) (v : Word),
    ∀ off ∈ [0x04, 0x08, 0x0C, 0x10, 0x14, 0x18, 0x1C, 0x20, 0x24, 0x28, 0x2C], busWrite off .w32 v s = .next s

/-- R19, R42: a write of ARG[i] is taken at any time, a job in flight or not; a read then returns the value, every other
ARG is as before, and nothing else changes. -/
def Obligations.ArgumentWriteReadsBack : Prop :=
  ∀ (s : State) (i : Fin 16) (v : Word), ∃ t,
    busWrite (0x40 + 4 * i.val) .w32 v s = .next t ∧
    busRead (0x40 + 4 * i.val) .w32 t = .next { t with busData := v } ∧
    (∀ k : Fin 16, k ≠ i → t.args[k] = s.args[k] ∧ t.argsHeld[k] = s.argsHeld[k]) ∧
    t = { s with args := t.args, argsHeld := t.argsHeld }

/-- R15, R94, R129 (MF1, MF2): a HOST read of an ARG that holds no value is refused, and so is a command that names
one, when no job is in flight (how the model holds that condition is log entry 1). -/
def Obligations.UnwrittenArgumentsAreRefused : Prop :=
  (∀ (s : State) (i : Fin 16), s.argsHeld[i] = false →
    busRead (0x40 + 4 * i.val) .w32 s = .refused .hostArgNoValue) ∧
  (∀ (s : State) (k : Fin 16), s.job = none → s.argsHeld[k] = false →
    (k.val < 7 → exec .initEnc s = .refused .argNoValue ∧ exec .initDec s = .refused .argNoValue) ∧
    (k.val < 3 → exec .updateExcl s = .refused .argNoValue) ∧
    (k.val < 4 → exec .updateIncl s = .refused .argNoValue) ∧
    (k.val < 11 → exec .aeadEnc s = .refused .argNoValue ∧ exec .aeadDec s = .refused .argNoValue) ∧
    (k.val < 6 → exec .genBlock s = .refused .argNoValue))

/-- R42, R129 (MF3, MF4): an access that is not 32 bits wide or not aligned to 4 is refused, and so is an aligned 32-bit
access to a reserved offset or at 0x80 or above; every other aligned 32-bit write, but of CMD, completes. R129 names an
access that is ill formed and at such an offset under both MF3 and MF4 and gives no order: that it is reported as
badAccess (MF4) is the model's choice (log entry 28). -/
def Obligations.IllFormedAccessesAreRefused : Prop :=
  ∀ (s : State) (off : Nat) (width : Width) (v : Word),
    ((width ≠ .w32 ∨ off % 4 ≠ 0) →
      busRead off width s = .refused .badAccess ∧ busWrite off width v s = .refused .badAccess) ∧
    (off % 4 = 0 → (0x30 ≤ off ∧ off < 0x40 ∨ 0x80 ≤ off) →
      busRead off .w32 s = .refused .reservedOffset ∧ busWrite off .w32 v s = .refused .reservedOffset) ∧
    (off % 4 = 0 → off ≠ 0 → (off < 0x30 ∨ 0x40 ≤ off ∧ off < 0x80) → ∃ t, busWrite off .w32 v s = .next t)

/-! ## Reset -/

/-- R136, R137: the state the model begins in has every register as after reset, the ARGs and the session context hold
no value, and no job is in flight (that 'no value' is a flag beside a placeholder is log entries 1 and 2). -/
def Obligations.ResetStateHasTheResetValues : Prop :=
  statusWord State.reset = 0 ∧ State.reset.session = .created ∧ State.reset.err = .ok ∧
  State.reset.backend = .cpu ∧ State.reset.lock = false ∧ State.reset.ctr = 0 ∧ State.reset.errlog = 0 ∧
  State.reset.aadBytes = 0 ∧ State.reset.payloadBytes = 0 ∧
  State.reset.tag0 = 0 ∧ State.reset.tag1 = 0 ∧ State.reset.tag2 = 0 ∧ State.reset.tag3 = 0 ∧
  State.reset.tagAny = false ∧ State.reset.ctxHeld = false ∧ State.reset.job = none ∧
  (∀ i : Fin 16, State.reset.argsHeld[i] = false)

/-- R137, R138: after a reset every register holds its reset value, CMD reads 0, the ARGs and the session context hold no
value, and no job is in flight; memory is unchanged but for the output ranges of a job that was in flight, every byte of
which holds any value. That such a byte holds any value until it is next written is log entry 5, and that the reset is a
turn of the schedule is log entry 6. -/
def Obligations.ResetAbandonsAJobInFlight : Prop :=
  ∀ (s : State) (ts : List Turn), s.turns = .reset :: ts → ∃ t, step s = .next t ∧
    statusWord t = 0 ∧ t.ctr = 0 ∧ t.errlog = 0 ∧ t.aadBytes = 0 ∧ t.payloadBytes = 0 ∧
    t.tag0 = 0 ∧ t.tag1 = 0 ∧ t.tag2 = 0 ∧ t.tag3 = 0 ∧ t.tagAny = false ∧
    (∀ i : Fin 16, t.argsHeld[i] = false) ∧ t.ctxHeld = false ∧ t.job = none ∧
    busRead 0x00 .w32 t = .next { t with busData := 0 } ∧ t.mem = s.mem ∧
    (∀ a, a ∈ t.anyMem ↔
      a ∈ s.anyMem ∨ ∃ j, s.job = some j ∧ ∃ r ∈ outputRanges j.cmd, InRegion r a)

/-! ## Errors -/

/-- R96: a command that ends in an error changes ERR, ERRLOG and nothing else, but that ALREADY_FINALIZED also clears
CH0_OWNED and CH1_OWNED. -/
def Obligations.ErrorsChangeOnlyErrAndErrlog : Prop :=
  ∀ (i : Instr) (s t : State), exec i s = .next t → t.err ≠ .ok →
    t = { s with err := t.err, errlog := s.errlog ||| (1#32 <<< (errCode t.err).toNat),
                 ch0Owned := if t.err = .alreadyFinalized then false else s.ch0Owned,
                 ch1Owned := if t.err = .alreadyFinalized then false else s.ch1Owned }

/-- R94 step 2, R125: while a job is in flight every command is rejected with BUSY_REJECT and the job goes on. -/
def Obligations.CommandsAreRejectedWhileBusy : Prop :=
  ∀ (i : Instr) (s : State), s.job ≠ none →
    exec i s = .next { s with err := .busyReject, errlog := s.errlog ||| 0x80 }

/-- R101, R125, R126: with no job in flight and ARG0 .. ARG6 holding values, INIT outside CREATED and FINALIZED raises
SEQUENCE_INVALID, whatever its arguments; in CREATED or FINALIZED it raises BUFFER_NULL if key_ptr is null, or if
aad_ptr is null and aad_len is not 0. Each changes ERR and ERRLOG alone. -/
def Obligations.InitIsRejectedInOrder : Prop :=
  ∀ s : State, ∀ i ∈ [Instr.initEnc, Instr.initDec], s.job = none → NamedHeld s 7 →
    ((s.session ≠ .created ∧ s.session ≠ .finalized) → exec i s = .next (logErr .sequenceInvalid s)) ∧
    ((s.session = .created ∨ s.session = .finalized) →
      (s.args[0] = 0 ∨ s.args[5] ≠ 0 ∧ s.args[4] = 0) → exec i s = .next (logErr .bufferNull s))

/-- R102, R125, R126: with no job in flight and ARG0 .. ARG2 holding values, UPDATE_EXCL in FINALIZED raises
ALREADY_FINALIZED and clears the channels; in CREATED or FAULTED it raises SEQUENCE_INVALID; in AAD_DONE or
PAYLOAD_STREAMING it raises BUFFER_NULL if len is not 0 and a payload pointer is null; and where that does not hold,
LENGTH_INVALID if len is not a multiple of 64, or if len is not 0 and the counter is exhausted or would pass 2^32.
Nothing else changes. After FINALIZED no byte is processed (R107). -/
def Obligations.UpdateExclIsRejectedInOrder : Prop :=
  ∀ s : State, s.job = none → NamedHeld s 3 →
    (s.session = .finalized →
      exec .updateExcl s = .next { logErr .alreadyFinalized s with ch0Owned := false, ch1Owned := false }) ∧
    ((s.session = .created ∨ s.session = .faulted) → exec .updateExcl s = .next (logErr .sequenceInvalid s)) ∧
    ((s.session = .aadDone ∨ s.session = .payloadStreaming) →
      ((s.args[2] ≠ 0 ∧ (s.args[0] = 0 ∨ s.args[1] = 0)) → exec .updateExcl s = .next (logErr .bufferNull s)) ∧
      (¬ (s.args[2] ≠ 0 ∧ (s.args[0] = 0 ∨ s.args[1] = 0)) →
        (s.args[2].toNat % 64 ≠ 0 ∨
          s.args[2] ≠ 0 ∧ (s.ctrExh = true ∨ 2 ^ 32 < s.ctr.toNat + s.args[2].toNat / 64)) →
        exec .updateExcl s = .next (logErr .lengthInvalid s)))

/-- R103, R125, R126: with no job in flight and ARG0 .. ARG3 holding values, UPDATE_INCL in FINALIZED raises
ALREADY_FINALIZED and clears the channels; in CREATED or FAULTED it raises SEQUENCE_INVALID; in AAD_DONE or
PAYLOAD_STREAMING it raises BUFFER_NULL if len is not 0 and a payload pointer is null, or if tag_ptr is null; and
where that does not hold, LENGTH_INVALID if len is not 0 and the counter is exhausted or would pass 2^32 over
ceil_div(len, 64) blocks. Nothing else changes. After FINALIZED no byte is processed (R107). -/
def Obligations.UpdateInclIsRejectedInOrder : Prop :=
  ∀ s : State, s.job = none → NamedHeld s 4 →
    (s.session = .finalized →
      exec .updateIncl s = .next { logErr .alreadyFinalized s with ch0Owned := false, ch1Owned := false }) ∧
    ((s.session = .created ∨ s.session = .faulted) → exec .updateIncl s = .next (logErr .sequenceInvalid s)) ∧
    ((s.session = .aadDone ∨ s.session = .payloadStreaming) →
      ((s.args[2] ≠ 0 ∧ (s.args[0] = 0 ∨ s.args[1] = 0) ∨ s.args[3] = 0) →
        exec .updateIncl s = .next (logErr .bufferNull s)) ∧
      (¬ (s.args[2] ≠ 0 ∧ (s.args[0] = 0 ∨ s.args[1] = 0) ∨ s.args[3] = 0) →
        (s.args[2] ≠ 0 ∧ (s.ctrExh = true ∨ 2 ^ 32 < s.ctr.toNat + (s.args[2].toNat + 63) / 64)) →
        exec .updateIncl s = .next (logErr .lengthInvalid s)))

/-- R104, R125, R126: with no job in flight and ARG0 .. ARG10 holding values, AEAD outside CREATED and FINALIZED
raises SEQUENCE_INVALID; in CREATED or FINALIZED it raises BUFFER_NULL if key_ptr is null, or aad_ptr with aad_len not
0, or a payload pointer with len not 0, or tag_ptr; and where that does not hold, LENGTH_INVALID if init_ctr +
ceil_div(len, 64) passes 2^32. Each changes ERR and ERRLOG alone. -/
def Obligations.AeadIsRejectedInOrder : Prop :=
  ∀ s : State, ∀ i ∈ [Instr.aeadEnc, Instr.aeadDec], s.job = none → NamedHeld s 11 →
    ((s.session ≠ .created ∧ s.session ≠ .finalized) → exec i s = .next (logErr .sequenceInvalid s)) ∧
    ((s.session = .created ∨ s.session = .finalized) →
      ((s.args[0] = 0 ∨ s.args[5] ≠ 0 ∧ s.args[4] = 0 ∨ s.args[9] ≠ 0 ∧ (s.args[7] = 0 ∨ s.args[8] = 0) ∨
          s.args[10] = 0) → exec i s = .next (logErr .bufferNull s)) ∧
      (¬ (s.args[0] = 0 ∨ s.args[5] ≠ 0 ∧ s.args[4] = 0 ∨ s.args[9] ≠ 0 ∧ (s.args[7] = 0 ∨ s.args[8] = 0) ∨
          s.args[10] = 0) →
        2 ^ 32 < s.args[6].toNat + (s.args[9].toNat + 63) / 64 → exec i s = .next (logErr .lengthInvalid s)))

/-- R79, R44: GEN_BLOCK with a null key or output pointer raises BUFFER_NULL, in every session state. -/
def Obligations.GenBlockRejectsNullPointers : Prop :=
  ∀ s : State, s.job = none → NamedHeld s 6 → (s.args[0] = 0 ∨ s.args[5] = 0) →
    exec .genBlock s = .next (logErr .bufferNull s)

/-- R33: ERRLOG is sticky: whatever moves, a bit that is set stays set, unless the platform resets the engine. -/
def Obligations.ErrlogIsStickyUntilReset : Prop :=
  ∀ s t : State, step s = .next t → (∀ ts, s.turns ≠ .reset :: ts) → t.errlog &&& s.errlog = s.errlog

/-! ## SET_BACKEND, RELEASE, GEN_BLOCK -/

/-- R100: SET_BACKEND with no job in flight writes BACKEND, with ERR = OK and nothing else changed, while LOCK = 0; once
LOCK = 1 it raises SEQUENCE_INVALID, even for the current backend. -/
def Obligations.SetBackendWritesBackendWhileUnlocked : Prop :=
  ∀ s : State, s.job = none →
    (s.lock = false →
      exec .setBackendCpu s = .next { s with err := .ok, backend := .cpu } ∧
      exec .setBackendDma s = .next { s with err := .ok, backend := .dma }) ∧
    (s.lock = true →
      exec .setBackendCpu s = .next { s with err := .sequenceInvalid, errlog := s.errlog ||| 0x10 } ∧
      exec .setBackendDma s = .next { s with err := .sequenceInvalid, errlog := s.errlog ||| 0x10 })

/-- R106: RELEASE with no job in flight, in every STATE, frees the channels, returns to CREATED, clears DIR, CTR_EXH,
CTR, the counters and TAG, and leaves no value in KEY, NONCE, R, S and ACC; BACKEND, LOCK, ERRLOG and memory stay. -/
def Obligations.ReleaseEndsTheSession : Prop :=
  ∀ s : State, s.job = none → ∃ t, exec .release s = .next t ∧
    t.err = .ok ∧ t.ch0Owned = false ∧ t.ch1Owned = false ∧ t.session = .created ∧ t.dir = .encrypt ∧
    t.ctrExh = false ∧ t.ctr = 0 ∧ t.aadBytes = 0 ∧ t.payloadBytes = 0 ∧
    t.tag0 = 0 ∧ t.tag1 = 0 ∧ t.tag2 = 0 ∧ t.tag3 = 0 ∧ t.tagAny = false ∧ t.ctxHeld = false ∧
    t.backend = s.backend ∧ t.lock = s.lock ∧ t.errlog = s.errlog ∧ t.job = none ∧
    t.mem = s.mem ∧ t.anyMem = s.anyMem ∧ t.accessLog = s.accessLog ∧ HostSideSame s t

/-- R106, corner: in a state that meets the invariant, RELEASE in CREATED changes nothing but ERR. -/
def Obligations.ReleaseInCreatedChangesOnlyErr : Prop :=
  ∀ s : State, MachineInv s → s.job = none → s.session = .created → exec .release s = .next { s with err := .ok }

/-- R79: GEN_BLOCK with no job in flight, non-null pointers and usable buffers, in every STATE and either backend, writes
the keystream block of (key, counter, nonce) at out_ptr; of the engine's state only ERR changes. The record of accesses
(log entry 21) gains the read of the key, then the write of the block. -/
def Obligations.GenBlockWritesTheKeystreamBlock : Prop :=
  ∀ s : State, s.job = none → NamedHeld s 6 → s.args[0] ≠ 0 → s.args[5] ≠ 0 →
    Usable s (buffer s.args[0] 32) → Usable s (buffer s.args[5] 64) → ∃ t, exec .genBlock s = .next t ∧
    memBytes t.mem s.args[5].toNat 64 =
      chachaBlock (keyAt s s.args[0]) s.args[4] (s.args[3] ++ s.args[2] ++ s.args[1]) ∧
    Definite t (buffer s.args[5] 64) ∧
    MemSameOutside [buffer s.args[5] 64] s t ∧
    t.accessLog =
      { agent := .engine, kind := .write, addr := s.args[5].toNat, len := 64 } ::
        { agent := .engine, kind := .read, addr := s.args[0].toNat, len := 32 } :: s.accessLog ∧
    t.err = .ok ∧ t.errlog = s.errlog ∧ t.backend = s.backend ∧ t.lock = s.lock ∧ t.ch0Owned = s.ch0Owned ∧
    t.ch1Owned = s.ch1Owned ∧ t.job = none ∧ SessionSame s t ∧ HostSideSame s t

/-! ## INIT -/

/-- R99, R101: in the CPU backend INIT, where its checks pass, loads the session, absorbs the padded AAD and moves to
AAD_DONE within the write; the channels stay free and memory is unchanged. The record of accesses (log entry 21) gains
the engine's read of the key, then of an AAD that is not empty (R48). -/
def Obligations.InitCompletesInTheCpuBackend : Prop :=
  ∀ s : State, ∀ im ∈ [(Instr.initEnc, Dir.encrypt), (Instr.initDec, Dir.decrypt)],
    s.job = none → s.backend = .cpu → NamedHeld s 7 → (s.session = .created ∨ s.session = .finalized) →
    s.args[0] ≠ 0 → (s.args[5] ≠ 0 → s.args[4] ≠ 0) →
    Usable s (buffer s.args[0] 32) → Usable s (buffer s.args[4] s.args[5].toNat) →
    ∃ t, exec im.1 s = .next t ∧
      t.session = .aadDone ∧ t.err = .ok ∧ t.dir = im.2 ∧ t.lock = true ∧ t.ctrExh = false ∧ t.ctr = s.args[6] ∧
      t.aadBytes = s.args[5].setWidth 64 ∧ t.payloadBytes = 0 ∧
      t.tag0 = 0 ∧ t.tag1 = 0 ∧ t.tag2 = 0 ∧ t.tag3 = 0 ∧ t.tagAny = false ∧
      t.ctxHeld = true ∧ t.accAny = false ∧
      t.key = keyAt s s.args[0] ∧ t.nonce = s.args[3] ++ s.args[2] ++ s.args[1] ∧
      t.polyR = polyKeyR t.key t.nonce ∧ t.polyS = polyKeyS t.key t.nonce ∧
      t.acc = polyAbsorbPadded t.polyR 0 (bytesAt (draw 32 s) s.args[4].toNat s.args[5].toNat) ∧
      t.accessLog =
        aadAccesses .engine s.args[4] s.args[5] ++
          { agent := .engine, kind := .read, addr := s.args[0].toNat, len := 32 } :: s.accessLog ∧
      t.backend = .cpu ∧ t.ch0Owned = s.ch0Owned ∧ t.ch1Owned = s.ch1Owned ∧ t.job = none ∧
      t.errlog = s.errlog ∧ t.mem = s.mem ∧ t.anyMem = s.anyMem ∧ HostSideSame s t

/-- R99, R113, R116: in the DMA backend the accept of INIT loads the session, acquires both channels and starts the job;
STATE keeps its value, BUSY is 1, the registers show the freshly loaded values, memory is unchanged, and the one access
recorded is the read of the key (R48, log entry 21). -/
def Obligations.InitStartsAJobInTheDmaBackend : Prop :=
  ∀ s : State, ∀ im ∈ [(Instr.initEnc, Dir.encrypt), (Instr.initDec, Dir.decrypt)],
    s.job = none → s.backend = .dma → NamedHeld s 7 → (s.session = .created ∨ s.session = .finalized) →
    s.args[0] ≠ 0 → (s.args[5] ≠ 0 → s.args[4] ≠ 0) →
    Usable s (buffer s.args[0] 32) → Nameable s (buffer s.args[4] s.args[5].toNat) →
    ∃ t, exec im.1 s = .next t ∧
      t.job = some { cmd := .init im.2 { keyPtr := s.args[0], constant := s.args[1], ivLo := s.args[2],
                                         ivHi := s.args[3], aadPtr := s.args[4], aadLen := s.args[5],
                                         initCtr := s.args[6] }, raced := false } ∧
      t.session = s.session ∧ t.err = .ok ∧ t.dir = im.2 ∧ t.lock = true ∧ t.ch0Owned = true ∧ t.ch1Owned = true ∧
      t.ctrExh = false ∧ t.ctr = s.args[6] ∧ t.aadBytes = 0 ∧ t.payloadBytes = 0 ∧
      t.tag0 = 0 ∧ t.tag1 = 0 ∧ t.tag2 = 0 ∧ t.tag3 = 0 ∧ t.tagAny = false ∧ t.ctxHeld = true ∧ t.accAny = false ∧
      t.key = keyAt s s.args[0] ∧ t.nonce = s.args[3] ++ s.args[2] ++ s.args[1] ∧
      t.polyR = polyKeyR t.key t.nonce ∧ t.polyS = polyKeyS t.key t.nonce ∧ t.acc = 0 ∧
      t.accessLog = { agent := .engine, kind := .read, addr := s.args[0].toNat, len := 32 } :: s.accessLog ∧
      t.backend = .dma ∧ t.errlog = s.errlog ∧ t.mem = s.mem ∧ t.anyMem = s.anyMem ∧ HostSideSame s t

/-! ## UPDATE_EXCL, UPDATE_INCL, AEAD -/

/-- R102: in the CPU backend UPDATE_EXCL, where its checks pass and the session context holds a value, consumes len / 64
keystream blocks and moves to PAYLOAD_STREAMING within the write. What it writes and absorbs, and which bytes of memory
hold any value after it, is the payload procedure's (PayloadOutputIsInputXorKeystream, PayloadAbsorbsTheCiphertextOnce);
its accesses are recorded block by block, the read before the write (R48, log entry 21). -/
def Obligations.UpdateExclCompletesInTheCpuBackend : Prop :=
  ∀ s : State, s.job = none → s.backend = .cpu → s.ctxHeld = true → NamedHeld s 3 →
    (s.session = .aadDone ∨ s.session = .payloadStreaming) →
    (s.args[2] ≠ 0 → s.args[0] ≠ 0 ∧ s.args[1] ≠ 0) → s.args[2].toNat % 64 = 0 →
    (s.args[2] ≠ 0 → s.ctrExh = false ∧ s.ctr.toNat + s.args[2].toNat / 64 ≤ 2 ^ 32) →
    Usable s (buffer s.args[0] s.args[2].toNat) → Usable s (buffer s.args[1] s.args[2].toNat) →
    DisjointOrInPlace { inPtr := s.args[0], outPtr := s.args[1], len := s.args[2] } →
    ∃ t, exec .updateExcl s = .next t ∧
      t.session = .payloadStreaming ∧ t.err = .ok ∧
      t.ctr = s.ctr + BitVec.ofNat 32 (s.args[2].toNat / 64) ∧
      (t.ctrExh = true ↔ s.ctrExh = true ∨ s.args[2] ≠ 0 ∧ s.ctr.toNat + s.args[2].toNat / 64 = 2 ^ 32) ∧
      t.payloadBytes = s.payloadBytes + s.args[2].setWidth 64 ∧
      t.mem = (processPayload .engine { inPtr := s.args[0], outPtr := s.args[1], len := s.args[2] } s).mem ∧
      t.acc = (processPayload .engine { inPtr := s.args[0], outPtr := s.args[1], len := s.args[2] } s).acc ∧
      t.anyMem =
        (processPayload .engine { inPtr := s.args[0], outPtr := s.args[1], len := s.args[2] } s).anyMem ∧
      t.accessLog =
        payloadAccesses .engine { inPtr := s.args[0], outPtr := s.args[1], len := s.args[2] } ++ s.accessLog ∧
      t.job = none ∧ t.errlog = s.errlog

/-- R116: in the DMA backend the accept of UPDATE_EXCL or UPDATE_INCL starts the job, sets ERR = OK, and changes nothing
else: the registers show the values before the command. -/
def Obligations.UpdatesStartAJobInTheDmaBackend : Prop :=
  ∀ s : State, s.job = none → s.backend = .dma → (s.session = .aadDone ∨ s.session = .payloadStreaming) →
    (s.args[2] ≠ 0 → s.args[0] ≠ 0 ∧ s.args[1] ≠ 0) →
    Nameable s (buffer s.args[0] s.args[2].toNat) → Nameable s (buffer s.args[1] s.args[2].toNat) →
    DisjointOrInPlace { inPtr := s.args[0], outPtr := s.args[1], len := s.args[2] } →
    (NamedHeld s 3 → s.args[2].toNat % 64 = 0 →
      (s.args[2] ≠ 0 → s.ctrExh = false ∧ s.ctr.toNat + s.args[2].toNat / 64 ≤ 2 ^ 32) →
      exec .updateExcl s =
        .next { s with err := .ok,
                       job := some { cmd := .updateExcl { inPtr := s.args[0], outPtr := s.args[1], len := s.args[2] },
                                     raced := false } }) ∧
    (NamedHeld s 4 → s.args[3] ≠ 0 → Nameable s (buffer s.args[3] 16) →
      (s.args[2] ≠ 0 → s.ctrExh = false ∧ s.ctr.toNat + (s.args[2].toNat + 63) / 64 ≤ 2 ^ 32) →
      exec .updateIncl s =
        .next { s with err := .ok,
                       job := some { cmd := .updateIncl { inPtr := s.args[0], outPtr := s.args[1], len := s.args[2] }
                                              s.args[3],
                                     raced := false } })

/-- R90, R103: in the CPU backend UPDATE_INCL, where its checks pass and the session context holds a value, consumes
ceil_div(len, 64) keystream blocks, writes the tag at tag_ptr and into TAG0..3, moves to FINALIZED and leaves the
channels free. The tag is (ACC + S) mod 2^128 of the accumulator after the length block, where ACC holds a value;
after a race it is a free tag (log entry 14). Every byte outside the tag
buffer is as the payload procedure leaves it, and the write of the tag is recorded last (R48, log entry 21). -/
def Obligations.UpdateInclCompletesInTheCpuBackend : Prop :=
  ∀ s : State, s.job = none → s.backend = .cpu → s.ctxHeld = true → NamedHeld s 4 →
    (s.session = .aadDone ∨ s.session = .payloadStreaming) →
    (s.args[2] ≠ 0 → s.args[0] ≠ 0 ∧ s.args[1] ≠ 0) → s.args[3] ≠ 0 →
    (s.args[2] ≠ 0 → s.ctrExh = false ∧ s.ctr.toNat + (s.args[2].toNat + 63) / 64 ≤ 2 ^ 32) →
    Usable s (buffer s.args[0] s.args[2].toNat) → Usable s (buffer s.args[1] s.args[2].toNat) →
    Usable s (buffer s.args[3] 16) →
    DisjointOrInPlace { inPtr := s.args[0], outPtr := s.args[1], len := s.args[2] } →
    ∃ t, exec .updateIncl s = .next t ∧
      t.session = .finalized ∧ t.err = .ok ∧ t.ch0Owned = false ∧ t.ch1Owned = false ∧
      t.ctr = s.ctr + BitVec.ofNat 32 ((s.args[2].toNat + 63) / 64) ∧
      (t.ctrExh = true ↔ s.ctrExh = true ∨ s.args[2] ≠ 0 ∧ s.ctr.toNat + (s.args[2].toNat + 63) / 64 = 2 ^ 32) ∧
      t.payloadBytes = s.payloadBytes + s.args[2].setWidth 64 ∧ t.aadBytes = s.aadBytes ∧
      (∃ T : BitVec 128,
        t.tag0 = T.extractLsb' 0 32 ∧ t.tag1 = T.extractLsb' 32 32 ∧ t.tag2 = T.extractLsb' 64 32 ∧
        t.tag3 = T.extractLsb' 96 32 ∧ t.tagAny = false ∧
        memBytes t.mem s.args[3].toNat 16 = bytesLe T.toNat 16 ∧ Definite t (buffer s.args[3] 16) ∧
        (s.accAny = false →
          T = BitVec.ofNat 128
            (polyAbsorb s.polyR
              (processPayload .engine { inPtr := s.args[0], outPtr := s.args[1], len := s.args[2] } s).acc
              (bytesLe t.aadBytes.toNat 8 ++ bytesLe t.payloadBytes.toNat 8) + s.polyS.toNat))) ∧
      MemSameOutside [buffer s.args[3] 16]
        (processPayload .engine { inPtr := s.args[0], outPtr := s.args[1], len := s.args[2] } s) t ∧
      t.accessLog =
        { agent := .engine, kind := .write, addr := s.args[3].toNat, len := 16 } ::
          (payloadAccesses .engine { inPtr := s.args[0], outPtr := s.args[1], len := s.args[2] } ++ s.accessLog) ∧
      t.job = none ∧ t.errlog = s.errlog

/-- R104: in the CPU backend AEAD, where its checks pass, loads the session, absorbs the AAD, processes the payload and
writes the tag within the write, and leaves STATE = FINALIZED with the channels free. The tag is that of R86's sequence:
the padded AAD, the padded ciphertext and the length block, from ACC = 0. The output and the tag hold their values, and
the accesses are recorded in the order of R48: key, AAD, each block's input and output, the tag (log entry 21). The AAD
and the payload input are taken to hold values. -/
def Obligations.AeadCompletesInTheCpuBackend : Prop :=
  ∀ s : State, ∀ im ∈ [(Instr.aeadEnc, Dir.encrypt), (Instr.aeadDec, Dir.decrypt)],
    s.job = none → s.backend = .cpu → NamedHeld s 11 → (s.session = .created ∨ s.session = .finalized) →
    s.args[0] ≠ 0 → (s.args[5] ≠ 0 → s.args[4] ≠ 0) → (s.args[9] ≠ 0 → s.args[7] ≠ 0 ∧ s.args[8] ≠ 0) →
    s.args[10] ≠ 0 → s.args[6].toNat + (s.args[9].toNat + 63) / 64 ≤ 2 ^ 32 →
    Usable s (buffer s.args[0] 32) → Usable s (buffer s.args[4] s.args[5].toNat) →
    Usable s (buffer s.args[7] s.args[9].toNat) → Usable s (buffer s.args[8] s.args[9].toNat) →
    Usable s (buffer s.args[10] 16) →
    DisjointOrInPlace { inPtr := s.args[7], outPtr := s.args[8], len := s.args[9] } →
    Definite s (buffer s.args[4] s.args[5].toNat) → Definite s (buffer s.args[7] s.args[9].toNat) →
    ∃ t ct ks, exec im.1 s = .next t ∧
      t.session = .finalized ∧ t.err = .ok ∧ t.dir = im.2 ∧ t.lock = true ∧ t.ch0Owned = false ∧ t.ch1Owned = false ∧
      t.ctr = s.args[6] + BitVec.ofNat 32 ((s.args[9].toNat + 63) / 64) ∧
      (t.ctrExh = true ↔ s.args[9] ≠ 0 ∧ s.args[6].toNat + (s.args[9].toNat + 63) / 64 = 2 ^ 32) ∧
      t.aadBytes = s.args[5].setWidth 64 ∧ t.payloadBytes = s.args[9].setWidth 64 ∧
      t.key = keyAt s s.args[0] ∧ t.nonce = s.args[3] ++ s.args[2] ++ s.args[1] ∧
      ks = keystream t.key t.nonce s.args[6] s.args[9].toNat ∧
      ct = (match im.2 with
            | .encrypt => xorBytes (memBytes s.mem s.args[7].toNat s.args[9].toNat) ks
            | .decrypt => memBytes s.mem s.args[7].toNat s.args[9].toNat) ∧
      (∀ o, o < s.args[9].toNat → ¬ InRegion (buffer s.args[10] 16) (s.args[8].toNat + o) →
        some (memGet t.mem (s.args[8].toNat + o)) =
          (xorBytes (memBytes s.mem s.args[7].toNat s.args[9].toNat) ks)[o]?) ∧
      (let R := polyKeyR t.key t.nonce
       let T := polyTag
         (polyAbsorb R
           (polyAbsorbPadded R
             (polyAbsorbPadded R 0 (memBytes s.mem s.args[4].toNat s.args[5].toNat)) ct)
           (bytesLe s.args[5].toNat 8 ++ bytesLe s.args[9].toNat 8)) (polyKeyS t.key t.nonce)
       t.tag0 = T.extractLsb' 0 32 ∧ t.tag1 = T.extractLsb' 32 32 ∧ t.tag2 = T.extractLsb' 64 32 ∧
       t.tag3 = T.extractLsb' 96 32 ∧ memBytes t.mem s.args[10].toNat 16 = bytesLe T.toNat 16) ∧
      Definite t (buffer s.args[8] s.args[9].toNat) ∧ Definite t (buffer s.args[10] 16) ∧
      t.accessLog =
        { agent := .engine, kind := .write, addr := s.args[10].toNat, len := 16 } ::
          (payloadAccesses .engine { inPtr := s.args[7], outPtr := s.args[8], len := s.args[9] } ++
            (aadAccesses .engine s.args[4] s.args[5] ++
              { agent := .engine, kind := .read, addr := s.args[0].toNat, len := 32 } :: s.accessLog)) ∧
      t.job = none ∧ t.errlog = s.errlog

/-- R104, R113, R116: in the DMA backend the accept of AEAD loads the session (KEY, NONCE, R, S and ACC = 0 among it),
acquires both channels and starts one job; STATE keeps its old value, and the one access recorded is the read of the key
(R48, log entry 21). -/
def Obligations.AeadStartsAJobInTheDmaBackend : Prop :=
  ∀ s : State, ∀ im ∈ [(Instr.aeadEnc, Dir.encrypt), (Instr.aeadDec, Dir.decrypt)],
    s.job = none → s.backend = .dma → NamedHeld s 11 → (s.session = .created ∨ s.session = .finalized) →
    s.args[0] ≠ 0 → (s.args[5] ≠ 0 → s.args[4] ≠ 0) → (s.args[9] ≠ 0 → s.args[7] ≠ 0 ∧ s.args[8] ≠ 0) →
    s.args[10] ≠ 0 → s.args[6].toNat + (s.args[9].toNat + 63) / 64 ≤ 2 ^ 32 →
    Usable s (buffer s.args[0] 32) → Nameable s (buffer s.args[4] s.args[5].toNat) →
    Nameable s (buffer s.args[7] s.args[9].toNat) → Nameable s (buffer s.args[8] s.args[9].toNat) →
    Nameable s (buffer s.args[10] 16) →
    DisjointOrInPlace { inPtr := s.args[7], outPtr := s.args[8], len := s.args[9] } →
    ∃ t, exec im.1 s = .next t ∧
      t.job = some { cmd := .aead im.2
                        { keyPtr := s.args[0], constant := s.args[1], ivLo := s.args[2], ivHi := s.args[3],
                          aadPtr := s.args[4], aadLen := s.args[5], initCtr := s.args[6] }
                        { inPtr := s.args[7], outPtr := s.args[8], len := s.args[9] } s.args[10],
                     raced := false } ∧
      t.session = s.session ∧ t.err = .ok ∧ t.dir = im.2 ∧ t.lock = true ∧ t.ch0Owned = true ∧ t.ch1Owned = true ∧
      t.ctrExh = false ∧ t.ctr = s.args[6] ∧ t.aadBytes = 0 ∧ t.payloadBytes = 0 ∧
      t.tag0 = 0 ∧ t.tag1 = 0 ∧ t.tag2 = 0 ∧ t.tag3 = 0 ∧ t.tagAny = false ∧ t.ctxHeld = true ∧
      t.accAny = false ∧ t.key = keyAt s s.args[0] ∧ t.nonce = s.args[3] ++ s.args[2] ++ s.args[1] ∧
      t.polyR = polyKeyR t.key t.nonce ∧ t.polyS = polyKeyS t.key t.nonce ∧ t.acc = 0 ∧
      t.accessLog = { agent := .engine, kind := .read, addr := s.args[0].toNat, len := 32 } :: s.accessLog ∧
      t.backend = .dma ∧ t.errlog = s.errlog ∧ t.mem = s.mem ∧ t.anyMem = s.anyMem ∧ HostSideSame s t

/-- R77, R80, R98: the output byte at payload offset o is the input byte XORed with byte o mod 64 of the keystream
block whose counter is CTR + o div 64; the output holds a value, and every byte outside the output range is unchanged.
It is said of an input whose bytes all hold values. -/
def Obligations.PayloadOutputIsInputXorKeystream : Prop :=
  ∀ (ag : Agent) (p : PayloadArgs) (s : State), Fits (inBuffer p) → Fits (outBuffer p) → DisjointOrInPlace p →
    Definite s (inBuffer p) →
    (∀ o, o < p.len.toNat →
      memGet (processPayload ag p s).mem (p.outPtr.toNat + o) =
        memGet s.mem (p.inPtr.toNat + o) ^^^ keystreamByte s.key s.nonce s.ctr o) ∧
    Definite (processPayload ag p s) (outBuffer p) ∧
    MemSameOutside [outBuffer p] s (processPayload ag p s)

/-- R86, R87, R88: the payload procedure absorbs the ciphertext of the whole piece, once and in order, with padding
only at its end: the output bytes when encrypting, the input bytes when decrypting. It is said of an input whose bytes
all hold values. -/
def Obligations.PayloadAbsorbsTheCiphertextOnce : Prop :=
  ∀ (ag : Agent) (p : PayloadArgs) (s : State), Fits (inBuffer p) → Fits (outBuffer p) → DisjointOrInPlace p →
    Definite s (inBuffer p) →
    (processPayload ag p s).acc =
      polyAbsorbPadded s.polyR s.acc
        (match s.dir with
         | .encrypt => memBytes (processPayload ag p s).mem p.outPtr.toNat p.len.toNat
         | .decrypt => memBytes s.mem p.inPtr.toNat p.len.toNat)

/-- R87: absorbing a string in two pieces, the first a multiple of 16 bytes long, gives the same accumulator as absorbing
it in one. -/
def Obligations.AbsorptionSplitsAtBlockBoundaries : Prop :=
  ∀ (r : BitVec 128) (acc : Nat) (d e : List Byte), d.length % 16 = 0 →
    polyAbsorbPadded r acc (d ++ e) = polyAbsorbPadded r (polyAbsorbPadded r acc d) e

/-- R83: the clamp clears the top four bits of bytes 3, 7, 11 and 15 and the bottom two bits of bytes 4, 8 and 12 of r,
keeps every other bit, and after it R < 2^124. -/
def Obligations.ClampClearsTheNamedBits : Prop :=
  ∀ (key : BitVec 256) (nonce : BitVec 96),
    (∀ i, i < 128 →
      (polyKeyR key nonce).getLsbD i =
        (!((i / 8 % 4 == 3 && decide (4 ≤ i % 8)) || (decide (4 ≤ i / 8) && i / 8 % 4 == 0 && decide (i % 8 < 2))) &&
          (BitVec.ofNat 128 (leNat ((chachaBlock key 0 nonce).take 16))).getLsbD i)) ∧
    (polyKeyR key nonce).toNat < 2 ^ 124

/-! ## Frames -/

/-- R19, R55: no command writes an argument register, and none changes the platform's fields or the HOST's side (the
inbox, the turns and the last values read are the model's own, log entries 6, 8 and 26). -/
def Obligations.NoCommandWritesTheHostSide : Prop :=
  ∀ (i : Instr) (s t : State), exec i s = .next t → HostSideSame s t

/-- Frame of SET_BACKEND, RELEASE and INIT in either backend: no byte of memory changes; SET_BACKEND leaves the session
alone, INIT and RELEASE leave BACKEND and ERRLOG alone where they are accepted (R100, R101, R106). -/
def Obligations.CommandsThatStoreNothingLeaveMemory : Prop :=
  ∀ s t : State,
    (∀ i ∈ [Instr.setBackendCpu, .setBackendDma, .initEnc, .initDec, .release], exec i s = .next t →
      t.mem = s.mem ∧ t.anyMem = s.anyMem) ∧
    (∀ i ∈ [Instr.setBackendCpu, .setBackendDma], exec i s = .next t →
      SessionSame s t ∧ t.lock = s.lock ∧ t.ch0Owned = s.ch0Owned ∧ t.ch1Owned = s.ch1Owned ∧ t.job = s.job ∧
      t.accessLog = s.accessLog ∧ t.draws = s.draws) ∧
    (∀ i ∈ [Instr.initEnc, .initDec, .release], exec i s = .next t →
      t.backend = s.backend ∧ (t.err = .ok → t.errlog = s.errlog))

/-- Frame of UPDATE_EXCL in either backend (R102): memory outside [out_ptr, out_ptr + len) is unchanged; KEY, NONCE, R, S,
DIR, AAD_BYTES, TAG, BACKEND and LOCK never change, and the channels only with ALREADY_FINALIZED. -/
def Obligations.UpdateExclLeavesTheRest : Prop :=
  ∀ s t : State, exec .updateExcl s = .next t →
    MemSameOutside [buffer s.args[1] s.args[2].toNat] s t ∧
    t.key = s.key ∧ t.nonce = s.nonce ∧ t.polyR = s.polyR ∧ t.polyS = s.polyS ∧ t.ctxHeld = s.ctxHeld ∧
    t.accAny = s.accAny ∧ t.dir = s.dir ∧ t.aadBytes = s.aadBytes ∧
    t.tag0 = s.tag0 ∧ t.tag1 = s.tag1 ∧ t.tag2 = s.tag2 ∧ t.tag3 = s.tag3 ∧ t.tagAny = s.tagAny ∧
    t.backend = s.backend ∧ t.lock = s.lock ∧ (t.err = .ok → t.errlog = s.errlog) ∧
    (t.err ≠ .alreadyFinalized → t.ch0Owned = s.ch0Owned ∧ t.ch1Owned = s.ch1Owned)

/-- Frame of UPDATE_INCL in either backend (R103): memory outside the payload output and the tag buffer is unchanged; KEY,
NONCE, R, S, DIR, AAD_BYTES, BACKEND and LOCK never change. -/
def Obligations.UpdateInclLeavesTheRest : Prop :=
  ∀ s t : State, exec .updateIncl s = .next t →
    MemSameOutside [buffer s.args[1] s.args[2].toNat, buffer s.args[3] 16] s t ∧
    t.key = s.key ∧ t.nonce = s.nonce ∧ t.polyR = s.polyR ∧ t.polyS = s.polyS ∧ t.ctxHeld = s.ctxHeld ∧
    t.accAny = s.accAny ∧ t.dir = s.dir ∧ t.aadBytes = s.aadBytes ∧
    t.backend = s.backend ∧ t.lock = s.lock ∧ (t.err = .ok → t.errlog = s.errlog)

/-- Frame of AEAD in either backend (R104): memory outside the payload output and the tag buffer is unchanged, and so are
BACKEND and, where it is accepted, ERRLOG; where it is rejected the session is unchanged. -/
def Obligations.AeadLeavesTheRest : Prop :=
  ∀ s t : State, ∀ i ∈ [Instr.aeadEnc, Instr.aeadDec], exec i s = .next t →
    MemSameOutside [buffer s.args[8] s.args[9].toNat, buffer s.args[10] 16] s t ∧
    t.backend = s.backend ∧ (t.err = .ok → t.errlog = s.errlog) ∧
    (t.err ≠ .ok → SessionSame s t ∧ t.lock = s.lock ∧ t.job = s.job)

/-! ## The DMA agent and the HOST's accesses -/

/-- R117: the completion of a job that no HOST write raced with, whose ranges are all backed, with DMA_OK = true: JOB
becomes none, the command's body takes effect with its snapshotted operands, and ERR is OK. With no job the DMA agent
has no step: its turn changes nothing (the model's choice, log entry 7). -/
def Obligations.CompletionPerformsTheBody : Prop :=
  (∀ (s : State) (j : Job), s.job = some j → j.raced = false → s.ctxHeld = true →
    (∀ r ∈ bodyRanges j.cmd, AvoidsAll s.absent r) →
    dmaTurn true s = .next { bodyOf .dma j.cmd { s with job := none } with err := .ok }) ∧
  (∀ (s : State) (ok : Bool), s.job = none → dmaTurn ok s = .next s)

/-- R118: a completion with DMA_OK = false, or whose body would access an address no memory backs, moves to FAULTED
with HARDWARE_FAULT: the context holds no value, CTR, the counters and TAG0..3 hold any value (for CTR and the
counters by STATE = FAULTED, log entry 15), every byte of the job's output ranges holds any value and no other byte
changes (log entry 5); the channels, DIR, BACKEND, LOCK and CTR_EXH stay. -/
def Obligations.TransferErrorFaultsTheSession : Prop :=
  ∀ (s : State) (j : Job) (ok : Bool), s.job = some j →
    (ok = false ∨ ∃ r ∈ bodyRanges j.cmd, ¬ AvoidsAll s.absent r) → ∃ t, dmaTurn ok s = .next t ∧
    t.job = none ∧ t.session = .faulted ∧ t.err = .hardwareFault ∧ t.errlog = s.errlog ||| 0x20 ∧
    countersAny t = true ∧ t.tagAny = true ∧ t.ctxHeld = false ∧
    (∀ a, a ∈ t.anyMem ↔ a ∈ s.anyMem ∨ ∃ r ∈ outputRanges j.cmd, InRegion r a) ∧ t.mem = s.mem ∧
    t.ch0Owned = s.ch0Owned ∧ t.ch1Owned = s.ch1Owned ∧ t.dir = s.dir ∧ t.backend = s.backend ∧ t.lock = s.lock ∧
    t.ctrExh = s.ctrExh ∧ HostSideSame s t

/-- R118, R132: in FAULTED every INIT, UPDATE_EXCL, UPDATE_INCL and AEAD raises SEQUENCE_INVALID, SET_BACKEND is rejected
while LOCK = 1, and RELEASE is accepted. -/
def Obligations.FaultedSessionNeedsRelease : Prop :=
  ∀ s : State, s.session = .faulted → s.job = none →
    (NamedHeld s 7 → ∀ i ∈ [Instr.initEnc, .initDec], exec i s = .next (logErr .sequenceInvalid s)) ∧
    (NamedHeld s 3 → exec .updateExcl s = .next (logErr .sequenceInvalid s)) ∧
    (NamedHeld s 4 → exec .updateIncl s = .next (logErr .sequenceInvalid s)) ∧
    (NamedHeld s 11 → ∀ i ∈ [Instr.aeadEnc, .aeadDec], exec i s = .next (logErr .sequenceInvalid s)) ∧
    (s.lock = true → ∀ i ∈ [Instr.setBackendCpu, .setBackendDma], exec i s = .next (logErr .sequenceInvalid s)) ∧
    (∃ t, exec .release s = .next t ∧ t.session = .created ∧ t.err = .ok)

/-- R38, R39, R43: a HOST write to backed system memory outside the window stores its bytes: a HOST read of the same
range then returns them, and every other byte is unchanged. With no job in flight, and off the platform's absent and
device regions (log entries 10 and 12). -/
def Obligations.HostStoreThenLoadReturnsTheBytes : Prop :=
  ∀ (s : State) (a : Nat) (bs : List Byte), s.job = none → a + bs.length ≤ 2 ^ 32 →
    AvoidsAll s.absent { base := a, size := bs.length } → AvoidsAll s.devices { base := a, size := bs.length } →
    Apart { base := a, size := bs.length } (windowRegion s) → ∃ t u,
      hostStore a bs s = .next t ∧ hostLoad a bs.length t = .next u ∧ u.loadData = bs ∧
      MemSameOutside [{ base := a, size := bs.length }] s t ∧ u.mem = t.mem

/-- R51: while a job is in flight a HOST read of a byte of its output ranges returns a free draw (log entry 4); a byte
outside them that does not hold any value reads as memory holds it. -/
def Obligations.OutputsOfAJobInFlightReadAsDraws : Prop :=
  ∀ (s : State) (j : Job) (a : Nat), s.job = some j → a < 2 ^ 32 →
    AvoidsAll s.absent { base := a, size := 1 } → AvoidsAll s.devices { base := a, size := 1 } →
    ¬ InRegion (windowRegion s) a →
    ((∃ r ∈ outputRanges j.cmd, InRegion r a) →
      hostLoad a 1 s = .next { s with loadData := [Config.freeByte s.draws], draws := s.draws + 1 }) ∧
    ((∀ r ∈ outputRanges j.cmd, ¬ InRegion r a) → a ∉ s.anyMem →
      hostLoad a 1 s = .next { s with loadData := [memGet s.mem a], draws := s.draws + 1 })

/-- R52: a HOST write to the AAD, payload input, payload output or tag range of the job in flight races with it: when
that job completes with DMA_OK = true, every byte of its output ranges and TAG0..3 hold any value, and ACC holds any
value for the rest of the session. That TAG0..3 hold any value after a job of every kind is the model's reading (log
entry 14). -/
def Obligations.RacingHostWriteLeavesAnyValue : Prop :=
  ∀ (s : State) (j : Job) (a : Nat) (bs : List Byte), s.job = some j → s.ctxHeld = true →
    a + bs.length ≤ 2 ^ 32 →
    AvoidsAll s.absent { base := a, size := bs.length } → AvoidsAll s.devices { base := a, size := bs.length } →
    Apart { base := a, size := bs.length } (windowRegion s) →
    (∀ r ∈ bodyRanges j.cmd, AvoidsAll s.absent r) →
    (∃ r ∈ bodyRanges j.cmd, ¬ Apart { base := a, size := bs.length } r) → ∃ t u,
      hostStore a bs s = .next t ∧ t.job = some { j with raced := true } ∧ dmaTurn true t = .next u ∧
      (∀ r ∈ outputRanges j.cmd, ∀ x, InRegion r x → x ∈ u.anyMem) ∧ u.tagAny = true ∧ u.accAny = true ∧
      u.job = none ∧ u.err = .ok

/-- R67, R120: one pass of the wait loop reads STATUS; the loop stays while BUSY = 1 and is left once BUSY = 0. That
one pass is one step, and the loop one entry of the HOST's inbox, is the model's choice (log entries 8 and 19). -/
def Obligations.WaitLoopPollsStatusUntilNotBusy : Prop :=
  ∀ (s : State) (rest : List HostOp) (ts : List Turn), s.turns = .host :: ts → s.inbox = .wait :: rest →
    (s.job ≠ none → step s = .next { s with turns := ts, busData := statusWord s }) ∧
    (s.job = none → step s = .next { s with turns := ts, busData := statusWord s, inbox := rest })

/-! ## The step -/

/-- R22, R57, R94: when it is the HOST's turn and the head of its inbox is the write of a word to CMD that decodes to
a command, the step is exec of that command, on the state with the turn and the write taken out. The inbox and the
turns are the model's own (log entries 6 and 8). -/
def Obligations.StepRunsTheDecodedCommand : Prop :=
  ∀ (s : State) (w : Word) (i : Instr) (rest : List HostOp), s.inbox = .busWrite 0x00 .w32 w :: rest →
    decode w = .ok i →
    (∀ ts, s.turns = .host :: ts → step s = exec i { s with turns := ts, inbox := rest }) ∧
    (s.turns = [] → s.job = none → step s = exec i { s with inbox := rest })

/-- The word withFetchWord places is the very next command step runs, on the state whose ARGs all hold a value, an ARG
that held none at zero (the model's way to place a command, log entry 8). -/
def Obligations.PlacedWordIsTheNextCommand : Prop :=
  ∀ (s : State) (i : Instr),
    step (s.withFetchWord 32 (encode i).toNat) =
      exec i { s with args := (zeroUnheldArgs s).args, argsHeld := (zeroUnheldArgs s).argsHeld } ∧
    (∀ k : Fin 16, (zeroUnheldArgs s).argsHeld[k] = true ∧
      (zeroUnheldArgs s).args[k] = if s.argsHeld[k] then s.args[k] else 0)

/-- R17, R117, R119: which agent a step moves: the one whose turn is scheduled; with no turn scheduled the DMA agent
where a job is in flight (its draw is free), else the HOST. The schedule is the model's (log entry 6). -/
def Obligations.StepMovesTheScheduledAgent : Prop :=
  ∀ s : State,
    (∀ ok ts, s.turns = .dma ok :: ts → step s = dmaTurn ok { s with turns := ts }) ∧
    (∀ op rest ts, s.turns = .host :: ts → s.inbox = op :: rest →
      step s = hostOp op { s with turns := ts, inbox := rest }) ∧
    (s.turns = [] → s.job ≠ none →
      step s = dmaTurn (Config.dmaOk s.draws) { s with draws := s.draws + 1 }) ∧
    (s.turns = [] → s.job = none → ∀ op rest, s.inbox = op :: rest →
      step s = hostOp op { s with inbox := rest })

/-! ## Whole-machine rules -/

/-- The reset state meets the invariant. -/
def Obligations.ResetMeetsTheInvariant : Prop := MachineInv State.reset

/-- R16, R27, R28, R30, R33, R35, R83, R91, R115: every step from a state that meets the invariant gives a state that
meets it. -/
def Obligations.EveryStepKeepsTheInvariant : Prop :=
  ∀ s t : State, MachineInv s → step s = .next t → MachineInv t

/-- R27, R100: once LOCK = 1 it stays 1 and BACKEND stays what it is, whatever moves, until reset. -/
def Obligations.BackendIsFixedOnceLocked : Prop :=
  ∀ s t : State, step s = .next t → s.lock = true → (∀ ts, s.turns ≠ .reset :: ts) →
    t.lock = true ∧ t.backend = s.backend

/-- R24: where a step changes STATE, it is one of the rows of the transition table, with its event: INIT takes effect, to
AAD_DONE; UPDATE_EXCL takes effect, from AAD_DONE to PAYLOAD_STREAMING; UPDATE_INCL or AEAD takes effect, to FINALIZED; a
job completes with a transfer error, to FAULTED; RELEASE is accepted, or reset, to CREATED. A command takes effect within
the HOST's write to CMD in the CPU backend, or at the completion of its job. In states that meet the invariant; the
schedule of the agents is log entry 6. -/
def Obligations.StateChangesFollowTheTransitionTable : Prop :=
  ∀ s t : State, MachineInv s → step s = .next t → t.session ≠ s.session →
    (t.session = .aadDone ∧ (s.session = .created ∨ s.session = .finalized) ∧ t.err = .ok ∧
      (s.backend = .cpu ∧ (NextIsCommand s .initEnc ∨ NextIsCommand s .initDec) ∨
        ∃ d a, NextIsCompletion s (.init d a))) ∨
    (t.session = .payloadStreaming ∧ s.session = .aadDone ∧ t.err = .ok ∧
      (s.backend = .cpu ∧ NextIsCommand s .updateExcl ∨ ∃ p, NextIsCompletion s (.updateExcl p))) ∨
    (t.session = .finalized ∧ (s.session = .aadDone ∨ s.session = .payloadStreaming) ∧ t.err = .ok ∧
      (s.backend = .cpu ∧ NextIsCommand s .updateIncl ∨ ∃ p tag, NextIsCompletion s (.updateIncl p tag))) ∨
    (t.session = .finalized ∧ s.session = .created ∧ t.err = .ok ∧
      (s.backend = .cpu ∧ (NextIsCommand s .aeadEnc ∨ NextIsCommand s .aeadDec) ∨
        ∃ d a p tag, NextIsCompletion s (.aead d a p tag))) ∨
    (t.session = .faulted ∧ t.err = .hardwareFault ∧ ∃ c, NextIsCompletion s c) ∨
    (t.session = .created ∧
      (s.job = none ∧ t.err = .ok ∧ NextIsCommand s .release ∨ ∃ ts, s.turns = .reset :: ts))

/-- R40, R46, R47, R49, R129: a command whose checks pass is refused where its buffers are unusable: one of them wraps
(MF5), the payload ranges partly overlap (MF6), one is on a device, or no memory backs an access within the write (MF7):
of every buffer in the CPU backend and for GEN_BLOCK, of the key alone in the DMA backend. Which name is reported where
several hold, and that the refusal comes before any effect, is the model's choice (log entries 11, 18 and 23). -/
def Obligations.UnusableBuffersAreRefused : Prop :=
  ∀ s : State, s.job = none →
    (∀ i ∈ [Instr.initEnc, .initDec], NamedHeld s 7 → (s.session = .created ∨ s.session = .finalized) →
      s.args[0] ≠ 0 → (s.args[5] ≠ 0 → s.args[4] ≠ 0) →
      RefusedWhereUnusable s [buffer s.args[0] 32, buffer s.args[4] s.args[5].toNat]
        (if s.backend = .cpu then [buffer s.args[0] 32, buffer s.args[4] s.args[5].toNat]
         else [buffer s.args[0] 32]) none (exec i s)) ∧
    (NamedHeld s 3 → (s.session = .aadDone ∨ s.session = .payloadStreaming) →
      (s.args[2] ≠ 0 → s.args[0] ≠ 0 ∧ s.args[1] ≠ 0) → s.args[2].toNat % 64 = 0 →
      (s.args[2] ≠ 0 → s.ctrExh = false ∧ s.ctr.toNat + s.args[2].toNat / 64 ≤ 2 ^ 32) →
      RefusedWhereUnusable s [buffer s.args[0] s.args[2].toNat, buffer s.args[1] s.args[2].toNat]
        (if s.backend = .cpu then [buffer s.args[0] s.args[2].toNat, buffer s.args[1] s.args[2].toNat] else [])
        (some { inPtr := s.args[0], outPtr := s.args[1], len := s.args[2] }) (exec .updateExcl s)) ∧
    (NamedHeld s 4 → (s.session = .aadDone ∨ s.session = .payloadStreaming) →
      (s.args[2] ≠ 0 → s.args[0] ≠ 0 ∧ s.args[1] ≠ 0) → s.args[3] ≠ 0 →
      (s.args[2] ≠ 0 → s.ctrExh = false ∧ s.ctr.toNat + (s.args[2].toNat + 63) / 64 ≤ 2 ^ 32) →
      RefusedWhereUnusable s
        [buffer s.args[0] s.args[2].toNat, buffer s.args[1] s.args[2].toNat, buffer s.args[3] 16]
        (if s.backend = .cpu then
          [buffer s.args[0] s.args[2].toNat, buffer s.args[1] s.args[2].toNat, buffer s.args[3] 16] else [])
        (some { inPtr := s.args[0], outPtr := s.args[1], len := s.args[2] }) (exec .updateIncl s)) ∧
    (∀ i ∈ [Instr.aeadEnc, .aeadDec], NamedHeld s 11 → (s.session = .created ∨ s.session = .finalized) →
      s.args[0] ≠ 0 → (s.args[5] ≠ 0 → s.args[4] ≠ 0) → (s.args[9] ≠ 0 → s.args[7] ≠ 0 ∧ s.args[8] ≠ 0) →
      s.args[10] ≠ 0 → s.args[6].toNat + (s.args[9].toNat + 63) / 64 ≤ 2 ^ 32 →
      RefusedWhereUnusable s
        [buffer s.args[0] 32, buffer s.args[4] s.args[5].toNat, buffer s.args[7] s.args[9].toNat,
          buffer s.args[8] s.args[9].toNat, buffer s.args[10] 16]
        (if s.backend = .cpu then
          [buffer s.args[0] 32, buffer s.args[4] s.args[5].toNat, buffer s.args[7] s.args[9].toNat,
            buffer s.args[8] s.args[9].toNat, buffer s.args[10] 16]
         else [buffer s.args[0] 32])
        (some { inPtr := s.args[7], outPtr := s.args[8], len := s.args[9] }) (exec i s)) ∧
    (NamedHeld s 6 → s.args[0] ≠ 0 → s.args[5] ≠ 0 →
      RefusedWhereUnusable s [buffer s.args[0] 32, buffer s.args[5] 64] [buffer s.args[0] 32, buffer s.args[5] 64] none
        (exec .genBlock s))

/-- R35, R133: the HOST's reads do not depend on KEY, NONCE, R, S and ACC: with any other values there, every register read
and every memory read answers the same. -/
def Obligations.ReadsRevealNothingOfTheContext : Prop :=
  ∀ (s : State) (k : BitVec 256) (n : BitVec 96) (r c : BitVec 128) (a : Nat),
    let hide := fun u : State => { u with key := k, nonce := n, polyR := r, polyS := c, acc := a }
    (∀ off width, busRead off width (hide s) =
      match busRead off width s with
      | .next t => .next (hide t)
      | .fault f => .fault f
      | .refused q => .refused q) ∧
    (∀ addr len, hostLoad addr len (hide s) =
      match hostLoad addr len s with
      | .next t => .next (hide t)
      | .fault f => .fault f
      | .refused q => .refused q)

/-- R105: in the CPU backend an accepted AEAD leaves the same state as INIT, then UPDATE_EXCL on the first 64·j bytes,
then UPDATE_INCL on the rest with the same tag pointer, the HOST writing the arguments in between; only the ARGs
differ. It is said of one UPDATE_EXCL call. -/
def Obligations.AeadEqualsTheStreamedSequence : Prop :=
  ∀ (s t : State) (j : Nat),
    ∀ ie ∈ [(Instr.aeadEnc, Instr.initEnc), (Instr.aeadDec, Instr.initDec)],
    s.backend = .cpu → exec ie.1 s = .next t → t.err = .ok → 64 * j ≤ s.args[9].toNat → ∃ t1 t2 t3,
      exec ie.2 s = .next t1 ∧
      exec .updateExcl (writeArg 2 (BitVec.ofNat 32 (64 * j)) (writeArg 1 s.args[8] (writeArg 0 s.args[7] t1))) =
        .next t2 ∧
      exec .updateIncl
        (writeArg 3 s.args[10]
          (writeArg 2 (s.args[9] - BitVec.ofNat 32 (64 * j))
            (writeArg 1 (s.args[8] + BitVec.ofNat 32 (64 * j))
              (writeArg 0 (s.args[7] + BitVec.ofNat 32 (64 * j)) t2)))) = .next t3 ∧
      t = { t3 with args := t.args, argsHeld := t.argsHeld }

/-- R4, R123: for each command that starts a job: accepted in the DMA backend and completed at once with DMA_OK =
true, it leaves the same memory and the same CTR, AAD_BYTES, PAYLOAD_BYTES, TAG0..3, ERRLOG, STATE, ERR, DIR, CTR_EXH
and session context as the CPU backend does from the same state. It is said of each command by itself. -/
def Obligations.BackendsLeaveTheSameResults : Prop :=
  ∀ (s t u : State), ∀ i ∈ [Instr.initEnc, .initDec, .updateExcl, .updateIncl, .aeadEnc, .aeadDec],
    s.job = none → s.backend = .cpu → exec i s = .next t → t.err = .ok →
    exec i { s with backend := .dma } = .next u → ∃ v, dmaTurn true u = .next v ∧
      v.mem = t.mem ∧ v.anyMem = t.anyMem ∧ v.ctr = t.ctr ∧ v.aadBytes = t.aadBytes ∧
      v.payloadBytes = t.payloadBytes ∧ v.tag0 = t.tag0 ∧ v.tag1 = t.tag1 ∧ v.tag2 = t.tag2 ∧ v.tag3 = t.tag3 ∧
      v.tagAny = t.tagAny ∧ v.errlog = t.errlog ∧ v.session = t.session ∧ v.err = t.err ∧ v.dir = t.dir ∧
      v.ctrExh = t.ctrExh ∧ v.key = t.key ∧ v.nonce = t.nonce ∧ v.polyR = t.polyR ∧ v.polyS = t.polyS ∧
      v.acc = t.acc ∧ v.lock = t.lock ∧ v.job = none

/-- R110: decrypting what AEAD has just encrypted, with the same key, nonce, AAD and init_ctr, gives the original
plaintext back and computes the same tag; the output, tag and decrypted ranges keep clear of the key, the AAD and one
another. It is said of one-shot AEAD in the CPU backend. -/
def Obligations.DecryptingTheCiphertextRestoresThePlaintext : Prop :=
  ∀ (s t u : State) (back tag2 : Word), s.backend = .cpu →
    exec .aeadEnc s = .next t → t.err = .ok →
    exec .aeadDec (writeArg 10 tag2 (writeArg 8 back (writeArg 7 s.args[8] t))) = .next u → u.err = .ok →
    (∀ r ∈ [buffer s.args[0] 32, buffer s.args[4] s.args[5].toNat, buffer s.args[7] s.args[9].toNat], Definite s r) →
    (∀ r ∈ [buffer s.args[0] 32, buffer s.args[4] s.args[5].toNat, buffer s.args[10] 16],
      Apart r (buffer s.args[8] s.args[9].toNat)) →
    (∀ r ∈ [buffer s.args[0] 32, buffer s.args[4] s.args[5].toNat], Apart r (buffer s.args[10] 16)) →
    Apart (buffer tag2 16) (buffer back s.args[9].toNat) →
    memBytes u.mem back.toNat s.args[9].toNat = memBytes s.mem s.args[7].toNat s.args[9].toNat ∧
    u.tag0 = t.tag0 ∧ u.tag1 = t.tag1 ∧ u.tag2 = t.tag2 ∧ u.tag3 = t.tag3
end

