-- ==== Sys2Proof/Laws/State.lean ====
section
/-! SUPPORT. One lemma per field per named update of State, so that no later proof unfolds a record update. -/

namespace Sys2Proof.Machine

section setErr
variable (e : ErrCode) (s : State)
@[simp] theorem setErr_session : (setErr e s).session = s.session := rfl
@[simp] theorem setErr_err : (setErr e s).err = e := rfl
@[simp] theorem setErr_backend : (setErr e s).backend = s.backend := rfl
@[simp] theorem setErr_lock : (setErr e s).lock = s.lock := rfl
@[simp] theorem setErr_ch0Owned : (setErr e s).ch0Owned = s.ch0Owned := rfl
@[simp] theorem setErr_ch1Owned : (setErr e s).ch1Owned = s.ch1Owned := rfl
@[simp] theorem setErr_dir : (setErr e s).dir = s.dir := rfl
@[simp] theorem setErr_ctrExh : (setErr e s).ctrExh = s.ctrExh := rfl
@[simp] theorem setErr_ctr : (setErr e s).ctr = s.ctr := rfl
@[simp] theorem setErr_errlog : (setErr e s).errlog = s.errlog := rfl
@[simp] theorem setErr_aadBytes : (setErr e s).aadBytes = s.aadBytes := rfl
@[simp] theorem setErr_payloadBytes : (setErr e s).payloadBytes = s.payloadBytes := rfl
@[simp] theorem setErr_tag0 : (setErr e s).tag0 = s.tag0 := rfl
@[simp] theorem setErr_tag1 : (setErr e s).tag1 = s.tag1 := rfl
@[simp] theorem setErr_tag2 : (setErr e s).tag2 = s.tag2 := rfl
@[simp] theorem setErr_tag3 : (setErr e s).tag3 = s.tag3 := rfl
@[simp] theorem setErr_tagAny : (setErr e s).tagAny = s.tagAny := rfl
@[simp] theorem setErr_args : (setErr e s).args = s.args := rfl
@[simp] theorem setErr_argsHeld : (setErr e s).argsHeld = s.argsHeld := rfl
@[simp] theorem setErr_key : (setErr e s).key = s.key := rfl
@[simp] theorem setErr_nonce : (setErr e s).nonce = s.nonce := rfl
@[simp] theorem setErr_polyR : (setErr e s).polyR = s.polyR := rfl
@[simp] theorem setErr_polyS : (setErr e s).polyS = s.polyS := rfl
@[simp] theorem setErr_acc : (setErr e s).acc = s.acc := rfl
@[simp] theorem setErr_ctxHeld : (setErr e s).ctxHeld = s.ctxHeld := rfl
@[simp] theorem setErr_accAny : (setErr e s).accAny = s.accAny := rfl
@[simp] theorem setErr_job : (setErr e s).job = s.job := rfl
@[simp] theorem setErr_mem : (setErr e s).mem = s.mem := rfl
@[simp] theorem setErr_anyMem : (setErr e s).anyMem = s.anyMem := rfl
@[simp] theorem setErr_accessLog : (setErr e s).accessLog = s.accessLog := rfl
@[simp] theorem setErr_baseIndex : (setErr e s).baseIndex = s.baseIndex := rfl
@[simp] theorem setErr_absent : (setErr e s).absent = s.absent := rfl
@[simp] theorem setErr_devices : (setErr e s).devices = s.devices := rfl
@[simp] theorem setErr_inbox : (setErr e s).inbox = s.inbox := rfl
@[simp] theorem setErr_turns : (setErr e s).turns = s.turns := rfl
@[simp] theorem setErr_busData : (setErr e s).busData = s.busData := rfl
@[simp] theorem setErr_loadData : (setErr e s).loadData = s.loadData := rfl
@[simp] theorem setErr_draws : (setErr e s).draws = s.draws := rfl
end setErr

section releaseChannels
variable (s : State)
@[simp] theorem releaseChannels_session : (releaseChannels s).session = s.session := rfl
@[simp] theorem releaseChannels_err : (releaseChannels s).err = s.err := rfl
@[simp] theorem releaseChannels_backend : (releaseChannels s).backend = s.backend := rfl
@[simp] theorem releaseChannels_lock : (releaseChannels s).lock = s.lock := rfl
@[simp] theorem releaseChannels_ch0Owned : (releaseChannels s).ch0Owned = false := rfl
@[simp] theorem releaseChannels_ch1Owned : (releaseChannels s).ch1Owned = false := rfl
@[simp] theorem releaseChannels_dir : (releaseChannels s).dir = s.dir := rfl
@[simp] theorem releaseChannels_ctrExh : (releaseChannels s).ctrExh = s.ctrExh := rfl
@[simp] theorem releaseChannels_ctr : (releaseChannels s).ctr = s.ctr := rfl
@[simp] theorem releaseChannels_errlog : (releaseChannels s).errlog = s.errlog := rfl
@[simp] theorem releaseChannels_aadBytes : (releaseChannels s).aadBytes = s.aadBytes := rfl
@[simp] theorem releaseChannels_payloadBytes : (releaseChannels s).payloadBytes = s.payloadBytes := rfl
@[simp] theorem releaseChannels_tag0 : (releaseChannels s).tag0 = s.tag0 := rfl
@[simp] theorem releaseChannels_tag1 : (releaseChannels s).tag1 = s.tag1 := rfl
@[simp] theorem releaseChannels_tag2 : (releaseChannels s).tag2 = s.tag2 := rfl
@[simp] theorem releaseChannels_tag3 : (releaseChannels s).tag3 = s.tag3 := rfl
@[simp] theorem releaseChannels_tagAny : (releaseChannels s).tagAny = s.tagAny := rfl
@[simp] theorem releaseChannels_args : (releaseChannels s).args = s.args := rfl
@[simp] theorem releaseChannels_argsHeld : (releaseChannels s).argsHeld = s.argsHeld := rfl
@[simp] theorem releaseChannels_key : (releaseChannels s).key = s.key := rfl
@[simp] theorem releaseChannels_nonce : (releaseChannels s).nonce = s.nonce := rfl
@[simp] theorem releaseChannels_polyR : (releaseChannels s).polyR = s.polyR := rfl
@[simp] theorem releaseChannels_polyS : (releaseChannels s).polyS = s.polyS := rfl
@[simp] theorem releaseChannels_acc : (releaseChannels s).acc = s.acc := rfl
@[simp] theorem releaseChannels_ctxHeld : (releaseChannels s).ctxHeld = s.ctxHeld := rfl
@[simp] theorem releaseChannels_accAny : (releaseChannels s).accAny = s.accAny := rfl
@[simp] theorem releaseChannels_job : (releaseChannels s).job = s.job := rfl
@[simp] theorem releaseChannels_mem : (releaseChannels s).mem = s.mem := rfl
@[simp] theorem releaseChannels_anyMem : (releaseChannels s).anyMem = s.anyMem := rfl
@[simp] theorem releaseChannels_accessLog : (releaseChannels s).accessLog = s.accessLog := rfl
@[simp] theorem releaseChannels_baseIndex : (releaseChannels s).baseIndex = s.baseIndex := rfl
@[simp] theorem releaseChannels_absent : (releaseChannels s).absent = s.absent := rfl
@[simp] theorem releaseChannels_devices : (releaseChannels s).devices = s.devices := rfl
@[simp] theorem releaseChannels_inbox : (releaseChannels s).inbox = s.inbox := rfl
@[simp] theorem releaseChannels_turns : (releaseChannels s).turns = s.turns := rfl
@[simp] theorem releaseChannels_busData : (releaseChannels s).busData = s.busData := rfl
@[simp] theorem releaseChannels_loadData : (releaseChannels s).loadData = s.loadData := rfl
@[simp] theorem releaseChannels_draws : (releaseChannels s).draws = s.draws := rfl
end releaseChannels

section acquireChannels
variable (s : State)
@[simp] theorem acquireChannels_session : (acquireChannels s).session = s.session := rfl
@[simp] theorem acquireChannels_err : (acquireChannels s).err = s.err := rfl
@[simp] theorem acquireChannels_backend : (acquireChannels s).backend = s.backend := rfl
@[simp] theorem acquireChannels_lock : (acquireChannels s).lock = s.lock := rfl
@[simp] theorem acquireChannels_ch0Owned : (acquireChannels s).ch0Owned = true := rfl
@[simp] theorem acquireChannels_ch1Owned : (acquireChannels s).ch1Owned = true := rfl
@[simp] theorem acquireChannels_dir : (acquireChannels s).dir = s.dir := rfl
@[simp] theorem acquireChannels_ctrExh : (acquireChannels s).ctrExh = s.ctrExh := rfl
@[simp] theorem acquireChannels_ctr : (acquireChannels s).ctr = s.ctr := rfl
@[simp] theorem acquireChannels_errlog : (acquireChannels s).errlog = s.errlog := rfl
@[simp] theorem acquireChannels_aadBytes : (acquireChannels s).aadBytes = s.aadBytes := rfl
@[simp] theorem acquireChannels_payloadBytes : (acquireChannels s).payloadBytes = s.payloadBytes := rfl
@[simp] theorem acquireChannels_tag0 : (acquireChannels s).tag0 = s.tag0 := rfl
@[simp] theorem acquireChannels_tag1 : (acquireChannels s).tag1 = s.tag1 := rfl
@[simp] theorem acquireChannels_tag2 : (acquireChannels s).tag2 = s.tag2 := rfl
@[simp] theorem acquireChannels_tag3 : (acquireChannels s).tag3 = s.tag3 := rfl
@[simp] theorem acquireChannels_tagAny : (acquireChannels s).tagAny = s.tagAny := rfl
@[simp] theorem acquireChannels_args : (acquireChannels s).args = s.args := rfl
@[simp] theorem acquireChannels_argsHeld : (acquireChannels s).argsHeld = s.argsHeld := rfl
@[simp] theorem acquireChannels_key : (acquireChannels s).key = s.key := rfl
@[simp] theorem acquireChannels_nonce : (acquireChannels s).nonce = s.nonce := rfl
@[simp] theorem acquireChannels_polyR : (acquireChannels s).polyR = s.polyR := rfl
@[simp] theorem acquireChannels_polyS : (acquireChannels s).polyS = s.polyS := rfl
@[simp] theorem acquireChannels_acc : (acquireChannels s).acc = s.acc := rfl
@[simp] theorem acquireChannels_ctxHeld : (acquireChannels s).ctxHeld = s.ctxHeld := rfl
@[simp] theorem acquireChannels_accAny : (acquireChannels s).accAny = s.accAny := rfl
@[simp] theorem acquireChannels_job : (acquireChannels s).job = s.job := rfl
@[simp] theorem acquireChannels_mem : (acquireChannels s).mem = s.mem := rfl
@[simp] theorem acquireChannels_anyMem : (acquireChannels s).anyMem = s.anyMem := rfl
@[simp] theorem acquireChannels_accessLog : (acquireChannels s).accessLog = s.accessLog := rfl
@[simp] theorem acquireChannels_baseIndex : (acquireChannels s).baseIndex = s.baseIndex := rfl
@[simp] theorem acquireChannels_absent : (acquireChannels s).absent = s.absent := rfl
@[simp] theorem acquireChannels_devices : (acquireChannels s).devices = s.devices := rfl
@[simp] theorem acquireChannels_inbox : (acquireChannels s).inbox = s.inbox := rfl
@[simp] theorem acquireChannels_turns : (acquireChannels s).turns = s.turns := rfl
@[simp] theorem acquireChannels_busData : (acquireChannels s).busData = s.busData := rfl
@[simp] theorem acquireChannels_loadData : (acquireChannels s).loadData = s.loadData := rfl
@[simp] theorem acquireChannels_draws : (acquireChannels s).draws = s.draws := rfl
end acquireChannels

section logErr
variable (e : ErrCode) (s : State)
@[simp] theorem logErr_session : (logErr e s).session = s.session := rfl
@[simp] theorem logErr_err : (logErr e s).err = e := rfl
@[simp] theorem logErr_backend : (logErr e s).backend = s.backend := rfl
@[simp] theorem logErr_lock : (logErr e s).lock = s.lock := rfl
@[simp] theorem logErr_ch0Owned : (logErr e s).ch0Owned = s.ch0Owned := rfl
@[simp] theorem logErr_ch1Owned : (logErr e s).ch1Owned = s.ch1Owned := rfl
@[simp] theorem logErr_dir : (logErr e s).dir = s.dir := rfl
@[simp] theorem logErr_ctrExh : (logErr e s).ctrExh = s.ctrExh := rfl
@[simp] theorem logErr_ctr : (logErr e s).ctr = s.ctr := rfl
@[simp] theorem logErr_errlog : (logErr e s).errlog = s.errlog ||| errlogBit e := rfl
@[simp] theorem logErr_aadBytes : (logErr e s).aadBytes = s.aadBytes := rfl
@[simp] theorem logErr_payloadBytes : (logErr e s).payloadBytes = s.payloadBytes := rfl
@[simp] theorem logErr_tag0 : (logErr e s).tag0 = s.tag0 := rfl
@[simp] theorem logErr_tag1 : (logErr e s).tag1 = s.tag1 := rfl
@[simp] theorem logErr_tag2 : (logErr e s).tag2 = s.tag2 := rfl
@[simp] theorem logErr_tag3 : (logErr e s).tag3 = s.tag3 := rfl
@[simp] theorem logErr_tagAny : (logErr e s).tagAny = s.tagAny := rfl
@[simp] theorem logErr_args : (logErr e s).args = s.args := rfl
@[simp] theorem logErr_argsHeld : (logErr e s).argsHeld = s.argsHeld := rfl
@[simp] theorem logErr_key : (logErr e s).key = s.key := rfl
@[simp] theorem logErr_nonce : (logErr e s).nonce = s.nonce := rfl
@[simp] theorem logErr_polyR : (logErr e s).polyR = s.polyR := rfl
@[simp] theorem logErr_polyS : (logErr e s).polyS = s.polyS := rfl
@[simp] theorem logErr_acc : (logErr e s).acc = s.acc := rfl
@[simp] theorem logErr_ctxHeld : (logErr e s).ctxHeld = s.ctxHeld := rfl
@[simp] theorem logErr_accAny : (logErr e s).accAny = s.accAny := rfl
@[simp] theorem logErr_job : (logErr e s).job = s.job := rfl
@[simp] theorem logErr_mem : (logErr e s).mem = s.mem := rfl
@[simp] theorem logErr_anyMem : (logErr e s).anyMem = s.anyMem := rfl
@[simp] theorem logErr_accessLog : (logErr e s).accessLog = s.accessLog := rfl
@[simp] theorem logErr_baseIndex : (logErr e s).baseIndex = s.baseIndex := rfl
@[simp] theorem logErr_absent : (logErr e s).absent = s.absent := rfl
@[simp] theorem logErr_devices : (logErr e s).devices = s.devices := rfl
@[simp] theorem logErr_inbox : (logErr e s).inbox = s.inbox := rfl
@[simp] theorem logErr_turns : (logErr e s).turns = s.turns := rfl
@[simp] theorem logErr_busData : (logErr e s).busData = s.busData := rfl
@[simp] theorem logErr_loadData : (logErr e s).loadData = s.loadData := rfl
@[simp] theorem logErr_draws : (logErr e s).draws = s.draws := rfl
end logErr

section draw
variable (n : Nat) (s : State)
@[simp] theorem draw_session : (draw n s).session = s.session := rfl
@[simp] theorem draw_err : (draw n s).err = s.err := rfl
@[simp] theorem draw_backend : (draw n s).backend = s.backend := rfl
@[simp] theorem draw_lock : (draw n s).lock = s.lock := rfl
@[simp] theorem draw_ch0Owned : (draw n s).ch0Owned = s.ch0Owned := rfl
@[simp] theorem draw_ch1Owned : (draw n s).ch1Owned = s.ch1Owned := rfl
@[simp] theorem draw_dir : (draw n s).dir = s.dir := rfl
@[simp] theorem draw_ctrExh : (draw n s).ctrExh = s.ctrExh := rfl
@[simp] theorem draw_ctr : (draw n s).ctr = s.ctr := rfl
@[simp] theorem draw_errlog : (draw n s).errlog = s.errlog := rfl
@[simp] theorem draw_aadBytes : (draw n s).aadBytes = s.aadBytes := rfl
@[simp] theorem draw_payloadBytes : (draw n s).payloadBytes = s.payloadBytes := rfl
@[simp] theorem draw_tag0 : (draw n s).tag0 = s.tag0 := rfl
@[simp] theorem draw_tag1 : (draw n s).tag1 = s.tag1 := rfl
@[simp] theorem draw_tag2 : (draw n s).tag2 = s.tag2 := rfl
@[simp] theorem draw_tag3 : (draw n s).tag3 = s.tag3 := rfl
@[simp] theorem draw_tagAny : (draw n s).tagAny = s.tagAny := rfl
@[simp] theorem draw_args : (draw n s).args = s.args := rfl
@[simp] theorem draw_argsHeld : (draw n s).argsHeld = s.argsHeld := rfl
@[simp] theorem draw_key : (draw n s).key = s.key := rfl
@[simp] theorem draw_nonce : (draw n s).nonce = s.nonce := rfl
@[simp] theorem draw_polyR : (draw n s).polyR = s.polyR := rfl
@[simp] theorem draw_polyS : (draw n s).polyS = s.polyS := rfl
@[simp] theorem draw_acc : (draw n s).acc = s.acc := rfl
@[simp] theorem draw_ctxHeld : (draw n s).ctxHeld = s.ctxHeld := rfl
@[simp] theorem draw_accAny : (draw n s).accAny = s.accAny := rfl
@[simp] theorem draw_job : (draw n s).job = s.job := rfl
@[simp] theorem draw_mem : (draw n s).mem = s.mem := rfl
@[simp] theorem draw_anyMem : (draw n s).anyMem = s.anyMem := rfl
@[simp] theorem draw_accessLog : (draw n s).accessLog = s.accessLog := rfl
@[simp] theorem draw_baseIndex : (draw n s).baseIndex = s.baseIndex := rfl
@[simp] theorem draw_absent : (draw n s).absent = s.absent := rfl
@[simp] theorem draw_devices : (draw n s).devices = s.devices := rfl
@[simp] theorem draw_inbox : (draw n s).inbox = s.inbox := rfl
@[simp] theorem draw_turns : (draw n s).turns = s.turns := rfl
@[simp] theorem draw_busData : (draw n s).busData = s.busData := rfl
@[simp] theorem draw_loadData : (draw n s).loadData = s.loadData := rfl
@[simp] theorem draw_draws : (draw n s).draws = s.draws + n := rfl
end draw

section markRanges
variable (rs : List Region) (s : State)
@[simp] theorem markRanges_session : (markRanges rs s).session = s.session := rfl
@[simp] theorem markRanges_err : (markRanges rs s).err = s.err := rfl
@[simp] theorem markRanges_backend : (markRanges rs s).backend = s.backend := rfl
@[simp] theorem markRanges_lock : (markRanges rs s).lock = s.lock := rfl
@[simp] theorem markRanges_ch0Owned : (markRanges rs s).ch0Owned = s.ch0Owned := rfl
@[simp] theorem markRanges_ch1Owned : (markRanges rs s).ch1Owned = s.ch1Owned := rfl
@[simp] theorem markRanges_dir : (markRanges rs s).dir = s.dir := rfl
@[simp] theorem markRanges_ctrExh : (markRanges rs s).ctrExh = s.ctrExh := rfl
@[simp] theorem markRanges_ctr : (markRanges rs s).ctr = s.ctr := rfl
@[simp] theorem markRanges_errlog : (markRanges rs s).errlog = s.errlog := rfl
@[simp] theorem markRanges_aadBytes : (markRanges rs s).aadBytes = s.aadBytes := rfl
@[simp] theorem markRanges_payloadBytes : (markRanges rs s).payloadBytes = s.payloadBytes := rfl
@[simp] theorem markRanges_tag0 : (markRanges rs s).tag0 = s.tag0 := rfl
@[simp] theorem markRanges_tag1 : (markRanges rs s).tag1 = s.tag1 := rfl
@[simp] theorem markRanges_tag2 : (markRanges rs s).tag2 = s.tag2 := rfl
@[simp] theorem markRanges_tag3 : (markRanges rs s).tag3 = s.tag3 := rfl
@[simp] theorem markRanges_tagAny : (markRanges rs s).tagAny = s.tagAny := rfl
@[simp] theorem markRanges_args : (markRanges rs s).args = s.args := rfl
@[simp] theorem markRanges_argsHeld : (markRanges rs s).argsHeld = s.argsHeld := rfl
@[simp] theorem markRanges_key : (markRanges rs s).key = s.key := rfl
@[simp] theorem markRanges_nonce : (markRanges rs s).nonce = s.nonce := rfl
@[simp] theorem markRanges_polyR : (markRanges rs s).polyR = s.polyR := rfl
@[simp] theorem markRanges_polyS : (markRanges rs s).polyS = s.polyS := rfl
@[simp] theorem markRanges_acc : (markRanges rs s).acc = s.acc := rfl
@[simp] theorem markRanges_ctxHeld : (markRanges rs s).ctxHeld = s.ctxHeld := rfl
@[simp] theorem markRanges_accAny : (markRanges rs s).accAny = s.accAny := rfl
@[simp] theorem markRanges_job : (markRanges rs s).job = s.job := rfl
@[simp] theorem markRanges_mem : (markRanges rs s).mem = s.mem := rfl
@[simp] theorem markRanges_anyMem : (markRanges rs s).anyMem = rs.foldl (fun l r => markAny l r.base r.size) s.anyMem := rfl
@[simp] theorem markRanges_accessLog : (markRanges rs s).accessLog = s.accessLog := rfl
@[simp] theorem markRanges_baseIndex : (markRanges rs s).baseIndex = s.baseIndex := rfl
@[simp] theorem markRanges_absent : (markRanges rs s).absent = s.absent := rfl
@[simp] theorem markRanges_devices : (markRanges rs s).devices = s.devices := rfl
@[simp] theorem markRanges_inbox : (markRanges rs s).inbox = s.inbox := rfl
@[simp] theorem markRanges_turns : (markRanges rs s).turns = s.turns := rfl
@[simp] theorem markRanges_busData : (markRanges rs s).busData = s.busData := rfl
@[simp] theorem markRanges_loadData : (markRanges rs s).loadData = s.loadData := rfl
@[simp] theorem markRanges_draws : (markRanges rs s).draws = s.draws := rfl
end markRanges

section wipeContext
variable (s : State)
@[simp] theorem wipeContext_session : (wipeContext s).session = s.session := rfl
@[simp] theorem wipeContext_err : (wipeContext s).err = s.err := rfl
@[simp] theorem wipeContext_backend : (wipeContext s).backend = s.backend := rfl
@[simp] theorem wipeContext_lock : (wipeContext s).lock = s.lock := rfl
@[simp] theorem wipeContext_ch0Owned : (wipeContext s).ch0Owned = s.ch0Owned := rfl
@[simp] theorem wipeContext_ch1Owned : (wipeContext s).ch1Owned = s.ch1Owned := rfl
@[simp] theorem wipeContext_dir : (wipeContext s).dir = s.dir := rfl
@[simp] theorem wipeContext_ctrExh : (wipeContext s).ctrExh = s.ctrExh := rfl
@[simp] theorem wipeContext_ctr : (wipeContext s).ctr = s.ctr := rfl
@[simp] theorem wipeContext_errlog : (wipeContext s).errlog = s.errlog := rfl
@[simp] theorem wipeContext_aadBytes : (wipeContext s).aadBytes = s.aadBytes := rfl
@[simp] theorem wipeContext_payloadBytes : (wipeContext s).payloadBytes = s.payloadBytes := rfl
@[simp] theorem wipeContext_tag0 : (wipeContext s).tag0 = s.tag0 := rfl
@[simp] theorem wipeContext_tag1 : (wipeContext s).tag1 = s.tag1 := rfl
@[simp] theorem wipeContext_tag2 : (wipeContext s).tag2 = s.tag2 := rfl
@[simp] theorem wipeContext_tag3 : (wipeContext s).tag3 = s.tag3 := rfl
@[simp] theorem wipeContext_tagAny : (wipeContext s).tagAny = s.tagAny := rfl
@[simp] theorem wipeContext_args : (wipeContext s).args = s.args := rfl
@[simp] theorem wipeContext_argsHeld : (wipeContext s).argsHeld = s.argsHeld := rfl
@[simp] theorem wipeContext_key : (wipeContext s).key = 0 := rfl
@[simp] theorem wipeContext_nonce : (wipeContext s).nonce = 0 := rfl
@[simp] theorem wipeContext_polyR : (wipeContext s).polyR = 0 := rfl
@[simp] theorem wipeContext_polyS : (wipeContext s).polyS = 0 := rfl
@[simp] theorem wipeContext_acc : (wipeContext s).acc = 0 := rfl
@[simp] theorem wipeContext_ctxHeld : (wipeContext s).ctxHeld = false := rfl
@[simp] theorem wipeContext_accAny : (wipeContext s).accAny = false := rfl
@[simp] theorem wipeContext_job : (wipeContext s).job = s.job := rfl
@[simp] theorem wipeContext_mem : (wipeContext s).mem = s.mem := rfl
@[simp] theorem wipeContext_anyMem : (wipeContext s).anyMem = s.anyMem := rfl
@[simp] theorem wipeContext_accessLog : (wipeContext s).accessLog = s.accessLog := rfl
@[simp] theorem wipeContext_baseIndex : (wipeContext s).baseIndex = s.baseIndex := rfl
@[simp] theorem wipeContext_absent : (wipeContext s).absent = s.absent := rfl
@[simp] theorem wipeContext_devices : (wipeContext s).devices = s.devices := rfl
@[simp] theorem wipeContext_inbox : (wipeContext s).inbox = s.inbox := rfl
@[simp] theorem wipeContext_turns : (wipeContext s).turns = s.turns := rfl
@[simp] theorem wipeContext_busData : (wipeContext s).busData = s.busData := rfl
@[simp] theorem wipeContext_loadData : (wipeContext s).loadData = s.loadData := rfl
@[simp] theorem wipeContext_draws : (wipeContext s).draws = s.draws := rfl
end wipeContext

section writeTag
variable (t : BitVec 128) (s : State)
@[simp] theorem writeTag_session : (writeTag t s).session = s.session := rfl
@[simp] theorem writeTag_err : (writeTag t s).err = s.err := rfl
@[simp] theorem writeTag_backend : (writeTag t s).backend = s.backend := rfl
@[simp] theorem writeTag_lock : (writeTag t s).lock = s.lock := rfl
@[simp] theorem writeTag_ch0Owned : (writeTag t s).ch0Owned = s.ch0Owned := rfl
@[simp] theorem writeTag_ch1Owned : (writeTag t s).ch1Owned = s.ch1Owned := rfl
@[simp] theorem writeTag_dir : (writeTag t s).dir = s.dir := rfl
@[simp] theorem writeTag_ctrExh : (writeTag t s).ctrExh = s.ctrExh := rfl
@[simp] theorem writeTag_ctr : (writeTag t s).ctr = s.ctr := rfl
@[simp] theorem writeTag_errlog : (writeTag t s).errlog = s.errlog := rfl
@[simp] theorem writeTag_aadBytes : (writeTag t s).aadBytes = s.aadBytes := rfl
@[simp] theorem writeTag_payloadBytes : (writeTag t s).payloadBytes = s.payloadBytes := rfl
@[simp] theorem writeTag_tag0 : (writeTag t s).tag0 = wordAt t 0 := rfl
@[simp] theorem writeTag_tag1 : (writeTag t s).tag1 = wordAt t 1 := rfl
@[simp] theorem writeTag_tag2 : (writeTag t s).tag2 = wordAt t 2 := rfl
@[simp] theorem writeTag_tag3 : (writeTag t s).tag3 = wordAt t 3 := rfl
@[simp] theorem writeTag_tagAny : (writeTag t s).tagAny = false := rfl
@[simp] theorem writeTag_args : (writeTag t s).args = s.args := rfl
@[simp] theorem writeTag_argsHeld : (writeTag t s).argsHeld = s.argsHeld := rfl
@[simp] theorem writeTag_key : (writeTag t s).key = s.key := rfl
@[simp] theorem writeTag_nonce : (writeTag t s).nonce = s.nonce := rfl
@[simp] theorem writeTag_polyR : (writeTag t s).polyR = s.polyR := rfl
@[simp] theorem writeTag_polyS : (writeTag t s).polyS = s.polyS := rfl
@[simp] theorem writeTag_acc : (writeTag t s).acc = s.acc := rfl
@[simp] theorem writeTag_ctxHeld : (writeTag t s).ctxHeld = s.ctxHeld := rfl
@[simp] theorem writeTag_accAny : (writeTag t s).accAny = s.accAny := rfl
@[simp] theorem writeTag_job : (writeTag t s).job = s.job := rfl
@[simp] theorem writeTag_mem : (writeTag t s).mem = s.mem := rfl
@[simp] theorem writeTag_anyMem : (writeTag t s).anyMem = s.anyMem := rfl
@[simp] theorem writeTag_accessLog : (writeTag t s).accessLog = s.accessLog := rfl
@[simp] theorem writeTag_baseIndex : (writeTag t s).baseIndex = s.baseIndex := rfl
@[simp] theorem writeTag_absent : (writeTag t s).absent = s.absent := rfl
@[simp] theorem writeTag_devices : (writeTag t s).devices = s.devices := rfl
@[simp] theorem writeTag_inbox : (writeTag t s).inbox = s.inbox := rfl
@[simp] theorem writeTag_turns : (writeTag t s).turns = s.turns := rfl
@[simp] theorem writeTag_busData : (writeTag t s).busData = s.busData := rfl
@[simp] theorem writeTag_loadData : (writeTag t s).loadData = s.loadData := rfl
@[simp] theorem writeTag_draws : (writeTag t s).draws = s.draws := rfl
end writeTag

section loadContext
variable (k : BitVec 256) (n : BitVec 96) (s : State)
@[simp] theorem loadContext_session : (loadContext k n s).session = s.session := rfl
@[simp] theorem loadContext_err : (loadContext k n s).err = s.err := rfl
@[simp] theorem loadContext_backend : (loadContext k n s).backend = s.backend := rfl
@[simp] theorem loadContext_lock : (loadContext k n s).lock = s.lock := rfl
@[simp] theorem loadContext_ch0Owned : (loadContext k n s).ch0Owned = s.ch0Owned := rfl
@[simp] theorem loadContext_ch1Owned : (loadContext k n s).ch1Owned = s.ch1Owned := rfl
@[simp] theorem loadContext_dir : (loadContext k n s).dir = s.dir := rfl
@[simp] theorem loadContext_ctrExh : (loadContext k n s).ctrExh = s.ctrExh := rfl
@[simp] theorem loadContext_ctr : (loadContext k n s).ctr = s.ctr := rfl
@[simp] theorem loadContext_errlog : (loadContext k n s).errlog = s.errlog := rfl
@[simp] theorem loadContext_aadBytes : (loadContext k n s).aadBytes = s.aadBytes := rfl
@[simp] theorem loadContext_payloadBytes : (loadContext k n s).payloadBytes = s.payloadBytes := rfl
@[simp] theorem loadContext_tag0 : (loadContext k n s).tag0 = s.tag0 := rfl
@[simp] theorem loadContext_tag1 : (loadContext k n s).tag1 = s.tag1 := rfl
@[simp] theorem loadContext_tag2 : (loadContext k n s).tag2 = s.tag2 := rfl
@[simp] theorem loadContext_tag3 : (loadContext k n s).tag3 = s.tag3 := rfl
@[simp] theorem loadContext_tagAny : (loadContext k n s).tagAny = s.tagAny := rfl
@[simp] theorem loadContext_args : (loadContext k n s).args = s.args := rfl
@[simp] theorem loadContext_argsHeld : (loadContext k n s).argsHeld = s.argsHeld := rfl
@[simp] theorem loadContext_key : (loadContext k n s).key = k := rfl
@[simp] theorem loadContext_nonce : (loadContext k n s).nonce = n := rfl
@[simp] theorem loadContext_polyR : (loadContext k n s).polyR = polyKeyR k n := rfl
@[simp] theorem loadContext_polyS : (loadContext k n s).polyS = polyKeyS k n := rfl
@[simp] theorem loadContext_acc : (loadContext k n s).acc = 0 := rfl
@[simp] theorem loadContext_ctxHeld : (loadContext k n s).ctxHeld = true := rfl
@[simp] theorem loadContext_accAny : (loadContext k n s).accAny = false := rfl
@[simp] theorem loadContext_job : (loadContext k n s).job = s.job := rfl
@[simp] theorem loadContext_mem : (loadContext k n s).mem = s.mem := rfl
@[simp] theorem loadContext_anyMem : (loadContext k n s).anyMem = s.anyMem := rfl
@[simp] theorem loadContext_accessLog : (loadContext k n s).accessLog = s.accessLog := rfl
@[simp] theorem loadContext_baseIndex : (loadContext k n s).baseIndex = s.baseIndex := rfl
@[simp] theorem loadContext_absent : (loadContext k n s).absent = s.absent := rfl
@[simp] theorem loadContext_devices : (loadContext k n s).devices = s.devices := rfl
@[simp] theorem loadContext_inbox : (loadContext k n s).inbox = s.inbox := rfl
@[simp] theorem loadContext_turns : (loadContext k n s).turns = s.turns := rfl
@[simp] theorem loadContext_busData : (loadContext k n s).busData = s.busData := rfl
@[simp] theorem loadContext_loadData : (loadContext k n s).loadData = s.loadData := rfl
@[simp] theorem loadContext_draws : (loadContext k n s).draws = s.draws := rfl
end loadContext

section startJob
variable (c : Command) (s : State)
@[simp] theorem startJob_session : (startJob c s).session = s.session := rfl
@[simp] theorem startJob_err : (startJob c s).err = s.err := rfl
@[simp] theorem startJob_backend : (startJob c s).backend = s.backend := rfl
@[simp] theorem startJob_lock : (startJob c s).lock = s.lock := rfl
@[simp] theorem startJob_ch0Owned : (startJob c s).ch0Owned = s.ch0Owned := rfl
@[simp] theorem startJob_ch1Owned : (startJob c s).ch1Owned = s.ch1Owned := rfl
@[simp] theorem startJob_dir : (startJob c s).dir = s.dir := rfl
@[simp] theorem startJob_ctrExh : (startJob c s).ctrExh = s.ctrExh := rfl
@[simp] theorem startJob_ctr : (startJob c s).ctr = s.ctr := rfl
@[simp] theorem startJob_errlog : (startJob c s).errlog = s.errlog := rfl
@[simp] theorem startJob_aadBytes : (startJob c s).aadBytes = s.aadBytes := rfl
@[simp] theorem startJob_payloadBytes : (startJob c s).payloadBytes = s.payloadBytes := rfl
@[simp] theorem startJob_tag0 : (startJob c s).tag0 = s.tag0 := rfl
@[simp] theorem startJob_tag1 : (startJob c s).tag1 = s.tag1 := rfl
@[simp] theorem startJob_tag2 : (startJob c s).tag2 = s.tag2 := rfl
@[simp] theorem startJob_tag3 : (startJob c s).tag3 = s.tag3 := rfl
@[simp] theorem startJob_tagAny : (startJob c s).tagAny = s.tagAny := rfl
@[simp] theorem startJob_args : (startJob c s).args = s.args := rfl
@[simp] theorem startJob_argsHeld : (startJob c s).argsHeld = s.argsHeld := rfl
@[simp] theorem startJob_key : (startJob c s).key = s.key := rfl
@[simp] theorem startJob_nonce : (startJob c s).nonce = s.nonce := rfl
@[simp] theorem startJob_polyR : (startJob c s).polyR = s.polyR := rfl
@[simp] theorem startJob_polyS : (startJob c s).polyS = s.polyS := rfl
@[simp] theorem startJob_acc : (startJob c s).acc = s.acc := rfl
@[simp] theorem startJob_ctxHeld : (startJob c s).ctxHeld = s.ctxHeld := rfl
@[simp] theorem startJob_accAny : (startJob c s).accAny = s.accAny := rfl
@[simp] theorem startJob_job : (startJob c s).job = some { cmd := c, raced := false } := rfl
@[simp] theorem startJob_mem : (startJob c s).mem = s.mem := rfl
@[simp] theorem startJob_anyMem : (startJob c s).anyMem = s.anyMem := rfl
@[simp] theorem startJob_accessLog : (startJob c s).accessLog = s.accessLog := rfl
@[simp] theorem startJob_baseIndex : (startJob c s).baseIndex = s.baseIndex := rfl
@[simp] theorem startJob_absent : (startJob c s).absent = s.absent := rfl
@[simp] theorem startJob_devices : (startJob c s).devices = s.devices := rfl
@[simp] theorem startJob_inbox : (startJob c s).inbox = s.inbox := rfl
@[simp] theorem startJob_turns : (startJob c s).turns = s.turns := rfl
@[simp] theorem startJob_busData : (startJob c s).busData = s.busData := rfl
@[simp] theorem startJob_loadData : (startJob c s).loadData = s.loadData := rfl
@[simp] theorem startJob_draws : (startJob c s).draws = s.draws := rfl
end startJob

section countBlock
variable (k : Nat) (s : State)
@[simp] theorem countBlock_session : (countBlock k s).session = s.session := rfl
@[simp] theorem countBlock_err : (countBlock k s).err = s.err := rfl
@[simp] theorem countBlock_backend : (countBlock k s).backend = s.backend := rfl
@[simp] theorem countBlock_lock : (countBlock k s).lock = s.lock := rfl
@[simp] theorem countBlock_ch0Owned : (countBlock k s).ch0Owned = s.ch0Owned := rfl
@[simp] theorem countBlock_ch1Owned : (countBlock k s).ch1Owned = s.ch1Owned := rfl
@[simp] theorem countBlock_dir : (countBlock k s).dir = s.dir := rfl
@[simp] theorem countBlock_ctrExh : (countBlock k s).ctrExh = (s.ctrExh || s.ctr == 0xFFFFFFFF) := rfl
@[simp] theorem countBlock_ctr : (countBlock k s).ctr = s.ctr + 1 := rfl
@[simp] theorem countBlock_errlog : (countBlock k s).errlog = s.errlog := rfl
@[simp] theorem countBlock_aadBytes : (countBlock k s).aadBytes = s.aadBytes := rfl
@[simp] theorem countBlock_payloadBytes : (countBlock k s).payloadBytes = s.payloadBytes + BitVec.ofNat 64 k := rfl
@[simp] theorem countBlock_tag0 : (countBlock k s).tag0 = s.tag0 := rfl
@[simp] theorem countBlock_tag1 : (countBlock k s).tag1 = s.tag1 := rfl
@[simp] theorem countBlock_tag2 : (countBlock k s).tag2 = s.tag2 := rfl
@[simp] theorem countBlock_tag3 : (countBlock k s).tag3 = s.tag3 := rfl
@[simp] theorem countBlock_tagAny : (countBlock k s).tagAny = s.tagAny := rfl
@[simp] theorem countBlock_args : (countBlock k s).args = s.args := rfl
@[simp] theorem countBlock_argsHeld : (countBlock k s).argsHeld = s.argsHeld := rfl
@[simp] theorem countBlock_key : (countBlock k s).key = s.key := rfl
@[simp] theorem countBlock_nonce : (countBlock k s).nonce = s.nonce := rfl
@[simp] theorem countBlock_polyR : (countBlock k s).polyR = s.polyR := rfl
@[simp] theorem countBlock_polyS : (countBlock k s).polyS = s.polyS := rfl
@[simp] theorem countBlock_acc : (countBlock k s).acc = s.acc := rfl
@[simp] theorem countBlock_ctxHeld : (countBlock k s).ctxHeld = s.ctxHeld := rfl
@[simp] theorem countBlock_accAny : (countBlock k s).accAny = s.accAny := rfl
@[simp] theorem countBlock_job : (countBlock k s).job = s.job := rfl
@[simp] theorem countBlock_mem : (countBlock k s).mem = s.mem := rfl
@[simp] theorem countBlock_anyMem : (countBlock k s).anyMem = s.anyMem := rfl
@[simp] theorem countBlock_accessLog : (countBlock k s).accessLog = s.accessLog := rfl
@[simp] theorem countBlock_baseIndex : (countBlock k s).baseIndex = s.baseIndex := rfl
@[simp] theorem countBlock_absent : (countBlock k s).absent = s.absent := rfl
@[simp] theorem countBlock_devices : (countBlock k s).devices = s.devices := rfl
@[simp] theorem countBlock_inbox : (countBlock k s).inbox = s.inbox := rfl
@[simp] theorem countBlock_turns : (countBlock k s).turns = s.turns := rfl
@[simp] theorem countBlock_busData : (countBlock k s).busData = s.busData := rfl
@[simp] theorem countBlock_loadData : (countBlock k s).loadData = s.loadData := rfl
@[simp] theorem countBlock_draws : (countBlock k s).draws = s.draws := rfl
end countBlock

section absorb
variable (d : List Byte) (s : State)
@[simp] theorem absorb_session : (absorb d s).session = s.session := rfl
@[simp] theorem absorb_err : (absorb d s).err = s.err := rfl
@[simp] theorem absorb_backend : (absorb d s).backend = s.backend := rfl
@[simp] theorem absorb_lock : (absorb d s).lock = s.lock := rfl
@[simp] theorem absorb_ch0Owned : (absorb d s).ch0Owned = s.ch0Owned := rfl
@[simp] theorem absorb_ch1Owned : (absorb d s).ch1Owned = s.ch1Owned := rfl
@[simp] theorem absorb_dir : (absorb d s).dir = s.dir := rfl
@[simp] theorem absorb_ctrExh : (absorb d s).ctrExh = s.ctrExh := rfl
@[simp] theorem absorb_ctr : (absorb d s).ctr = s.ctr := rfl
@[simp] theorem absorb_errlog : (absorb d s).errlog = s.errlog := rfl
@[simp] theorem absorb_aadBytes : (absorb d s).aadBytes = s.aadBytes := rfl
@[simp] theorem absorb_payloadBytes : (absorb d s).payloadBytes = s.payloadBytes := rfl
@[simp] theorem absorb_tag0 : (absorb d s).tag0 = s.tag0 := rfl
@[simp] theorem absorb_tag1 : (absorb d s).tag1 = s.tag1 := rfl
@[simp] theorem absorb_tag2 : (absorb d s).tag2 = s.tag2 := rfl
@[simp] theorem absorb_tag3 : (absorb d s).tag3 = s.tag3 := rfl
@[simp] theorem absorb_tagAny : (absorb d s).tagAny = s.tagAny := rfl
@[simp] theorem absorb_args : (absorb d s).args = s.args := rfl
@[simp] theorem absorb_argsHeld : (absorb d s).argsHeld = s.argsHeld := rfl
@[simp] theorem absorb_key : (absorb d s).key = s.key := rfl
@[simp] theorem absorb_nonce : (absorb d s).nonce = s.nonce := rfl
@[simp] theorem absorb_polyR : (absorb d s).polyR = s.polyR := rfl
@[simp] theorem absorb_polyS : (absorb d s).polyS = s.polyS := rfl
@[simp] theorem absorb_acc : (absorb d s).acc = polyAbsorbPadded s.polyR s.acc d := rfl
@[simp] theorem absorb_ctxHeld : (absorb d s).ctxHeld = s.ctxHeld := rfl
@[simp] theorem absorb_accAny : (absorb d s).accAny = s.accAny := rfl
@[simp] theorem absorb_job : (absorb d s).job = s.job := rfl
@[simp] theorem absorb_mem : (absorb d s).mem = s.mem := rfl
@[simp] theorem absorb_anyMem : (absorb d s).anyMem = s.anyMem := rfl
@[simp] theorem absorb_accessLog : (absorb d s).accessLog = s.accessLog := rfl
@[simp] theorem absorb_baseIndex : (absorb d s).baseIndex = s.baseIndex := rfl
@[simp] theorem absorb_absent : (absorb d s).absent = s.absent := rfl
@[simp] theorem absorb_devices : (absorb d s).devices = s.devices := rfl
@[simp] theorem absorb_inbox : (absorb d s).inbox = s.inbox := rfl
@[simp] theorem absorb_turns : (absorb d s).turns = s.turns := rfl
@[simp] theorem absorb_busData : (absorb d s).busData = s.busData := rfl
@[simp] theorem absorb_loadData : (absorb d s).loadData = s.loadData := rfl
@[simp] theorem absorb_draws : (absorb d s).draws = s.draws := rfl
end absorb

section finishAcc
variable (s : State)
@[simp] theorem finishAcc_session : (finishAcc s).session = s.session := rfl
@[simp] theorem finishAcc_err : (finishAcc s).err = s.err := rfl
@[simp] theorem finishAcc_backend : (finishAcc s).backend = s.backend := rfl
@[simp] theorem finishAcc_lock : (finishAcc s).lock = s.lock := rfl
@[simp] theorem finishAcc_ch0Owned : (finishAcc s).ch0Owned = s.ch0Owned := rfl
@[simp] theorem finishAcc_ch1Owned : (finishAcc s).ch1Owned = s.ch1Owned := rfl
@[simp] theorem finishAcc_dir : (finishAcc s).dir = s.dir := rfl
@[simp] theorem finishAcc_ctrExh : (finishAcc s).ctrExh = s.ctrExh := rfl
@[simp] theorem finishAcc_ctr : (finishAcc s).ctr = s.ctr := rfl
@[simp] theorem finishAcc_errlog : (finishAcc s).errlog = s.errlog := rfl
@[simp] theorem finishAcc_aadBytes : (finishAcc s).aadBytes = s.aadBytes := rfl
@[simp] theorem finishAcc_payloadBytes : (finishAcc s).payloadBytes = s.payloadBytes := rfl
@[simp] theorem finishAcc_tag0 : (finishAcc s).tag0 = s.tag0 := rfl
@[simp] theorem finishAcc_tag1 : (finishAcc s).tag1 = s.tag1 := rfl
@[simp] theorem finishAcc_tag2 : (finishAcc s).tag2 = s.tag2 := rfl
@[simp] theorem finishAcc_tag3 : (finishAcc s).tag3 = s.tag3 := rfl
@[simp] theorem finishAcc_tagAny : (finishAcc s).tagAny = s.tagAny := rfl
@[simp] theorem finishAcc_args : (finishAcc s).args = s.args := rfl
@[simp] theorem finishAcc_argsHeld : (finishAcc s).argsHeld = s.argsHeld := rfl
@[simp] theorem finishAcc_key : (finishAcc s).key = s.key := rfl
@[simp] theorem finishAcc_nonce : (finishAcc s).nonce = s.nonce := rfl
@[simp] theorem finishAcc_polyR : (finishAcc s).polyR = s.polyR := rfl
@[simp] theorem finishAcc_polyS : (finishAcc s).polyS = s.polyS := rfl
@[simp] theorem finishAcc_acc : (finishAcc s).acc = finalAcc s := rfl
@[simp] theorem finishAcc_ctxHeld : (finishAcc s).ctxHeld = s.ctxHeld := rfl
@[simp] theorem finishAcc_accAny : (finishAcc s).accAny = s.accAny := rfl
@[simp] theorem finishAcc_job : (finishAcc s).job = s.job := rfl
@[simp] theorem finishAcc_mem : (finishAcc s).mem = s.mem := rfl
@[simp] theorem finishAcc_anyMem : (finishAcc s).anyMem = s.anyMem := rfl
@[simp] theorem finishAcc_accessLog : (finishAcc s).accessLog = s.accessLog := rfl
@[simp] theorem finishAcc_baseIndex : (finishAcc s).baseIndex = s.baseIndex := rfl
@[simp] theorem finishAcc_absent : (finishAcc s).absent = s.absent := rfl
@[simp] theorem finishAcc_devices : (finishAcc s).devices = s.devices := rfl
@[simp] theorem finishAcc_inbox : (finishAcc s).inbox = s.inbox := rfl
@[simp] theorem finishAcc_turns : (finishAcc s).turns = s.turns := rfl
@[simp] theorem finishAcc_busData : (finishAcc s).busData = s.busData := rfl
@[simp] theorem finishAcc_loadData : (finishAcc s).loadData = s.loadData := rfl
@[simp] theorem finishAcc_draws : (finishAcc s).draws = if s.accAny then s.draws + 1 else s.draws := rfl
end finishAcc

section writeArg
variable (i : Fin 16) (v : Word) (s : State)
@[simp] theorem writeArg_session : (writeArg i v s).session = s.session := rfl
@[simp] theorem writeArg_err : (writeArg i v s).err = s.err := rfl
@[simp] theorem writeArg_backend : (writeArg i v s).backend = s.backend := rfl
@[simp] theorem writeArg_lock : (writeArg i v s).lock = s.lock := rfl
@[simp] theorem writeArg_ch0Owned : (writeArg i v s).ch0Owned = s.ch0Owned := rfl
@[simp] theorem writeArg_ch1Owned : (writeArg i v s).ch1Owned = s.ch1Owned := rfl
@[simp] theorem writeArg_dir : (writeArg i v s).dir = s.dir := rfl
@[simp] theorem writeArg_ctrExh : (writeArg i v s).ctrExh = s.ctrExh := rfl
@[simp] theorem writeArg_ctr : (writeArg i v s).ctr = s.ctr := rfl
@[simp] theorem writeArg_errlog : (writeArg i v s).errlog = s.errlog := rfl
@[simp] theorem writeArg_aadBytes : (writeArg i v s).aadBytes = s.aadBytes := rfl
@[simp] theorem writeArg_payloadBytes : (writeArg i v s).payloadBytes = s.payloadBytes := rfl
@[simp] theorem writeArg_tag0 : (writeArg i v s).tag0 = s.tag0 := rfl
@[simp] theorem writeArg_tag1 : (writeArg i v s).tag1 = s.tag1 := rfl
@[simp] theorem writeArg_tag2 : (writeArg i v s).tag2 = s.tag2 := rfl
@[simp] theorem writeArg_tag3 : (writeArg i v s).tag3 = s.tag3 := rfl
@[simp] theorem writeArg_tagAny : (writeArg i v s).tagAny = s.tagAny := rfl
@[simp] theorem writeArg_args : (writeArg i v s).args = s.args.set i v := rfl
@[simp] theorem writeArg_argsHeld : (writeArg i v s).argsHeld = s.argsHeld.set i true := rfl
@[simp] theorem writeArg_key : (writeArg i v s).key = s.key := rfl
@[simp] theorem writeArg_nonce : (writeArg i v s).nonce = s.nonce := rfl
@[simp] theorem writeArg_polyR : (writeArg i v s).polyR = s.polyR := rfl
@[simp] theorem writeArg_polyS : (writeArg i v s).polyS = s.polyS := rfl
@[simp] theorem writeArg_acc : (writeArg i v s).acc = s.acc := rfl
@[simp] theorem writeArg_ctxHeld : (writeArg i v s).ctxHeld = s.ctxHeld := rfl
@[simp] theorem writeArg_accAny : (writeArg i v s).accAny = s.accAny := rfl
@[simp] theorem writeArg_job : (writeArg i v s).job = s.job := rfl
@[simp] theorem writeArg_mem : (writeArg i v s).mem = s.mem := rfl
@[simp] theorem writeArg_anyMem : (writeArg i v s).anyMem = s.anyMem := rfl
@[simp] theorem writeArg_accessLog : (writeArg i v s).accessLog = s.accessLog := rfl
@[simp] theorem writeArg_baseIndex : (writeArg i v s).baseIndex = s.baseIndex := rfl
@[simp] theorem writeArg_absent : (writeArg i v s).absent = s.absent := rfl
@[simp] theorem writeArg_devices : (writeArg i v s).devices = s.devices := rfl
@[simp] theorem writeArg_inbox : (writeArg i v s).inbox = s.inbox := rfl
@[simp] theorem writeArg_turns : (writeArg i v s).turns = s.turns := rfl
@[simp] theorem writeArg_busData : (writeArg i v s).busData = s.busData := rfl
@[simp] theorem writeArg_loadData : (writeArg i v s).loadData = s.loadData := rfl
@[simp] theorem writeArg_draws : (writeArg i v s).draws = s.draws := rfl
end writeArg

section returnWord
variable (v : Word) (a : Bool) (s : State)
@[simp] theorem returnWord_session : (returnWord v a s).session = s.session := rfl
@[simp] theorem returnWord_err : (returnWord v a s).err = s.err := rfl
@[simp] theorem returnWord_backend : (returnWord v a s).backend = s.backend := rfl
@[simp] theorem returnWord_lock : (returnWord v a s).lock = s.lock := rfl
@[simp] theorem returnWord_ch0Owned : (returnWord v a s).ch0Owned = s.ch0Owned := rfl
@[simp] theorem returnWord_ch1Owned : (returnWord v a s).ch1Owned = s.ch1Owned := rfl
@[simp] theorem returnWord_dir : (returnWord v a s).dir = s.dir := rfl
@[simp] theorem returnWord_ctrExh : (returnWord v a s).ctrExh = s.ctrExh := rfl
@[simp] theorem returnWord_ctr : (returnWord v a s).ctr = s.ctr := rfl
@[simp] theorem returnWord_errlog : (returnWord v a s).errlog = s.errlog := rfl
@[simp] theorem returnWord_aadBytes : (returnWord v a s).aadBytes = s.aadBytes := rfl
@[simp] theorem returnWord_payloadBytes : (returnWord v a s).payloadBytes = s.payloadBytes := rfl
@[simp] theorem returnWord_tag0 : (returnWord v a s).tag0 = s.tag0 := rfl
@[simp] theorem returnWord_tag1 : (returnWord v a s).tag1 = s.tag1 := rfl
@[simp] theorem returnWord_tag2 : (returnWord v a s).tag2 = s.tag2 := rfl
@[simp] theorem returnWord_tag3 : (returnWord v a s).tag3 = s.tag3 := rfl
@[simp] theorem returnWord_tagAny : (returnWord v a s).tagAny = s.tagAny := rfl
@[simp] theorem returnWord_args : (returnWord v a s).args = s.args := rfl
@[simp] theorem returnWord_argsHeld : (returnWord v a s).argsHeld = s.argsHeld := rfl
@[simp] theorem returnWord_key : (returnWord v a s).key = s.key := rfl
@[simp] theorem returnWord_nonce : (returnWord v a s).nonce = s.nonce := rfl
@[simp] theorem returnWord_polyR : (returnWord v a s).polyR = s.polyR := rfl
@[simp] theorem returnWord_polyS : (returnWord v a s).polyS = s.polyS := rfl
@[simp] theorem returnWord_acc : (returnWord v a s).acc = s.acc := rfl
@[simp] theorem returnWord_ctxHeld : (returnWord v a s).ctxHeld = s.ctxHeld := rfl
@[simp] theorem returnWord_accAny : (returnWord v a s).accAny = s.accAny := rfl
@[simp] theorem returnWord_job : (returnWord v a s).job = s.job := rfl
@[simp] theorem returnWord_mem : (returnWord v a s).mem = s.mem := rfl
@[simp] theorem returnWord_anyMem : (returnWord v a s).anyMem = s.anyMem := rfl
@[simp] theorem returnWord_accessLog : (returnWord v a s).accessLog = s.accessLog := rfl
@[simp] theorem returnWord_baseIndex : (returnWord v a s).baseIndex = s.baseIndex := rfl
@[simp] theorem returnWord_absent : (returnWord v a s).absent = s.absent := rfl
@[simp] theorem returnWord_devices : (returnWord v a s).devices = s.devices := rfl
@[simp] theorem returnWord_inbox : (returnWord v a s).inbox = s.inbox := rfl
@[simp] theorem returnWord_turns : (returnWord v a s).turns = s.turns := rfl
@[simp] theorem returnWord_busData : (returnWord v a s).busData = v := rfl
@[simp] theorem returnWord_loadData : (returnWord v a s).loadData = s.loadData := rfl
@[simp] theorem returnWord_draws : (returnWord v a s).draws = s.draws + (if a then 1 else 0) := rfl
end returnWord

section releaseSession
variable (s : State)
@[simp] theorem releaseSession_session : (releaseSession s).session = .created := rfl
@[simp] theorem releaseSession_err : (releaseSession s).err = .ok := rfl
@[simp] theorem releaseSession_backend : (releaseSession s).backend = s.backend := rfl
@[simp] theorem releaseSession_lock : (releaseSession s).lock = s.lock := rfl
@[simp] theorem releaseSession_ch0Owned : (releaseSession s).ch0Owned = false := rfl
@[simp] theorem releaseSession_ch1Owned : (releaseSession s).ch1Owned = false := rfl
@[simp] theorem releaseSession_dir : (releaseSession s).dir = .encrypt := rfl
@[simp] theorem releaseSession_ctrExh : (releaseSession s).ctrExh = false := rfl
@[simp] theorem releaseSession_ctr : (releaseSession s).ctr = 0 := rfl
@[simp] theorem releaseSession_errlog : (releaseSession s).errlog = s.errlog := rfl
@[simp] theorem releaseSession_aadBytes : (releaseSession s).aadBytes = 0 := rfl
@[simp] theorem releaseSession_payloadBytes : (releaseSession s).payloadBytes = 0 := rfl
@[simp] theorem releaseSession_tag0 : (releaseSession s).tag0 = 0 := rfl
@[simp] theorem releaseSession_tag1 : (releaseSession s).tag1 = 0 := rfl
@[simp] theorem releaseSession_tag2 : (releaseSession s).tag2 = 0 := rfl
@[simp] theorem releaseSession_tag3 : (releaseSession s).tag3 = 0 := rfl
@[simp] theorem releaseSession_tagAny : (releaseSession s).tagAny = false := rfl
@[simp] theorem releaseSession_args : (releaseSession s).args = s.args := rfl
@[simp] theorem releaseSession_argsHeld : (releaseSession s).argsHeld = s.argsHeld := rfl
@[simp] theorem releaseSession_key : (releaseSession s).key = 0 := rfl
@[simp] theorem releaseSession_nonce : (releaseSession s).nonce = 0 := rfl
@[simp] theorem releaseSession_polyR : (releaseSession s).polyR = 0 := rfl
@[simp] theorem releaseSession_polyS : (releaseSession s).polyS = 0 := rfl
@[simp] theorem releaseSession_acc : (releaseSession s).acc = 0 := rfl
@[simp] theorem releaseSession_ctxHeld : (releaseSession s).ctxHeld = false := rfl
@[simp] theorem releaseSession_accAny : (releaseSession s).accAny = false := rfl
@[simp] theorem releaseSession_job : (releaseSession s).job = s.job := rfl
@[simp] theorem releaseSession_mem : (releaseSession s).mem = s.mem := rfl
@[simp] theorem releaseSession_anyMem : (releaseSession s).anyMem = s.anyMem := rfl
@[simp] theorem releaseSession_accessLog : (releaseSession s).accessLog = s.accessLog := rfl
@[simp] theorem releaseSession_baseIndex : (releaseSession s).baseIndex = s.baseIndex := rfl
@[simp] theorem releaseSession_absent : (releaseSession s).absent = s.absent := rfl
@[simp] theorem releaseSession_devices : (releaseSession s).devices = s.devices := rfl
@[simp] theorem releaseSession_inbox : (releaseSession s).inbox = s.inbox := rfl
@[simp] theorem releaseSession_turns : (releaseSession s).turns = s.turns := rfl
@[simp] theorem releaseSession_busData : (releaseSession s).busData = s.busData := rfl
@[simp] theorem releaseSession_loadData : (releaseSession s).loadData = s.loadData := rfl
@[simp] theorem releaseSession_draws : (releaseSession s).draws = s.draws := rfl
end releaseSession

section logAccess
variable (ag : Agent) (k : AccessKind) (a n : Nat) (s : State)
@[simp] theorem logAccess_session : (logAccess ag k a n s).session = s.session := by unfold logAccess; split <;> rfl
@[simp] theorem logAccess_err : (logAccess ag k a n s).err = s.err := by unfold logAccess; split <;> rfl
@[simp] theorem logAccess_backend : (logAccess ag k a n s).backend = s.backend := by unfold logAccess; split <;> rfl
@[simp] theorem logAccess_lock : (logAccess ag k a n s).lock = s.lock := by unfold logAccess; split <;> rfl
@[simp] theorem logAccess_ch0Owned : (logAccess ag k a n s).ch0Owned = s.ch0Owned := by unfold logAccess; split <;> rfl
@[simp] theorem logAccess_ch1Owned : (logAccess ag k a n s).ch1Owned = s.ch1Owned := by unfold logAccess; split <;> rfl
@[simp] theorem logAccess_dir : (logAccess ag k a n s).dir = s.dir := by unfold logAccess; split <;> rfl
@[simp] theorem logAccess_ctrExh : (logAccess ag k a n s).ctrExh = s.ctrExh := by unfold logAccess; split <;> rfl
@[simp] theorem logAccess_ctr : (logAccess ag k a n s).ctr = s.ctr := by unfold logAccess; split <;> rfl
@[simp] theorem logAccess_errlog : (logAccess ag k a n s).errlog = s.errlog := by unfold logAccess; split <;> rfl
@[simp] theorem logAccess_aadBytes : (logAccess ag k a n s).aadBytes = s.aadBytes := by unfold logAccess; split <;> rfl
@[simp] theorem logAccess_payloadBytes : (logAccess ag k a n s).payloadBytes = s.payloadBytes := by unfold logAccess; split <;> rfl
@[simp] theorem logAccess_tag0 : (logAccess ag k a n s).tag0 = s.tag0 := by unfold logAccess; split <;> rfl
@[simp] theorem logAccess_tag1 : (logAccess ag k a n s).tag1 = s.tag1 := by unfold logAccess; split <;> rfl
@[simp] theorem logAccess_tag2 : (logAccess ag k a n s).tag2 = s.tag2 := by unfold logAccess; split <;> rfl
@[simp] theorem logAccess_tag3 : (logAccess ag k a n s).tag3 = s.tag3 := by unfold logAccess; split <;> rfl
@[simp] theorem logAccess_tagAny : (logAccess ag k a n s).tagAny = s.tagAny := by unfold logAccess; split <;> rfl
@[simp] theorem logAccess_args : (logAccess ag k a n s).args = s.args := by unfold logAccess; split <;> rfl
@[simp] theorem logAccess_argsHeld : (logAccess ag k a n s).argsHeld = s.argsHeld := by unfold logAccess; split <;> rfl
@[simp] theorem logAccess_key : (logAccess ag k a n s).key = s.key := by unfold logAccess; split <;> rfl
@[simp] theorem logAccess_nonce : (logAccess ag k a n s).nonce = s.nonce := by unfold logAccess; split <;> rfl
@[simp] theorem logAccess_polyR : (logAccess ag k a n s).polyR = s.polyR := by unfold logAccess; split <;> rfl
@[simp] theorem logAccess_polyS : (logAccess ag k a n s).polyS = s.polyS := by unfold logAccess; split <;> rfl
@[simp] theorem logAccess_acc : (logAccess ag k a n s).acc = s.acc := by unfold logAccess; split <;> rfl
@[simp] theorem logAccess_ctxHeld : (logAccess ag k a n s).ctxHeld = s.ctxHeld := by unfold logAccess; split <;> rfl
@[simp] theorem logAccess_accAny : (logAccess ag k a n s).accAny = s.accAny := by unfold logAccess; split <;> rfl
@[simp] theorem logAccess_job : (logAccess ag k a n s).job = s.job := by unfold logAccess; split <;> rfl
@[simp] theorem logAccess_mem : (logAccess ag k a n s).mem = s.mem := by unfold logAccess; split <;> rfl
@[simp] theorem logAccess_anyMem : (logAccess ag k a n s).anyMem = s.anyMem := by unfold logAccess; split <;> rfl
@[simp] theorem logAccess_baseIndex : (logAccess ag k a n s).baseIndex = s.baseIndex := by unfold logAccess; split <;> rfl
@[simp] theorem logAccess_absent : (logAccess ag k a n s).absent = s.absent := by unfold logAccess; split <;> rfl
@[simp] theorem logAccess_devices : (logAccess ag k a n s).devices = s.devices := by unfold logAccess; split <;> rfl
@[simp] theorem logAccess_inbox : (logAccess ag k a n s).inbox = s.inbox := by unfold logAccess; split <;> rfl
@[simp] theorem logAccess_turns : (logAccess ag k a n s).turns = s.turns := by unfold logAccess; split <;> rfl
@[simp] theorem logAccess_busData : (logAccess ag k a n s).busData = s.busData := by unfold logAccess; split <;> rfl
@[simp] theorem logAccess_loadData : (logAccess ag k a n s).loadData = s.loadData := by unfold logAccess; split <;> rfl
@[simp] theorem logAccess_draws : (logAccess ag k a n s).draws = s.draws := by unfold logAccess; split <;> rfl
end logAccess

section storeBytes
variable (a : Nat) (bs : List Byte) (s : State)
@[simp] theorem storeBytes_session : (storeBytes a bs s).session = s.session := by unfold storeBytes; split <;> rfl
@[simp] theorem storeBytes_err : (storeBytes a bs s).err = s.err := by unfold storeBytes; split <;> rfl
@[simp] theorem storeBytes_backend : (storeBytes a bs s).backend = s.backend := by unfold storeBytes; split <;> rfl
@[simp] theorem storeBytes_lock : (storeBytes a bs s).lock = s.lock := by unfold storeBytes; split <;> rfl
@[simp] theorem storeBytes_ch0Owned : (storeBytes a bs s).ch0Owned = s.ch0Owned := by unfold storeBytes; split <;> rfl
@[simp] theorem storeBytes_ch1Owned : (storeBytes a bs s).ch1Owned = s.ch1Owned := by unfold storeBytes; split <;> rfl
@[simp] theorem storeBytes_dir : (storeBytes a bs s).dir = s.dir := by unfold storeBytes; split <;> rfl
@[simp] theorem storeBytes_ctrExh : (storeBytes a bs s).ctrExh = s.ctrExh := by unfold storeBytes; split <;> rfl
@[simp] theorem storeBytes_ctr : (storeBytes a bs s).ctr = s.ctr := by unfold storeBytes; split <;> rfl
@[simp] theorem storeBytes_errlog : (storeBytes a bs s).errlog = s.errlog := by unfold storeBytes; split <;> rfl
@[simp] theorem storeBytes_aadBytes : (storeBytes a bs s).aadBytes = s.aadBytes := by unfold storeBytes; split <;> rfl
@[simp] theorem storeBytes_payloadBytes : (storeBytes a bs s).payloadBytes = s.payloadBytes := by unfold storeBytes; split <;> rfl
@[simp] theorem storeBytes_tag0 : (storeBytes a bs s).tag0 = s.tag0 := by unfold storeBytes; split <;> rfl
@[simp] theorem storeBytes_tag1 : (storeBytes a bs s).tag1 = s.tag1 := by unfold storeBytes; split <;> rfl
@[simp] theorem storeBytes_tag2 : (storeBytes a bs s).tag2 = s.tag2 := by unfold storeBytes; split <;> rfl
@[simp] theorem storeBytes_tag3 : (storeBytes a bs s).tag3 = s.tag3 := by unfold storeBytes; split <;> rfl
@[simp] theorem storeBytes_tagAny : (storeBytes a bs s).tagAny = s.tagAny := by unfold storeBytes; split <;> rfl
@[simp] theorem storeBytes_args : (storeBytes a bs s).args = s.args := by unfold storeBytes; split <;> rfl
@[simp] theorem storeBytes_argsHeld : (storeBytes a bs s).argsHeld = s.argsHeld := by unfold storeBytes; split <;> rfl
@[simp] theorem storeBytes_key : (storeBytes a bs s).key = s.key := by unfold storeBytes; split <;> rfl
@[simp] theorem storeBytes_nonce : (storeBytes a bs s).nonce = s.nonce := by unfold storeBytes; split <;> rfl
@[simp] theorem storeBytes_polyR : (storeBytes a bs s).polyR = s.polyR := by unfold storeBytes; split <;> rfl
@[simp] theorem storeBytes_polyS : (storeBytes a bs s).polyS = s.polyS := by unfold storeBytes; split <;> rfl
@[simp] theorem storeBytes_acc : (storeBytes a bs s).acc = s.acc := by unfold storeBytes; split <;> rfl
@[simp] theorem storeBytes_ctxHeld : (storeBytes a bs s).ctxHeld = s.ctxHeld := by unfold storeBytes; split <;> rfl
@[simp] theorem storeBytes_accAny : (storeBytes a bs s).accAny = s.accAny := by unfold storeBytes; split <;> rfl
@[simp] theorem storeBytes_job : (storeBytes a bs s).job = s.job := by unfold storeBytes; split <;> rfl
@[simp] theorem storeBytes_accessLog : (storeBytes a bs s).accessLog = s.accessLog := by unfold storeBytes; split <;> rfl
@[simp] theorem storeBytes_baseIndex : (storeBytes a bs s).baseIndex = s.baseIndex := by unfold storeBytes; split <;> rfl
@[simp] theorem storeBytes_absent : (storeBytes a bs s).absent = s.absent := by unfold storeBytes; split <;> rfl
@[simp] theorem storeBytes_devices : (storeBytes a bs s).devices = s.devices := by unfold storeBytes; split <;> rfl
@[simp] theorem storeBytes_inbox : (storeBytes a bs s).inbox = s.inbox := by unfold storeBytes; split <;> rfl
@[simp] theorem storeBytes_turns : (storeBytes a bs s).turns = s.turns := by unfold storeBytes; split <;> rfl
@[simp] theorem storeBytes_busData : (storeBytes a bs s).busData = s.busData := by unfold storeBytes; split <;> rfl
@[simp] theorem storeBytes_loadData : (storeBytes a bs s).loadData = s.loadData := by unfold storeBytes; split <;> rfl
@[simp] theorem storeBytes_draws : (storeBytes a bs s).draws = s.draws := by unfold storeBytes; split <;> rfl
end storeBytes

section afterRead
variable (ag : Agent) (a n : Nat) (s : State)
@[simp] theorem afterRead_session : (afterRead ag a n s).session = s.session := by simp [afterRead]
@[simp] theorem afterRead_err : (afterRead ag a n s).err = s.err := by simp [afterRead]
@[simp] theorem afterRead_backend : (afterRead ag a n s).backend = s.backend := by simp [afterRead]
@[simp] theorem afterRead_lock : (afterRead ag a n s).lock = s.lock := by simp [afterRead]
@[simp] theorem afterRead_ch0Owned : (afterRead ag a n s).ch0Owned = s.ch0Owned := by simp [afterRead]
@[simp] theorem afterRead_ch1Owned : (afterRead ag a n s).ch1Owned = s.ch1Owned := by simp [afterRead]
@[simp] theorem afterRead_dir : (afterRead ag a n s).dir = s.dir := by simp [afterRead]
@[simp] theorem afterRead_ctrExh : (afterRead ag a n s).ctrExh = s.ctrExh := by simp [afterRead]
@[simp] theorem afterRead_ctr : (afterRead ag a n s).ctr = s.ctr := by simp [afterRead]
@[simp] theorem afterRead_errlog : (afterRead ag a n s).errlog = s.errlog := by simp [afterRead]
@[simp] theorem afterRead_aadBytes : (afterRead ag a n s).aadBytes = s.aadBytes := by simp [afterRead]
@[simp] theorem afterRead_payloadBytes : (afterRead ag a n s).payloadBytes = s.payloadBytes := by simp [afterRead]
@[simp] theorem afterRead_tag0 : (afterRead ag a n s).tag0 = s.tag0 := by simp [afterRead]
@[simp] theorem afterRead_tag1 : (afterRead ag a n s).tag1 = s.tag1 := by simp [afterRead]
@[simp] theorem afterRead_tag2 : (afterRead ag a n s).tag2 = s.tag2 := by simp [afterRead]
@[simp] theorem afterRead_tag3 : (afterRead ag a n s).tag3 = s.tag3 := by simp [afterRead]
@[simp] theorem afterRead_tagAny : (afterRead ag a n s).tagAny = s.tagAny := by simp [afterRead]
@[simp] theorem afterRead_args : (afterRead ag a n s).args = s.args := by simp [afterRead]
@[simp] theorem afterRead_argsHeld : (afterRead ag a n s).argsHeld = s.argsHeld := by simp [afterRead]
@[simp] theorem afterRead_key : (afterRead ag a n s).key = s.key := by simp [afterRead]
@[simp] theorem afterRead_nonce : (afterRead ag a n s).nonce = s.nonce := by simp [afterRead]
@[simp] theorem afterRead_polyR : (afterRead ag a n s).polyR = s.polyR := by simp [afterRead]
@[simp] theorem afterRead_polyS : (afterRead ag a n s).polyS = s.polyS := by simp [afterRead]
@[simp] theorem afterRead_acc : (afterRead ag a n s).acc = s.acc := by simp [afterRead]
@[simp] theorem afterRead_ctxHeld : (afterRead ag a n s).ctxHeld = s.ctxHeld := by simp [afterRead]
@[simp] theorem afterRead_accAny : (afterRead ag a n s).accAny = s.accAny := by simp [afterRead]
@[simp] theorem afterRead_job : (afterRead ag a n s).job = s.job := by simp [afterRead]
@[simp] theorem afterRead_mem : (afterRead ag a n s).mem = s.mem := by simp [afterRead]
@[simp] theorem afterRead_anyMem : (afterRead ag a n s).anyMem = s.anyMem := by simp [afterRead]
@[simp] theorem afterRead_baseIndex : (afterRead ag a n s).baseIndex = s.baseIndex := by simp [afterRead]
@[simp] theorem afterRead_absent : (afterRead ag a n s).absent = s.absent := by simp [afterRead]
@[simp] theorem afterRead_devices : (afterRead ag a n s).devices = s.devices := by simp [afterRead]
@[simp] theorem afterRead_inbox : (afterRead ag a n s).inbox = s.inbox := by simp [afterRead]
@[simp] theorem afterRead_turns : (afterRead ag a n s).turns = s.turns := by simp [afterRead]
@[simp] theorem afterRead_busData : (afterRead ag a n s).busData = s.busData := by simp [afterRead]
@[simp] theorem afterRead_loadData : (afterRead ag a n s).loadData = s.loadData := by simp [afterRead]
@[simp] theorem afterRead_draws : (afterRead ag a n s).draws = s.draws + n := by simp [afterRead]
end afterRead

section engineWrite
variable (ag : Agent) (a : Nat) (bs : List Byte) (s : State)
@[simp] theorem engineWrite_session : (engineWrite ag a bs s).session = s.session := by simp [engineWrite]
@[simp] theorem engineWrite_err : (engineWrite ag a bs s).err = s.err := by simp [engineWrite]
@[simp] theorem engineWrite_backend : (engineWrite ag a bs s).backend = s.backend := by simp [engineWrite]
@[simp] theorem engineWrite_lock : (engineWrite ag a bs s).lock = s.lock := by simp [engineWrite]
@[simp] theorem engineWrite_ch0Owned : (engineWrite ag a bs s).ch0Owned = s.ch0Owned := by simp [engineWrite]
@[simp] theorem engineWrite_ch1Owned : (engineWrite ag a bs s).ch1Owned = s.ch1Owned := by simp [engineWrite]
@[simp] theorem engineWrite_dir : (engineWrite ag a bs s).dir = s.dir := by simp [engineWrite]
@[simp] theorem engineWrite_ctrExh : (engineWrite ag a bs s).ctrExh = s.ctrExh := by simp [engineWrite]
@[simp] theorem engineWrite_ctr : (engineWrite ag a bs s).ctr = s.ctr := by simp [engineWrite]
@[simp] theorem engineWrite_errlog : (engineWrite ag a bs s).errlog = s.errlog := by simp [engineWrite]
@[simp] theorem engineWrite_aadBytes : (engineWrite ag a bs s).aadBytes = s.aadBytes := by simp [engineWrite]
@[simp] theorem engineWrite_payloadBytes : (engineWrite ag a bs s).payloadBytes = s.payloadBytes := by simp [engineWrite]
@[simp] theorem engineWrite_tag0 : (engineWrite ag a bs s).tag0 = s.tag0 := by simp [engineWrite]
@[simp] theorem engineWrite_tag1 : (engineWrite ag a bs s).tag1 = s.tag1 := by simp [engineWrite]
@[simp] theorem engineWrite_tag2 : (engineWrite ag a bs s).tag2 = s.tag2 := by simp [engineWrite]
@[simp] theorem engineWrite_tag3 : (engineWrite ag a bs s).tag3 = s.tag3 := by simp [engineWrite]
@[simp] theorem engineWrite_tagAny : (engineWrite ag a bs s).tagAny = s.tagAny := by simp [engineWrite]
@[simp] theorem engineWrite_args : (engineWrite ag a bs s).args = s.args := by simp [engineWrite]
@[simp] theorem engineWrite_argsHeld : (engineWrite ag a bs s).argsHeld = s.argsHeld := by simp [engineWrite]
@[simp] theorem engineWrite_key : (engineWrite ag a bs s).key = s.key := by simp [engineWrite]
@[simp] theorem engineWrite_nonce : (engineWrite ag a bs s).nonce = s.nonce := by simp [engineWrite]
@[simp] theorem engineWrite_polyR : (engineWrite ag a bs s).polyR = s.polyR := by simp [engineWrite]
@[simp] theorem engineWrite_polyS : (engineWrite ag a bs s).polyS = s.polyS := by simp [engineWrite]
@[simp] theorem engineWrite_acc : (engineWrite ag a bs s).acc = s.acc := by simp [engineWrite]
@[simp] theorem engineWrite_ctxHeld : (engineWrite ag a bs s).ctxHeld = s.ctxHeld := by simp [engineWrite]
@[simp] theorem engineWrite_accAny : (engineWrite ag a bs s).accAny = s.accAny := by simp [engineWrite]
@[simp] theorem engineWrite_job : (engineWrite ag a bs s).job = s.job := by simp [engineWrite]
@[simp] theorem engineWrite_baseIndex : (engineWrite ag a bs s).baseIndex = s.baseIndex := by simp [engineWrite]
@[simp] theorem engineWrite_absent : (engineWrite ag a bs s).absent = s.absent := by simp [engineWrite]
@[simp] theorem engineWrite_devices : (engineWrite ag a bs s).devices = s.devices := by simp [engineWrite]
@[simp] theorem engineWrite_inbox : (engineWrite ag a bs s).inbox = s.inbox := by simp [engineWrite]
@[simp] theorem engineWrite_turns : (engineWrite ag a bs s).turns = s.turns := by simp [engineWrite]
@[simp] theorem engineWrite_busData : (engineWrite ag a bs s).busData = s.busData := by simp [engineWrite]
@[simp] theorem engineWrite_loadData : (engineWrite ag a bs s).loadData = s.loadData := by simp [engineWrite]
@[simp] theorem engineWrite_draws : (engineWrite ag a bs s).draws = s.draws := by simp [engineWrite]
end engineWrite

section noteRace
variable (a n : Nat) (s : State)
@[simp] theorem noteRace_session : (noteRace a n s).session = s.session := by
  unfold noteRace; split
  · rfl
  · split <;> rfl
@[simp] theorem noteRace_err : (noteRace a n s).err = s.err := by
  unfold noteRace; split
  · rfl
  · split <;> rfl
@[simp] theorem noteRace_backend : (noteRace a n s).backend = s.backend := by
  unfold noteRace; split
  · rfl
  · split <;> rfl
@[simp] theorem noteRace_lock : (noteRace a n s).lock = s.lock := by
  unfold noteRace; split
  · rfl
  · split <;> rfl
@[simp] theorem noteRace_ch0Owned : (noteRace a n s).ch0Owned = s.ch0Owned := by
  unfold noteRace; split
  · rfl
  · split <;> rfl
@[simp] theorem noteRace_ch1Owned : (noteRace a n s).ch1Owned = s.ch1Owned := by
  unfold noteRace; split
  · rfl
  · split <;> rfl
@[simp] theorem noteRace_dir : (noteRace a n s).dir = s.dir := by
  unfold noteRace; split
  · rfl
  · split <;> rfl
@[simp] theorem noteRace_ctrExh : (noteRace a n s).ctrExh = s.ctrExh := by
  unfold noteRace; split
  · rfl
  · split <;> rfl
@[simp] theorem noteRace_ctr : (noteRace a n s).ctr = s.ctr := by
  unfold noteRace; split
  · rfl
  · split <;> rfl
@[simp] theorem noteRace_errlog : (noteRace a n s).errlog = s.errlog := by
  unfold noteRace; split
  · rfl
  · split <;> rfl
@[simp] theorem noteRace_aadBytes : (noteRace a n s).aadBytes = s.aadBytes := by
  unfold noteRace; split
  · rfl
  · split <;> rfl
@[simp] theorem noteRace_payloadBytes : (noteRace a n s).payloadBytes = s.payloadBytes := by
  unfold noteRace; split
  · rfl
  · split <;> rfl
@[simp] theorem noteRace_tag0 : (noteRace a n s).tag0 = s.tag0 := by
  unfold noteRace; split
  · rfl
  · split <;> rfl
@[simp] theorem noteRace_tag1 : (noteRace a n s).tag1 = s.tag1 := by
  unfold noteRace; split
  · rfl
  · split <;> rfl
@[simp] theorem noteRace_tag2 : (noteRace a n s).tag2 = s.tag2 := by
  unfold noteRace; split
  · rfl
  · split <;> rfl
@[simp] theorem noteRace_tag3 : (noteRace a n s).tag3 = s.tag3 := by
  unfold noteRace; split
  · rfl
  · split <;> rfl
@[simp] theorem noteRace_tagAny : (noteRace a n s).tagAny = s.tagAny := by
  unfold noteRace; split
  · rfl
  · split <;> rfl
@[simp] theorem noteRace_args : (noteRace a n s).args = s.args := by
  unfold noteRace; split
  · rfl
  · split <;> rfl
@[simp] theorem noteRace_argsHeld : (noteRace a n s).argsHeld = s.argsHeld := by
  unfold noteRace; split
  · rfl
  · split <;> rfl
@[simp] theorem noteRace_key : (noteRace a n s).key = s.key := by
  unfold noteRace; split
  · rfl
  · split <;> rfl
@[simp] theorem noteRace_nonce : (noteRace a n s).nonce = s.nonce := by
  unfold noteRace; split
  · rfl
  · split <;> rfl
@[simp] theorem noteRace_polyR : (noteRace a n s).polyR = s.polyR := by
  unfold noteRace; split
  · rfl
  · split <;> rfl
@[simp] theorem noteRace_polyS : (noteRace a n s).polyS = s.polyS := by
  unfold noteRace; split
  · rfl
  · split <;> rfl
@[simp] theorem noteRace_acc : (noteRace a n s).acc = s.acc := by
  unfold noteRace; split
  · rfl
  · split <;> rfl
@[simp] theorem noteRace_ctxHeld : (noteRace a n s).ctxHeld = s.ctxHeld := by
  unfold noteRace; split
  · rfl
  · split <;> rfl
@[simp] theorem noteRace_accAny : (noteRace a n s).accAny = s.accAny := by
  unfold noteRace; split
  · rfl
  · split <;> rfl
@[simp] theorem noteRace_mem : (noteRace a n s).mem = s.mem := by
  unfold noteRace; split
  · rfl
  · split <;> rfl
@[simp] theorem noteRace_anyMem : (noteRace a n s).anyMem = s.anyMem := by
  unfold noteRace; split
  · rfl
  · split <;> rfl
@[simp] theorem noteRace_accessLog : (noteRace a n s).accessLog = s.accessLog := by
  unfold noteRace; split
  · rfl
  · split <;> rfl
@[simp] theorem noteRace_baseIndex : (noteRace a n s).baseIndex = s.baseIndex := by
  unfold noteRace; split
  · rfl
  · split <;> rfl
@[simp] theorem noteRace_absent : (noteRace a n s).absent = s.absent := by
  unfold noteRace; split
  · rfl
  · split <;> rfl
@[simp] theorem noteRace_devices : (noteRace a n s).devices = s.devices := by
  unfold noteRace; split
  · rfl
  · split <;> rfl
@[simp] theorem noteRace_inbox : (noteRace a n s).inbox = s.inbox := by
  unfold noteRace; split
  · rfl
  · split <;> rfl
@[simp] theorem noteRace_turns : (noteRace a n s).turns = s.turns := by
  unfold noteRace; split
  · rfl
  · split <;> rfl
@[simp] theorem noteRace_busData : (noteRace a n s).busData = s.busData := by
  unfold noteRace; split
  · rfl
  · split <;> rfl
@[simp] theorem noteRace_loadData : (noteRace a n s).loadData = s.loadData := by
  unfold noteRace; split
  · rfl
  · split <;> rfl
@[simp] theorem noteRace_draws : (noteRace a n s).draws = s.draws := by
  unfold noteRace; split
  · rfl
  · split <;> rfl
end noteRace

section sessionLoad
variable (m : Dir) (a : InitArgs) (s : State)
@[simp] theorem sessionLoad_session : (sessionLoad m a s).session = s.session := by simp [sessionLoad]
@[simp] theorem sessionLoad_err : (sessionLoad m a s).err = s.err := by simp [sessionLoad]
@[simp] theorem sessionLoad_backend : (sessionLoad m a s).backend = s.backend := by simp [sessionLoad]
@[simp] theorem sessionLoad_lock : (sessionLoad m a s).lock = true := by simp [sessionLoad]
@[simp] theorem sessionLoad_ch0Owned : (sessionLoad m a s).ch0Owned = s.ch0Owned := by simp [sessionLoad]
@[simp] theorem sessionLoad_ch1Owned : (sessionLoad m a s).ch1Owned = s.ch1Owned := by simp [sessionLoad]
@[simp] theorem sessionLoad_dir : (sessionLoad m a s).dir = m := by simp [sessionLoad]
@[simp] theorem sessionLoad_ctrExh : (sessionLoad m a s).ctrExh = false := by simp [sessionLoad]
@[simp] theorem sessionLoad_ctr : (sessionLoad m a s).ctr = a.initCtr := by simp [sessionLoad]
@[simp] theorem sessionLoad_errlog : (sessionLoad m a s).errlog = s.errlog := by simp [sessionLoad]
@[simp] theorem sessionLoad_aadBytes : (sessionLoad m a s).aadBytes = 0 := by simp [sessionLoad]
@[simp] theorem sessionLoad_payloadBytes : (sessionLoad m a s).payloadBytes = 0 := by simp [sessionLoad]
@[simp] theorem sessionLoad_tag0 : (sessionLoad m a s).tag0 = 0 := by simp [sessionLoad]
@[simp] theorem sessionLoad_tag1 : (sessionLoad m a s).tag1 = 0 := by simp [sessionLoad]
@[simp] theorem sessionLoad_tag2 : (sessionLoad m a s).tag2 = 0 := by simp [sessionLoad]
@[simp] theorem sessionLoad_tag3 : (sessionLoad m a s).tag3 = 0 := by simp [sessionLoad]
@[simp] theorem sessionLoad_tagAny : (sessionLoad m a s).tagAny = false := by simp [sessionLoad]
@[simp] theorem sessionLoad_args : (sessionLoad m a s).args = s.args := by simp [sessionLoad]
@[simp] theorem sessionLoad_argsHeld : (sessionLoad m a s).argsHeld = s.argsHeld := by simp [sessionLoad]
@[simp] theorem sessionLoad_key : (sessionLoad m a s).key = keyAt s a.keyPtr := by simp [sessionLoad]
@[simp] theorem sessionLoad_nonce : (sessionLoad m a s).nonce = nonceOf a.constant a.ivLo a.ivHi := by simp [sessionLoad]
@[simp] theorem sessionLoad_polyR : (sessionLoad m a s).polyR = polyKeyR (keyAt s a.keyPtr) (nonceOf a.constant a.ivLo a.ivHi) := by simp [sessionLoad]
@[simp] theorem sessionLoad_polyS : (sessionLoad m a s).polyS = polyKeyS (keyAt s a.keyPtr) (nonceOf a.constant a.ivLo a.ivHi) := by simp [sessionLoad]
@[simp] theorem sessionLoad_acc : (sessionLoad m a s).acc = 0 := by simp [sessionLoad]
@[simp] theorem sessionLoad_ctxHeld : (sessionLoad m a s).ctxHeld = true := by simp [sessionLoad]
@[simp] theorem sessionLoad_accAny : (sessionLoad m a s).accAny = false := by simp [sessionLoad]
@[simp] theorem sessionLoad_job : (sessionLoad m a s).job = s.job := by simp [sessionLoad]
@[simp] theorem sessionLoad_mem : (sessionLoad m a s).mem = s.mem := by simp [sessionLoad]
@[simp] theorem sessionLoad_anyMem : (sessionLoad m a s).anyMem = s.anyMem := by simp [sessionLoad]
@[simp] theorem sessionLoad_accessLog : (sessionLoad m a s).accessLog = { agent := .engine, kind := .read, addr := a.keyPtr.toNat, len := 32 } :: s.accessLog := by simp [sessionLoad, afterRead, logAccess]
@[simp] theorem sessionLoad_baseIndex : (sessionLoad m a s).baseIndex = s.baseIndex := by simp [sessionLoad]
@[simp] theorem sessionLoad_absent : (sessionLoad m a s).absent = s.absent := by simp [sessionLoad]
@[simp] theorem sessionLoad_devices : (sessionLoad m a s).devices = s.devices := by simp [sessionLoad]
@[simp] theorem sessionLoad_inbox : (sessionLoad m a s).inbox = s.inbox := by simp [sessionLoad]
@[simp] theorem sessionLoad_turns : (sessionLoad m a s).turns = s.turns := by simp [sessionLoad]
@[simp] theorem sessionLoad_busData : (sessionLoad m a s).busData = s.busData := by simp [sessionLoad]
@[simp] theorem sessionLoad_loadData : (sessionLoad m a s).loadData = s.loadData := by simp [sessionLoad]
@[simp] theorem sessionLoad_draws : (sessionLoad m a s).draws = s.draws + 32 := by simp [sessionLoad]
end sessionLoad

end Sys2Proof.Machine
end

