-- ==== Sys2Proof/Laws/Memory.lean ====
section
/-! SUPPORT. What storing does to memory and to the list of any-value bytes, and that both keep their canonical form. -/

namespace Sys2Proof.Machine

/-! ## Reading memory -/

@[simp] theorem memGet_nil (a : Nat) : memGet [] a = unlistedByte := rfl

theorem memGet_cons (c : Host.Cell) (m : List Host.Cell) (a : Nat) :
    memGet (c :: m) a = if a = c.1 then c.2 else memGet m a := rfl

theorem memGet_of_unlisted {m : List Host.Cell} {a : Nat} (h : ∀ c ∈ m, c.1 ≠ a) : memGet m a = unlistedByte := by
  induction m with
  | nil => rfl
  | cons c m ih =>
    rw [memGet_cons, if_neg (Ne.symm (h c (by simp))), ih (fun d hd => h d (by simp [hd]))]

theorem memGet_append_left {m n : List Host.Cell} {a : Nat} (h : ∀ c ∈ n, c.1 ≠ a) :
    memGet (m ++ n) a = memGet m a := by
  induction m with
  | nil => simpa using memGet_of_unlisted h
  | cons c m ih => simp only [List.cons_append, memGet_cons, ih]

theorem memGet_append_right {m n : List Host.Cell} {a : Nat} (h : ∀ c ∈ m, c.1 ≠ a) :
    memGet (m ++ n) a = memGet n a := by
  induction m with
  | nil => rfl
  | cons c m ih =>
    rw [List.cons_append, memGet_cons, if_neg (Ne.symm (h c (by simp))), ih (fun d hd => h d (by simp [hd]))]

/-- Dropping cells of other addresses does not change what an address reads as. -/
theorem memGet_filter {m : List Host.Cell} {p : Host.Cell → Bool} {a : Nat} (h : ∀ c ∈ m, c.1 = a → p c = true) :
    memGet (m.filter p) a = memGet m a := by
  induction m with
  | nil => rfl
  | cons c m ih =>
    have ih := ih (fun d hd => h d (by simp [hd]))
    by_cases hp : p c = true
    · simp only [List.filter_cons, hp, if_true, memGet_cons, ih]
    · have hne : a ≠ c.1 := fun e => hp (h c (by simp) e.symm)
      simp only [List.filter_cons, hp, Bool.false_eq_true, if_false, memGet_cons, if_neg hne, ih]

theorem cellsOf_mem {bs : List Byte} {a : Nat} {c : Host.Cell} (h : c ∈ cellsOf a bs) :
    a ≤ c.1 ∧ c.1 < a + bs.length ∧ c.2 ≠ unlistedByte := by
  induction bs generalizing a with
  | nil => simp [cellsOf] at h
  | cons b bs ih =>
    simp only [cellsOf] at h
    simp only [List.length_cons]
    split at h
    · obtain ⟨h1, h2, h3⟩ := ih h; exact ⟨by omega, by omega, h3⟩
    · rcases List.mem_cons.1 h with rfl | h
      · exact ⟨by simp, by simp, ‹_›⟩
      · obtain ⟨h1, h2, h3⟩ := ih h; exact ⟨by omega, by omega, h3⟩

theorem memGet_cellsOf (bs : List Byte) (a x : Nat) :
    memGet (cellsOf a bs) x = if a ≤ x then (bs[x - a]?).getD unlistedByte else unlistedByte := by
  induction bs generalizing a with
  | nil => simp [cellsOf]
  | cons b bs ih =>
    by_cases hx : x = a
    · subst hx
      simp only [cellsOf]
      split
      · rw [memGet_of_unlisted (fun c hc => by have := cellsOf_mem hc; omega)]
        simp_all
      · simp [memGet_cons]
    · have hget : memGet (cellsOf a (b :: bs)) x = memGet (cellsOf (a + 1) bs) x := by
        simp only [cellsOf]; split
        · rfl
        · rw [memGet_cons, if_neg hx]
      rw [hget, ih]
      by_cases hle : a ≤ x
      · have h1 : a + 1 ≤ x := by omega
        have h2 : x - a = (x - (a + 1)) + 1 := by omega
        simp [hle, h1, h2]
      · have h1 : ¬ a + 1 ≤ x := by omega
        simp [hle, h1]

/-- A store gives its bytes to the addresses it covers. -/
theorem memGet_memPut_inside (m : List Host.Cell) (a : Nat) (bs : List Byte) {x : Nat} (h1 : a ≤ x)
    (h2 : x < a + bs.length) : memGet (memPut m a bs) x = (bs[x - a]?).getD unlistedByte := by
  unfold memPut
  rw [memGet_append_left (fun c hc => by simp at hc; omega),
    memGet_append_right (fun c hc => by simp at hc; omega), memGet_cellsOf, if_pos h1]

/-- A store leaves every other address alone. -/
theorem memGet_memPut_outside (m : List Host.Cell) (a : Nat) (bs : List Byte) {x : Nat}
    (h : x < a ∨ a + bs.length ≤ x) : memGet (memPut m a bs) x = memGet m x := by
  unfold memPut
  rcases h with h | h
  · rw [memGet_append_left (fun c hc => by simp at hc; omega),
      memGet_append_left (fun c hc => by have := cellsOf_mem hc; omega),
      memGet_filter (fun c _ e => by simpa using (by omega : c.1 < a))]
  · rw [memGet_append_right (fun c hc => by
        rcases List.mem_append.1 hc with hc | hc
        · simp at hc; omega
        · have := cellsOf_mem hc; omega),
      memGet_filter (fun c _ e => by simpa using (by omega : a + bs.length ≤ c.1))]

/-! ## The canonical form of memory -/

theorem memWf_iff (m : List Host.Cell) :
    memWf m = true ↔ m.Pairwise (fun c d => c.1 < d.1) ∧ ∀ c ∈ m, c.1 < Config.addressSpace ∧ c.2 ≠ unlistedByte := by
  simp [memWf, List.all_eq_true]

theorem cellsOf_sorted (bs : List Byte) (a : Nat) : (cellsOf a bs).Pairwise (fun c d => c.1 < d.1) := by
  induction bs generalizing a with
  | nil => exact List.Pairwise.nil
  | cons b bs ih =>
    simp only [cellsOf]; split
    · exact ih _
    · exact List.pairwise_cons.2 ⟨fun c hc => by have := cellsOf_mem hc; simp; omega, ih _⟩

/-- Storing inside the address space keeps the canonical form. -/
theorem memPut_wf {m : List Host.Cell} {a : Nat} {bs : List Byte} (h : memWf m = true)
    (hb : a + bs.length ≤ Config.addressSpace) : memWf (memPut m a bs) = true := by
  rw [memWf_iff] at h ⊢
  obtain ⟨hs, hc⟩ := h
  refine ⟨?_, ?_⟩
  · unfold memPut
    refine List.pairwise_append.2 ⟨List.pairwise_append.2 ⟨hs.filter _, cellsOf_sorted bs a, ?_⟩, hs.filter _, ?_⟩
    · intro c hc d hd
      have := cellsOf_mem hd
      simp at hc; omega
    · intro c hc d hd
      simp at hd
      rcases List.mem_append.1 hc with hc | hc
      · simp at hc; omega
      · have := cellsOf_mem hc; omega
  · intro c hmem
    unfold memPut at hmem
    rcases List.mem_append.1 hmem with h' | h'
    · rcases List.mem_append.1 h' with h' | h'
      · exact hc c (List.mem_filter.1 h').1
      · have := cellsOf_mem h'
        exact ⟨by omega, this.2.2⟩
    · exact hc c (List.mem_filter.1 h').1

/-! ## The bytes that hold any value -/

theorem marksWf_iff (l : List Nat) :
    marksWf l = true ↔ l.Pairwise (fun x y => x < y) ∧ ∀ x ∈ l, x < Config.addressSpace := by
  simp [marksWf, List.all_eq_true]

theorem mem_markAny (l : List Nat) (a n x : Nat) : x ∈ markAny l a n ↔ x ∈ l ∨ (a ≤ x ∧ x < a + n) := by
  simp only [markAny, List.mem_append, List.mem_filter, decide_eq_true_eq, List.mem_range'_1]
  constructor
  · rintro ((⟨h, _⟩ | h) | ⟨h, _⟩)
    · exact .inl h
    · exact .inr h
    · exact .inl h
  · rintro (h | h)
    · by_cases h1 : x < a
      · exact .inl (.inl ⟨h, h1⟩)
      · by_cases h2 : a + n ≤ x
        · exact .inr ⟨h, h2⟩
        · exact .inl (.inr (by omega))
    · exact .inl (.inr h)

theorem mem_unmarkAny (l : List Nat) (a n x : Nat) : x ∈ unmarkAny l a n ↔ x ∈ l ∧ ¬ (a ≤ x ∧ x < a + n) := by
  simp only [unmarkAny, List.mem_filter, decide_eq_true_eq]
  constructor
  · rintro ⟨h, h'⟩; exact ⟨h, by omega⟩
  · rintro ⟨h, h'⟩; exact ⟨h, by omega⟩

theorem markAny_wf {l : List Nat} {a n : Nat} (h : marksWf l = true) (hb : n = 0 ∨ a + n ≤ Config.addressSpace) :
    marksWf (markAny l a n) = true := by
  rw [marksWf_iff] at h ⊢
  refine ⟨?_, ?_⟩
  · unfold markAny
    refine List.pairwise_append.2 ⟨List.pairwise_append.2 ⟨h.1.filter _, List.pairwise_lt_range', ?_⟩, h.1.filter _, ?_⟩
    · intro x hx y hy
      simp at hx; simp [List.mem_range'_1] at hy; omega
    · intro x hx y hy
      simp at hy
      rcases List.mem_append.1 hx with hx | hx
      · simp at hx; omega
      · simp [List.mem_range'_1] at hx; omega
  · intro x hx
    rcases (mem_markAny l a n x).1 hx with hx | hx
    · exact h.2 x hx
    · rcases hb with rfl | hb <;> omega

theorem unmarkAny_wf {l : List Nat} {a n : Nat} (h : marksWf l = true) : marksWf (unmarkAny l a n) = true := by
  rw [marksWf_iff] at h ⊢
  exact ⟨h.1.filter _, fun x hx => h.2 x (List.mem_filter.1 hx).1⟩

/-- The marks of a list of ranges added one after the other. -/
theorem mem_markRanges (rs : List Region) (l : List Nat) (x : Nat) :
    x ∈ rs.foldl (fun l r => markAny l r.base r.size) l ↔ x ∈ l ∨ ∃ r ∈ rs, InRegion r x := by
  induction rs generalizing l with
  | nil => simp
  | cons r rs ih =>
    rw [List.foldl_cons, ih, mem_markAny]
    simp [InRegion, or_assoc]

theorem markRanges_wf {rs : List Region} {l : List Nat} (h : marksWf l = true) (hb : rs.any wraps = false) :
    marksWf (rs.foldl (fun l r => markAny l r.base r.size) l) = true := by
  induction rs generalizing l with
  | nil => exact h
  | cons r rs ih =>
    simp only [List.any_cons, Bool.or_eq_false_iff, wraps, decide_eq_false_iff_not] at hb
    exact ih (markAny_wf h (by omega)) (by simpa [wraps] using hb.2)

/-! ## Storing in the state -/

/-- A store changes no byte outside what it covers. -/
theorem storeBytes_outside {s : State} {a x : Nat} {bs : List Byte} (h : x < a ∨ a + bs.length ≤ x) :
    SameByte s (storeBytes a bs s) x := by
  unfold storeBytes
  split
  · exact ⟨rfl, Iff.rfl⟩
  · refine ⟨memGet_memPut_outside _ _ _ h, ?_⟩
    simp only [mem_unmarkAny]
    constructor
    · exact fun h' => h'.1
    · exact fun h' => ⟨h', by omega⟩

/-- A store gives each byte it covers its value. -/
theorem storeBytes_inside {s : State} {a x : Nat} {bs : List Byte} (h1 : a ≤ x) (h2 : x < a + bs.length) :
    memGet (storeBytes a bs s).mem x = (bs[x - a]?).getD unlistedByte ∧ x ∉ (storeBytes a bs s).anyMem := by
  unfold storeBytes
  rw [if_neg (by omega)]
  refine ⟨memGet_memPut_inside _ _ _ h1 h2, ?_⟩
  simp only [mem_unmarkAny]
  exact fun h => h.2 ⟨h1, h2⟩

theorem storeBytes_canonical {s : State} {a : Nat} {bs : List Byte} (h : MemCanonical s)
    (hb : bs.length = 0 ∨ a + bs.length ≤ Config.addressSpace) : MemCanonical (storeBytes a bs s) := by
  unfold storeBytes
  split
  · exact h
  · exact ⟨memPut_wf h.1 (by omega), unmarkAny_wf h.2⟩

/-- `MemWrite` changes memory as a store does; its record is all it adds. -/
@[simp] theorem engineWrite_mem (ag : Agent) (a : Nat) (bs : List Byte) (s : State) :
    (engineWrite ag a bs s).mem = (storeBytes a bs s).mem := by
  simp only [engineWrite, storeBytes]; split <;> simp

@[simp] theorem engineWrite_anyMem (ag : Agent) (a : Nat) (bs : List Byte) (s : State) :
    (engineWrite ag a bs s).anyMem = (storeBytes a bs s).anyMem := by
  simp only [engineWrite, storeBytes]; split <;> simp

@[simp] theorem engineWrite_accessLog (ag : Agent) (a : Nat) (bs : List Byte) (s : State) :
    (engineWrite ag a bs s).accessLog = (logAccess ag .write a bs.length s).accessLog := by simp [engineWrite]

theorem SameByte.refl (s : State) (a : Nat) : SameByte s s a := ⟨rfl, Iff.rfl⟩

theorem SameByte.trans {s t u : State} {a : Nat} (h : SameByte s t a) (k : SameByte t u a) : SameByte s u a :=
  ⟨k.1.trans h.1, k.2.trans h.2⟩

theorem SameByte.of_mem_eq {s t : State} {a : Nat} (h : t.mem = s.mem) (k : t.anyMem = s.anyMem) : SameByte s t a := by
  simp [SameByte, h, k]

end Sys2Proof.Machine
end

