-- ==== Sys2Proof/Laws/Ops.lean ====
section
/-! SUPPORT. What the shared operations do, said once each: busy, the argument snapshot, the refusals, raising an error,
reading bytes, and the steps of a command (R94). -/

namespace Sys2Proof.Machine

/-! ## Busy and the snapshot -/

theorem busy_eq_false (s : State) : busy s = false ↔ s.job = none := by
  unfold busy; cases s.job <;> simp

theorem unlessBusy_idle {s : State} (k : Out) (h : s.job = none) : unlessBusy s k = k := by
  simp [unlessBusy, (busy_eq_false s).2 h]

theorem unlessBusy_busy {s : State} (k : Out) (h : s.job ≠ none) :
    unlessBusy s k = .next (logErr .busyReject s) := by
  have hb : busy s = true := by
    cases hj : busy s with
    | true => rfl
    | false => exact absurd ((busy_eq_false s).1 hj) h
  simp [unlessBusy, hb, raiseErr]

theorem argsNamedHeld_iff (s : State) (n : Nat) : argsNamedHeld s n = true ↔ NamedHeld s n := by
  simp only [argsNamedHeld, List.all_eq_true, NamedHeld]
  constructor
  · intro h i hi
    refine h _ (List.mem_take_iff_getElem.2 ⟨i.val, ?_, ?_⟩)
    · simp; omega
    · simp
  · intro h x hx
    obtain ⟨i, hi, rfl⟩ := List.mem_take_iff_getElem.1 hx
    have hi16 : i < 16 := by simp at hi; omega
    have := h ⟨i, hi16⟩ (by simp at hi; exact hi.1)
    simpa using this

theorem argsNamedHeld_eq_false {s : State} {n : Nat} (k : Fin 16) (hk : k.val < n) (h : s.argsHeld[k] = false) :
    argsNamedHeld s n = false := by
  cases hn : argsNamedHeld s n with
  | false => rfl
  | true => have := (argsNamedHeld_iff s n).1 hn k hk; simp_all

/-! ## Ranges and refusals -/

theorem wraps_eq_false (r : Region) : wraps r = false ↔ Fits r := by
  rw [← Bool.not_eq_true]
  unfold wraps Fits
  rw [decide_eq_true_eq, Config.addressSpace]
  omega

theorem regionsMeet_iff (r q : Region) : regionsMeet r q = true ↔ ∃ a, InRegion r a ∧ InRegion q a := by
  simp only [regionsMeet, decide_eq_true_eq, InRegion]
  constructor
  · rintro ⟨h1, h2, h3, h4⟩
    by_cases h : r.base ≤ q.base
    · exact ⟨q.base, by omega⟩
    · exact ⟨r.base, by omega⟩
  · rintro ⟨a, h⟩; omega

theorem regionsMeet_eq_false (r q : Region) : regionsMeet r q = false ↔ Apart r q := by
  rw [← Bool.not_eq_true, regionsMeet_iff]; simp [Apart]

theorem meetsAny_eq_false (r : Region) (qs : List Region) : meetsAny r qs = false ↔ AvoidsAll qs r := by
  simp only [meetsAny, List.any_eq_false, Bool.not_eq_true, regionsMeet_eq_false, AvoidsAll, Apart]
  constructor
  · exact fun h a ha q hq hqa => h q hq a ⟨ha, hqa⟩
  · exact fun h q hq a ha => h a ha.1 q hq ha.2

theorem partlyOverlap_eq_false (p : PayloadArgs) : partlyOverlap p = false ↔ DisjointOrInPlace p := by
  rw [← Bool.not_eq_true]
  unfold partlyOverlap regionsMeet DisjointOrInPlace
  rw [Bool.and_eq_true, decide_eq_true_eq, bne_iff_ne]
  by_cases h : p.inPtr = p.outPtr
  · simp [h]
  · simp only [ne_eq, h, not_false_eq_true, and_true, false_or, inBuffer, outBuffer, buffer]
    omega

/-- When the refusals of step 5 of R94 do not stop a command. -/
theorem bufferRefusal_eq_none (s : State) (named within : List Region) (p : Option PayloadArgs) :
    bufferRefusal s named within p = none ↔
      (∀ r ∈ named, Nameable s r) ∧ (∀ r ∈ within, AvoidsAll s.absent r) ∧ (∀ q ∈ p, DisjointOrInPlace q) := by
  have hw : named.any wraps = false ↔ ∀ r ∈ named, Fits r := by
    simp only [List.any_eq_false, Bool.not_eq_true, wraps_eq_false]
  have hd : named.any (fun r => meetsAny r s.devices) = false ↔ ∀ r ∈ named, AvoidsAll s.devices r := by
    simp only [List.any_eq_false, Bool.not_eq_true, meetsAny_eq_false]
  have ha : within.any (fun r => meetsAny r s.absent) = false ↔ ∀ r ∈ within, AvoidsAll s.absent r := by
    simp only [List.any_eq_false, Bool.not_eq_true, meetsAny_eq_false]
  have hp : p.any partlyOverlap = false ↔ ∀ q ∈ p, DisjointOrInPlace q := by
    cases p <;> simp [partlyOverlap_eq_false]
  have key : bufferRefusal s named within p = none ↔
      named.any wraps = false ∧ p.any partlyOverlap = false ∧
        named.any (fun r => meetsAny r s.devices) = false ∧ within.any (fun r => meetsAny r s.absent) = false := by
    unfold bufferRefusal
    split
    · simp_all
    · split
      · simp_all
      · split
        · simp_all
        · split <;> simp_all
  rw [key, hw, hd, ha, hp]
  constructor
  · rintro ⟨h1, h2, h3, h4⟩; exact ⟨fun r hr => ⟨h1 r hr, h3 r hr⟩, h4, h2⟩
  · rintro ⟨h1, h2, h3⟩; exact ⟨fun r hr => (h1 r hr).1, h3, fun r hr => (h1 r hr).2, h2⟩

/-! ## Raising an error -/

/-- Where and with which name step 5 of R94 refuses (MF5, MF6, a device, MF7). -/
theorem bufferRefusal_refuses (s : State) (named within : List Region) (p : Option PayloadArgs) (o : Out)
    (h : ∀ r, bufferRefusal s named within p = some r → o = .refused r) :
    RefusedWhereUnusable s named within p o := by
  have fits : (∀ r ∈ named, Fits r) → named.any wraps = false := fun h => by
    simpa only [List.any_eq_false, Bool.not_eq_true, wraps_eq_false] using h
  have apart : (∀ q ∈ p, DisjointOrInPlace q) → p.any partlyOverlap = false := fun h => by
    cases p with
    | none => rfl
    | some q => exact (partlyOverlap_eq_false q).2 (h q rfl)
  have meets : ∀ {rs qs : List Region}, (∃ r ∈ rs, ¬ AvoidsAll qs r) → rs.any (fun r => meetsAny r qs) = true :=
    fun ⟨r, hr, ha⟩ => List.any_eq_true.2 ⟨r, hr, by rw [← Bool.not_eq_false, meetsAny_eq_false]; exact ha⟩
  refine ⟨fun ⟨r, hr, hf⟩ => h _ ?_, fun hf ⟨q, hq, hd⟩ => h _ ?_, fun hf hd hm => h _ ?_, fun hn hd hm => h _ ?_⟩
  · have : named.any wraps = true :=
      List.any_eq_true.2 ⟨r, hr, by rw [← Bool.not_eq_false, wraps_eq_false]; exact hf⟩
    simp [bufferRefusal, this]
  · have : p.any partlyOverlap = true := by
      obtain rfl : p = some q := hq
      rw [Option.any_some, ← Bool.not_eq_false, partlyOverlap_eq_false]; exact hd
    simp [bufferRefusal, fits hf, this]
  · simp [bufferRefusal, fits hf, apart hd, meets hm]
  · have : named.any (fun r => meetsAny r s.devices) = false := by
      simpa only [List.any_eq_false, Bool.not_eq_true, meetsAny_eq_false] using fun r hr => (hn r hr).2
    simp only [bufferRefusal, fits (fun r hr => (hn r hr).1), apart hd, this, meets hm]
    rfl

theorem raiseErr_of_ne {e : ErrCode} (h : e ≠ .alreadyFinalized) (s : State) : raiseErr e s = logErr e s := by
  cases e <;> first | rfl | exact absurd rfl h

theorem raiseErr_alreadyFinalized (s : State) :
    raiseErr .alreadyFinalized s = releaseChannels (logErr .alreadyFinalized s) := rfl

/-- All that `raise E` does (R96). -/
theorem raiseErr_eq (e : ErrCode) (s : State) :
    raiseErr e s = { s with err := e, errlog := s.errlog ||| errlogBit e,
                            ch0Owned := if e = .alreadyFinalized then false else s.ch0Owned,
                            ch1Owned := if e = .alreadyFinalized then false else s.ch1Owned } := by
  cases e <;> rfl

/-! ## Reading bytes -/

@[simp] theorem bytesAt_length (s : State) (a n : Nat) : (bytesAt s a n).length = n := by simp [bytesAt]

@[simp] theorem memBytes_length (m : List Host.Cell) (a n : Nat) : (memBytes m a n).length = n := by simp [memBytes]

/-- What an engine read returns depends only on memory, the any-value bytes and the draw counter. -/
theorem bytesAt_congr {s t : State} (hm : t.mem = s.mem) (ha : t.anyMem = s.anyMem) (hd : t.draws = s.draws)
    (a n : Nat) : bytesAt t a n = bytesAt s a n := by
  simp [bytesAt, byteAt, hm, ha, hd]

theorem byteAt_definite {s : State} {a : Nat} (h : a ∉ s.anyMem) (d : Nat) : byteAt s d a = memGet s.mem a := by
  simp [byteAt, h]

/-- A read of a range that holds values returns what memory holds. -/
theorem bytesAt_definite {s : State} {a n : Nat} (h : Definite s { base := a, size := n }) :
    bytesAt s a n = memBytes s.mem a n := by
  unfold bytesAt memBytes
  refine List.map_congr_left (fun j hj => byteAt_definite (h _ ?_) _)
  simp only [List.mem_range] at hj
  exact ⟨by simp, by simp; omega⟩

/-! ## The steps of a command -/

/-- What `issue` can do (R94 steps 4 to 7). -/
theorem issue_cases {c : Command} {err : Option ErrCode} {s t : State} (h : issue c err s = .next t) :
    (∃ e, err = some e ∧ t = raiseErr e s) ∨
    (err = none ∧
      bufferRefusal s (keyRanges c ++ bodyRanges c) (accessedWithin s c) (payloadOf c) = none ∧
      launch c s = .next t) := by
  unfold issue at h
  split at h
  · exact .inl ⟨_, rfl, by injection h with h; exact h.symm⟩
  · split at h
    · cases h
    · exact .inr ⟨rfl, ‹_›, h⟩

/-- What an accepted command does: its body at once in the CPU backend, a job start in the DMA backend (R95). -/
theorem launch_cases {c : Command} {s t : State} (h : launch c s = .next t) :
    (s.backend = .cpu ∧ (acceptPart c s).ctxHeld = true ∧ t = bodyOf .engine c (acceptPart c s)) ∨
    (s.backend = .dma ∧ t = startJob c (acceptPart c s)) := by
  unfold launch at h
  split at h
  · rename_i hb
    unfold runBody at h
    split at h
    · exact .inl ⟨hb, ‹_›, by injection h with h; exact h.symm⟩
    · cases h
  · rename_i hb
    exact .inr ⟨hb, by injection h with h; exact h.symm⟩

theorem issue_error {c : Command} {e : ErrCode} {s : State} : issue c (some e) s = .next (raiseErr e s) := rfl

theorem issue_accepted {c : Command} {s : State}
    (h : bufferRefusal s (keyRanges c ++ bodyRanges c) (accessedWithin s c) (payloadOf c) = none) :
    issue c none s = launch c s := by
  simp [issue, h]

theorem launch_cpu {c : Command} {s : State} (hb : s.backend = .cpu) (hc : (acceptPart c s).ctxHeld = true) :
    launch c s = .next (bodyOf .engine c (acceptPart c s)) := by
  simp [launch, hb, runBody, hc]

theorem launch_dma {c : Command} {s : State} (hb : s.backend = .dma) :
    launch c s = .next (startJob c (acceptPart c s)) := by
  simp [launch, hb]

end Sys2Proof.Machine
end

