-- ==== Sys2Proof/Laws/Session.lean ====
section
/-! SUPPORT. What the payload procedure and the command bodies change and leave alone, block by block and as a whole. -/

namespace Sys2Proof.Machine

/-! ## One payload block -/

section payloadBlock
variable (ag : Agent) (inA outA k : Nat) (s : State)

@[simp] theorem payloadBlock_session : (payloadBlock ag inA outA k s).session = s.session := by simp [payloadBlock]
@[simp] theorem payloadBlock_err : (payloadBlock ag inA outA k s).err = s.err := by simp [payloadBlock]
@[simp] theorem payloadBlock_backend : (payloadBlock ag inA outA k s).backend = s.backend := by simp [payloadBlock]
@[simp] theorem payloadBlock_lock : (payloadBlock ag inA outA k s).lock = s.lock := by simp [payloadBlock]
@[simp] theorem payloadBlock_ch0Owned : (payloadBlock ag inA outA k s).ch0Owned = s.ch0Owned := by simp [payloadBlock]
@[simp] theorem payloadBlock_ch1Owned : (payloadBlock ag inA outA k s).ch1Owned = s.ch1Owned := by simp [payloadBlock]
@[simp] theorem payloadBlock_dir : (payloadBlock ag inA outA k s).dir = s.dir := by simp [payloadBlock]
@[simp] theorem payloadBlock_errlog : (payloadBlock ag inA outA k s).errlog = s.errlog := by simp [payloadBlock]
@[simp] theorem payloadBlock_aadBytes : (payloadBlock ag inA outA k s).aadBytes = s.aadBytes := by simp [payloadBlock]
@[simp] theorem payloadBlock_tag0 : (payloadBlock ag inA outA k s).tag0 = s.tag0 := by simp [payloadBlock]
@[simp] theorem payloadBlock_tag1 : (payloadBlock ag inA outA k s).tag1 = s.tag1 := by simp [payloadBlock]
@[simp] theorem payloadBlock_tag2 : (payloadBlock ag inA outA k s).tag2 = s.tag2 := by simp [payloadBlock]
@[simp] theorem payloadBlock_tag3 : (payloadBlock ag inA outA k s).tag3 = s.tag3 := by simp [payloadBlock]
@[simp] theorem payloadBlock_tagAny : (payloadBlock ag inA outA k s).tagAny = s.tagAny := by simp [payloadBlock]
@[simp] theorem payloadBlock_args : (payloadBlock ag inA outA k s).args = s.args := by simp [payloadBlock]
@[simp] theorem payloadBlock_argsHeld : (payloadBlock ag inA outA k s).argsHeld = s.argsHeld := by simp [payloadBlock]
@[simp] theorem payloadBlock_key : (payloadBlock ag inA outA k s).key = s.key := by simp [payloadBlock]
@[simp] theorem payloadBlock_nonce : (payloadBlock ag inA outA k s).nonce = s.nonce := by simp [payloadBlock]
@[simp] theorem payloadBlock_polyR : (payloadBlock ag inA outA k s).polyR = s.polyR := by simp [payloadBlock]
@[simp] theorem payloadBlock_polyS : (payloadBlock ag inA outA k s).polyS = s.polyS := by simp [payloadBlock]
@[simp] theorem payloadBlock_ctxHeld : (payloadBlock ag inA outA k s).ctxHeld = s.ctxHeld := by simp [payloadBlock]
@[simp] theorem payloadBlock_accAny : (payloadBlock ag inA outA k s).accAny = s.accAny := by simp [payloadBlock]
@[simp] theorem payloadBlock_job : (payloadBlock ag inA outA k s).job = s.job := by simp [payloadBlock]
@[simp] theorem payloadBlock_baseIndex : (payloadBlock ag inA outA k s).baseIndex = s.baseIndex := by simp [payloadBlock]
@[simp] theorem payloadBlock_absent : (payloadBlock ag inA outA k s).absent = s.absent := by simp [payloadBlock]
@[simp] theorem payloadBlock_devices : (payloadBlock ag inA outA k s).devices = s.devices := by simp [payloadBlock]
@[simp] theorem payloadBlock_inbox : (payloadBlock ag inA outA k s).inbox = s.inbox := by simp [payloadBlock]
@[simp] theorem payloadBlock_turns : (payloadBlock ag inA outA k s).turns = s.turns := by simp [payloadBlock]
@[simp] theorem payloadBlock_busData : (payloadBlock ag inA outA k s).busData = s.busData := by simp [payloadBlock]
@[simp] theorem payloadBlock_loadData : (payloadBlock ag inA outA k s).loadData = s.loadData := by simp [payloadBlock]
@[simp] theorem payloadBlock_ctr : (payloadBlock ag inA outA k s).ctr = s.ctr + 1 := by simp [payloadBlock]
@[simp] theorem payloadBlock_ctrExh :
    (payloadBlock ag inA outA k s).ctrExh = (s.ctrExh || s.ctr == 0xFFFFFFFF) := by simp [payloadBlock]
@[simp] theorem payloadBlock_payloadBytes :
    (payloadBlock ag inA outA k s).payloadBytes = s.payloadBytes + BitVec.ofNat 64 k := by simp [payloadBlock]
@[simp] theorem payloadBlock_draws : (payloadBlock ag inA outA k s).draws = s.draws + k := by simp [payloadBlock]
@[simp] theorem payloadBlock_acc : (payloadBlock ag inA outA k s).acc =
    polyAbsorbPadded s.polyR s.acc (ciphertextOf s.dir (blockInput inA k s) (blockOutput inA k s)) := by
  simp [payloadBlock]
@[simp] theorem payloadBlock_mem :
    (payloadBlock ag inA outA k s).mem = (storeBytes outA (blockOutput inA k s) s).mem := by
  simp only [payloadBlock, countBlock_mem, engineWrite_mem, storeBytes]; split <;> simp
@[simp] theorem payloadBlock_anyMem :
    (payloadBlock ag inA outA k s).anyMem = (storeBytes outA (blockOutput inA k s) s).anyMem := by
  simp only [payloadBlock, countBlock_anyMem, engineWrite_anyMem, storeBytes]; split <;> simp

end payloadBlock

/-! ## The payload procedure: what it leaves alone -/

/-- What no block changes, no run of blocks changes. -/
theorem payloadBlocks_keeps {α : Type} (f : State → α) (ag : Agent)
    (h : ∀ inA outA k s, f (payloadBlock ag inA outA k s) = f s) (n inA outA len : Nat) (s : State) :
    f (payloadBlocks ag n inA outA len s) = f s := by
  induction n generalizing inA outA len s with
  | zero => rfl
  | succ n ih => rw [payloadBlocks, ih, h]

section processPayload
variable (ag : Agent) (n inA outA len : Nat) (p : PayloadArgs) (s : State)

@[simp] theorem payloadBlocks_session : (payloadBlocks ag n inA outA len s).session = s.session :=
  payloadBlocks_keeps (fun u => u.session) ag (by simp) n inA outA len s
@[simp] theorem processPayload_session : (processPayload ag p s).session = s.session := payloadBlocks_session ..
@[simp] theorem payloadBlocks_err : (payloadBlocks ag n inA outA len s).err = s.err :=
  payloadBlocks_keeps (fun u => u.err) ag (by simp) n inA outA len s
@[simp] theorem processPayload_err : (processPayload ag p s).err = s.err := payloadBlocks_err ..
@[simp] theorem payloadBlocks_backend : (payloadBlocks ag n inA outA len s).backend = s.backend :=
  payloadBlocks_keeps (fun u => u.backend) ag (by simp) n inA outA len s
@[simp] theorem processPayload_backend : (processPayload ag p s).backend = s.backend := payloadBlocks_backend ..
@[simp] theorem payloadBlocks_lock : (payloadBlocks ag n inA outA len s).lock = s.lock :=
  payloadBlocks_keeps (fun u => u.lock) ag (by simp) n inA outA len s
@[simp] theorem processPayload_lock : (processPayload ag p s).lock = s.lock := payloadBlocks_lock ..
@[simp] theorem payloadBlocks_ch0Owned : (payloadBlocks ag n inA outA len s).ch0Owned = s.ch0Owned :=
  payloadBlocks_keeps (fun u => u.ch0Owned) ag (by simp) n inA outA len s
@[simp] theorem processPayload_ch0Owned : (processPayload ag p s).ch0Owned = s.ch0Owned := payloadBlocks_ch0Owned ..
@[simp] theorem payloadBlocks_ch1Owned : (payloadBlocks ag n inA outA len s).ch1Owned = s.ch1Owned :=
  payloadBlocks_keeps (fun u => u.ch1Owned) ag (by simp) n inA outA len s
@[simp] theorem processPayload_ch1Owned : (processPayload ag p s).ch1Owned = s.ch1Owned := payloadBlocks_ch1Owned ..
@[simp] theorem payloadBlocks_dir : (payloadBlocks ag n inA outA len s).dir = s.dir :=
  payloadBlocks_keeps (fun u => u.dir) ag (by simp) n inA outA len s
@[simp] theorem processPayload_dir : (processPayload ag p s).dir = s.dir := payloadBlocks_dir ..
@[simp] theorem payloadBlocks_errlog : (payloadBlocks ag n inA outA len s).errlog = s.errlog :=
  payloadBlocks_keeps (fun u => u.errlog) ag (by simp) n inA outA len s
@[simp] theorem processPayload_errlog : (processPayload ag p s).errlog = s.errlog := payloadBlocks_errlog ..
@[simp] theorem payloadBlocks_aadBytes : (payloadBlocks ag n inA outA len s).aadBytes = s.aadBytes :=
  payloadBlocks_keeps (fun u => u.aadBytes) ag (by simp) n inA outA len s
@[simp] theorem processPayload_aadBytes : (processPayload ag p s).aadBytes = s.aadBytes := payloadBlocks_aadBytes ..
@[simp] theorem payloadBlocks_tag0 : (payloadBlocks ag n inA outA len s).tag0 = s.tag0 :=
  payloadBlocks_keeps (fun u => u.tag0) ag (by simp) n inA outA len s
@[simp] theorem processPayload_tag0 : (processPayload ag p s).tag0 = s.tag0 := payloadBlocks_tag0 ..
@[simp] theorem payloadBlocks_tag1 : (payloadBlocks ag n inA outA len s).tag1 = s.tag1 :=
  payloadBlocks_keeps (fun u => u.tag1) ag (by simp) n inA outA len s
@[simp] theorem processPayload_tag1 : (processPayload ag p s).tag1 = s.tag1 := payloadBlocks_tag1 ..
@[simp] theorem payloadBlocks_tag2 : (payloadBlocks ag n inA outA len s).tag2 = s.tag2 :=
  payloadBlocks_keeps (fun u => u.tag2) ag (by simp) n inA outA len s
@[simp] theorem processPayload_tag2 : (processPayload ag p s).tag2 = s.tag2 := payloadBlocks_tag2 ..
@[simp] theorem payloadBlocks_tag3 : (payloadBlocks ag n inA outA len s).tag3 = s.tag3 :=
  payloadBlocks_keeps (fun u => u.tag3) ag (by simp) n inA outA len s
@[simp] theorem processPayload_tag3 : (processPayload ag p s).tag3 = s.tag3 := payloadBlocks_tag3 ..
@[simp] theorem payloadBlocks_tagAny : (payloadBlocks ag n inA outA len s).tagAny = s.tagAny :=
  payloadBlocks_keeps (fun u => u.tagAny) ag (by simp) n inA outA len s
@[simp] theorem processPayload_tagAny : (processPayload ag p s).tagAny = s.tagAny := payloadBlocks_tagAny ..
@[simp] theorem payloadBlocks_args : (payloadBlocks ag n inA outA len s).args = s.args :=
  payloadBlocks_keeps (fun u => u.args) ag (by simp) n inA outA len s
@[simp] theorem processPayload_args : (processPayload ag p s).args = s.args := payloadBlocks_args ..
@[simp] theorem payloadBlocks_argsHeld : (payloadBlocks ag n inA outA len s).argsHeld = s.argsHeld :=
  payloadBlocks_keeps (fun u => u.argsHeld) ag (by simp) n inA outA len s
@[simp] theorem processPayload_argsHeld : (processPayload ag p s).argsHeld = s.argsHeld := payloadBlocks_argsHeld ..
@[simp] theorem payloadBlocks_key : (payloadBlocks ag n inA outA len s).key = s.key :=
  payloadBlocks_keeps (fun u => u.key) ag (by simp) n inA outA len s
@[simp] theorem processPayload_key : (processPayload ag p s).key = s.key := payloadBlocks_key ..
@[simp] theorem payloadBlocks_nonce : (payloadBlocks ag n inA outA len s).nonce = s.nonce :=
  payloadBlocks_keeps (fun u => u.nonce) ag (by simp) n inA outA len s
@[simp] theorem processPayload_nonce : (processPayload ag p s).nonce = s.nonce := payloadBlocks_nonce ..
@[simp] theorem payloadBlocks_polyR : (payloadBlocks ag n inA outA len s).polyR = s.polyR :=
  payloadBlocks_keeps (fun u => u.polyR) ag (by simp) n inA outA len s
@[simp] theorem processPayload_polyR : (processPayload ag p s).polyR = s.polyR := payloadBlocks_polyR ..
@[simp] theorem payloadBlocks_polyS : (payloadBlocks ag n inA outA len s).polyS = s.polyS :=
  payloadBlocks_keeps (fun u => u.polyS) ag (by simp) n inA outA len s
@[simp] theorem processPayload_polyS : (processPayload ag p s).polyS = s.polyS := payloadBlocks_polyS ..
@[simp] theorem payloadBlocks_ctxHeld : (payloadBlocks ag n inA outA len s).ctxHeld = s.ctxHeld :=
  payloadBlocks_keeps (fun u => u.ctxHeld) ag (by simp) n inA outA len s
@[simp] theorem processPayload_ctxHeld : (processPayload ag p s).ctxHeld = s.ctxHeld := payloadBlocks_ctxHeld ..
@[simp] theorem payloadBlocks_accAny : (payloadBlocks ag n inA outA len s).accAny = s.accAny :=
  payloadBlocks_keeps (fun u => u.accAny) ag (by simp) n inA outA len s
@[simp] theorem processPayload_accAny : (processPayload ag p s).accAny = s.accAny := payloadBlocks_accAny ..
@[simp] theorem payloadBlocks_job : (payloadBlocks ag n inA outA len s).job = s.job :=
  payloadBlocks_keeps (fun u => u.job) ag (by simp) n inA outA len s
@[simp] theorem processPayload_job : (processPayload ag p s).job = s.job := payloadBlocks_job ..
@[simp] theorem payloadBlocks_baseIndex : (payloadBlocks ag n inA outA len s).baseIndex = s.baseIndex :=
  payloadBlocks_keeps (fun u => u.baseIndex) ag (by simp) n inA outA len s
@[simp] theorem processPayload_baseIndex : (processPayload ag p s).baseIndex = s.baseIndex := payloadBlocks_baseIndex ..
@[simp] theorem payloadBlocks_absent : (payloadBlocks ag n inA outA len s).absent = s.absent :=
  payloadBlocks_keeps (fun u => u.absent) ag (by simp) n inA outA len s
@[simp] theorem processPayload_absent : (processPayload ag p s).absent = s.absent := payloadBlocks_absent ..
@[simp] theorem payloadBlocks_devices : (payloadBlocks ag n inA outA len s).devices = s.devices :=
  payloadBlocks_keeps (fun u => u.devices) ag (by simp) n inA outA len s
@[simp] theorem processPayload_devices : (processPayload ag p s).devices = s.devices := payloadBlocks_devices ..
@[simp] theorem payloadBlocks_inbox : (payloadBlocks ag n inA outA len s).inbox = s.inbox :=
  payloadBlocks_keeps (fun u => u.inbox) ag (by simp) n inA outA len s
@[simp] theorem processPayload_inbox : (processPayload ag p s).inbox = s.inbox := payloadBlocks_inbox ..
@[simp] theorem payloadBlocks_turns : (payloadBlocks ag n inA outA len s).turns = s.turns :=
  payloadBlocks_keeps (fun u => u.turns) ag (by simp) n inA outA len s
@[simp] theorem processPayload_turns : (processPayload ag p s).turns = s.turns := payloadBlocks_turns ..
@[simp] theorem payloadBlocks_busData : (payloadBlocks ag n inA outA len s).busData = s.busData :=
  payloadBlocks_keeps (fun u => u.busData) ag (by simp) n inA outA len s
@[simp] theorem processPayload_busData : (processPayload ag p s).busData = s.busData := payloadBlocks_busData ..
@[simp] theorem payloadBlocks_loadData : (payloadBlocks ag n inA outA len s).loadData = s.loadData :=
  payloadBlocks_keeps (fun u => u.loadData) ag (by simp) n inA outA len s
@[simp] theorem processPayload_loadData : (processPayload ag p s).loadData = s.loadData := payloadBlocks_loadData ..

end processPayload

/-- Running `m` blocks and then `n` more is running `m + n` blocks. -/
theorem payloadBlocks_add (ag : Agent) (m n inA outA len : Nat) (s : State) :
    payloadBlocks ag (m + n) inA outA len s =
      payloadBlocks ag n (inA + 64 * m) (outA + 64 * m) (len - 64 * m) (payloadBlocks ag m inA outA len s) := by
  induction m generalizing inA outA len s with
  | zero => simp [payloadBlocks]
  | succ m ih =>
    rw [show m + 1 + n = (m + n) + 1 by omega]
    simp only [payloadBlocks]
    rw [ih]
    congr 1 <;> omega

/-! ## The bodies -/

section absorbAad
variable (ag : Agent) (a : InitArgs) (s : State)

@[simp] theorem absorbAad_session : (absorbAad ag a s).session = s.session := by simp [absorbAad]
@[simp] theorem absorbAad_err : (absorbAad ag a s).err = s.err := by simp [absorbAad]
@[simp] theorem absorbAad_backend : (absorbAad ag a s).backend = s.backend := by simp [absorbAad]
@[simp] theorem absorbAad_lock : (absorbAad ag a s).lock = s.lock := by simp [absorbAad]
@[simp] theorem absorbAad_ch0Owned : (absorbAad ag a s).ch0Owned = s.ch0Owned := by simp [absorbAad]
@[simp] theorem absorbAad_ch1Owned : (absorbAad ag a s).ch1Owned = s.ch1Owned := by simp [absorbAad]
@[simp] theorem absorbAad_dir : (absorbAad ag a s).dir = s.dir := by simp [absorbAad]
@[simp] theorem absorbAad_errlog : (absorbAad ag a s).errlog = s.errlog := by simp [absorbAad]
@[simp] theorem absorbAad_tag0 : (absorbAad ag a s).tag0 = s.tag0 := by simp [absorbAad]
@[simp] theorem absorbAad_tag1 : (absorbAad ag a s).tag1 = s.tag1 := by simp [absorbAad]
@[simp] theorem absorbAad_tag2 : (absorbAad ag a s).tag2 = s.tag2 := by simp [absorbAad]
@[simp] theorem absorbAad_tag3 : (absorbAad ag a s).tag3 = s.tag3 := by simp [absorbAad]
@[simp] theorem absorbAad_tagAny : (absorbAad ag a s).tagAny = s.tagAny := by simp [absorbAad]
@[simp] theorem absorbAad_args : (absorbAad ag a s).args = s.args := by simp [absorbAad]
@[simp] theorem absorbAad_argsHeld : (absorbAad ag a s).argsHeld = s.argsHeld := by simp [absorbAad]
@[simp] theorem absorbAad_key : (absorbAad ag a s).key = s.key := by simp [absorbAad]
@[simp] theorem absorbAad_nonce : (absorbAad ag a s).nonce = s.nonce := by simp [absorbAad]
@[simp] theorem absorbAad_polyR : (absorbAad ag a s).polyR = s.polyR := by simp [absorbAad]
@[simp] theorem absorbAad_polyS : (absorbAad ag a s).polyS = s.polyS := by simp [absorbAad]
@[simp] theorem absorbAad_ctxHeld : (absorbAad ag a s).ctxHeld = s.ctxHeld := by simp [absorbAad]
@[simp] theorem absorbAad_accAny : (absorbAad ag a s).accAny = s.accAny := by simp [absorbAad]
@[simp] theorem absorbAad_job : (absorbAad ag a s).job = s.job := by simp [absorbAad]
@[simp] theorem absorbAad_baseIndex : (absorbAad ag a s).baseIndex = s.baseIndex := by simp [absorbAad]
@[simp] theorem absorbAad_absent : (absorbAad ag a s).absent = s.absent := by simp [absorbAad]
@[simp] theorem absorbAad_devices : (absorbAad ag a s).devices = s.devices := by simp [absorbAad]
@[simp] theorem absorbAad_inbox : (absorbAad ag a s).inbox = s.inbox := by simp [absorbAad]
@[simp] theorem absorbAad_turns : (absorbAad ag a s).turns = s.turns := by simp [absorbAad]
@[simp] theorem absorbAad_busData : (absorbAad ag a s).busData = s.busData := by simp [absorbAad]
@[simp] theorem absorbAad_loadData : (absorbAad ag a s).loadData = s.loadData := by simp [absorbAad]
@[simp] theorem absorbAad_ctrExh : (absorbAad ag a s).ctrExh = s.ctrExh := by simp [absorbAad]
@[simp] theorem absorbAad_ctr : (absorbAad ag a s).ctr = s.ctr := by simp [absorbAad]
@[simp] theorem absorbAad_payloadBytes : (absorbAad ag a s).payloadBytes = s.payloadBytes := by simp [absorbAad]
@[simp] theorem absorbAad_mem : (absorbAad ag a s).mem = s.mem := by simp [absorbAad]
@[simp] theorem absorbAad_anyMem : (absorbAad ag a s).anyMem = s.anyMem := by simp [absorbAad]
@[simp] theorem absorbAad_aadBytes : (absorbAad ag a s).aadBytes = a.aadLen.setWidth 64 := rfl
@[simp] theorem absorbAad_draws : (absorbAad ag a s).draws = s.draws + a.aadLen.toNat := by simp [absorbAad]
@[simp] theorem absorbAad_acc : (absorbAad ag a s).acc =
    polyAbsorbPadded s.polyR s.acc (bytesAt s a.aadPtr.toNat a.aadLen.toNat) := by simp [absorbAad]

end absorbAad

section finishSession
variable (ag : Agent) (tp : Word) (s : State)

@[simp] theorem finishSession_err : (finishSession ag tp s).err = s.err := by simp [finishSession]
@[simp] theorem finishSession_backend : (finishSession ag tp s).backend = s.backend := by simp [finishSession]
@[simp] theorem finishSession_lock : (finishSession ag tp s).lock = s.lock := by simp [finishSession]
@[simp] theorem finishSession_dir : (finishSession ag tp s).dir = s.dir := by simp [finishSession]
@[simp] theorem finishSession_errlog : (finishSession ag tp s).errlog = s.errlog := by simp [finishSession]
@[simp] theorem finishSession_aadBytes : (finishSession ag tp s).aadBytes = s.aadBytes := by simp [finishSession]
@[simp] theorem finishSession_args : (finishSession ag tp s).args = s.args := by simp [finishSession]
@[simp] theorem finishSession_argsHeld : (finishSession ag tp s).argsHeld = s.argsHeld := by simp [finishSession]
@[simp] theorem finishSession_key : (finishSession ag tp s).key = s.key := by simp [finishSession]
@[simp] theorem finishSession_nonce : (finishSession ag tp s).nonce = s.nonce := by simp [finishSession]
@[simp] theorem finishSession_polyR : (finishSession ag tp s).polyR = s.polyR := by simp [finishSession]
@[simp] theorem finishSession_polyS : (finishSession ag tp s).polyS = s.polyS := by simp [finishSession]
@[simp] theorem finishSession_ctxHeld : (finishSession ag tp s).ctxHeld = s.ctxHeld := by simp [finishSession]
@[simp] theorem finishSession_accAny : (finishSession ag tp s).accAny = s.accAny := by simp [finishSession]
@[simp] theorem finishSession_job : (finishSession ag tp s).job = s.job := by simp [finishSession]
@[simp] theorem finishSession_baseIndex : (finishSession ag tp s).baseIndex = s.baseIndex := by simp [finishSession]
@[simp] theorem finishSession_absent : (finishSession ag tp s).absent = s.absent := by simp [finishSession]
@[simp] theorem finishSession_devices : (finishSession ag tp s).devices = s.devices := by simp [finishSession]
@[simp] theorem finishSession_inbox : (finishSession ag tp s).inbox = s.inbox := by simp [finishSession]
@[simp] theorem finishSession_turns : (finishSession ag tp s).turns = s.turns := by simp [finishSession]
@[simp] theorem finishSession_busData : (finishSession ag tp s).busData = s.busData := by simp [finishSession]
@[simp] theorem finishSession_loadData : (finishSession ag tp s).loadData = s.loadData := by simp [finishSession]
@[simp] theorem finishSession_ctrExh : (finishSession ag tp s).ctrExh = s.ctrExh := by simp [finishSession]
@[simp] theorem finishSession_ctr : (finishSession ag tp s).ctr = s.ctr := by simp [finishSession]
@[simp] theorem finishSession_payloadBytes : (finishSession ag tp s).payloadBytes = s.payloadBytes := by simp [finishSession]
@[simp] theorem finishSession_session : (finishSession ag tp s).session = .finalized := rfl
@[simp] theorem finishSession_ch0Owned : (finishSession ag tp s).ch0Owned = false := rfl
@[simp] theorem finishSession_ch1Owned : (finishSession ag tp s).ch1Owned = false := rfl
@[simp] theorem finishSession_tag0 : (finishSession ag tp s).tag0 = wordAt (finalTag s) 0 := rfl
@[simp] theorem finishSession_tag1 : (finishSession ag tp s).tag1 = wordAt (finalTag s) 1 := rfl
@[simp] theorem finishSession_tag2 : (finishSession ag tp s).tag2 = wordAt (finalTag s) 2 := rfl
@[simp] theorem finishSession_tag3 : (finishSession ag tp s).tag3 = wordAt (finalTag s) 3 := rfl
@[simp] theorem finishSession_tagAny : (finishSession ag tp s).tagAny = false := rfl
@[simp] theorem finishSession_acc : (finishSession ag tp s).acc = finalAcc s := by simp [finishSession]
@[simp] theorem finishSession_mem :
    (finishSession ag tp s).mem = (storeBytes tp.toNat (tagBytes (finalTag s)) s).mem := by
  simp only [finishSession, releaseChannels_mem, writeTag_mem, engineWrite_mem, storeBytes]; split <;> simp
@[simp] theorem finishSession_anyMem :
    (finishSession ag tp s).anyMem = (storeBytes tp.toNat (tagBytes (finalTag s)) s).anyMem := by
  simp only [finishSession, releaseChannels_anyMem, writeTag_anyMem, engineWrite_anyMem, storeBytes]; split <;> simp

end finishSession

section bodyOf
variable (ag : Agent) (c : Command) (s : State)

@[simp] theorem bodyOf_err : (bodyOf ag c s).err = s.err := by
  cases c <;> simp [bodyOf, initBody, updateExclBody, updateInclBody, aeadBody]
@[simp] theorem bodyOf_backend : (bodyOf ag c s).backend = s.backend := by
  cases c <;> simp [bodyOf, initBody, updateExclBody, updateInclBody, aeadBody]
@[simp] theorem bodyOf_lock : (bodyOf ag c s).lock = s.lock := by
  cases c <;> simp [bodyOf, initBody, updateExclBody, updateInclBody, aeadBody]
@[simp] theorem bodyOf_dir : (bodyOf ag c s).dir = s.dir := by
  cases c <;> simp [bodyOf, initBody, updateExclBody, updateInclBody, aeadBody]
@[simp] theorem bodyOf_errlog : (bodyOf ag c s).errlog = s.errlog := by
  cases c <;> simp [bodyOf, initBody, updateExclBody, updateInclBody, aeadBody]
@[simp] theorem bodyOf_args : (bodyOf ag c s).args = s.args := by
  cases c <;> simp [bodyOf, initBody, updateExclBody, updateInclBody, aeadBody]
@[simp] theorem bodyOf_argsHeld : (bodyOf ag c s).argsHeld = s.argsHeld := by
  cases c <;> simp [bodyOf, initBody, updateExclBody, updateInclBody, aeadBody]
@[simp] theorem bodyOf_key : (bodyOf ag c s).key = s.key := by
  cases c <;> simp [bodyOf, initBody, updateExclBody, updateInclBody, aeadBody]
@[simp] theorem bodyOf_nonce : (bodyOf ag c s).nonce = s.nonce := by
  cases c <;> simp [bodyOf, initBody, updateExclBody, updateInclBody, aeadBody]
@[simp] theorem bodyOf_polyR : (bodyOf ag c s).polyR = s.polyR := by
  cases c <;> simp [bodyOf, initBody, updateExclBody, updateInclBody, aeadBody]
@[simp] theorem bodyOf_polyS : (bodyOf ag c s).polyS = s.polyS := by
  cases c <;> simp [bodyOf, initBody, updateExclBody, updateInclBody, aeadBody]
@[simp] theorem bodyOf_ctxHeld : (bodyOf ag c s).ctxHeld = s.ctxHeld := by
  cases c <;> simp [bodyOf, initBody, updateExclBody, updateInclBody, aeadBody]
@[simp] theorem bodyOf_accAny : (bodyOf ag c s).accAny = s.accAny := by
  cases c <;> simp [bodyOf, initBody, updateExclBody, updateInclBody, aeadBody]
@[simp] theorem bodyOf_job : (bodyOf ag c s).job = s.job := by
  cases c <;> simp [bodyOf, initBody, updateExclBody, updateInclBody, aeadBody]
@[simp] theorem bodyOf_baseIndex : (bodyOf ag c s).baseIndex = s.baseIndex := by
  cases c <;> simp [bodyOf, initBody, updateExclBody, updateInclBody, aeadBody]
@[simp] theorem bodyOf_absent : (bodyOf ag c s).absent = s.absent := by
  cases c <;> simp [bodyOf, initBody, updateExclBody, updateInclBody, aeadBody]
@[simp] theorem bodyOf_devices : (bodyOf ag c s).devices = s.devices := by
  cases c <;> simp [bodyOf, initBody, updateExclBody, updateInclBody, aeadBody]
@[simp] theorem bodyOf_inbox : (bodyOf ag c s).inbox = s.inbox := by
  cases c <;> simp [bodyOf, initBody, updateExclBody, updateInclBody, aeadBody]
@[simp] theorem bodyOf_turns : (bodyOf ag c s).turns = s.turns := by
  cases c <;> simp [bodyOf, initBody, updateExclBody, updateInclBody, aeadBody]
@[simp] theorem bodyOf_busData : (bodyOf ag c s).busData = s.busData := by
  cases c <;> simp [bodyOf, initBody, updateExclBody, updateInclBody, aeadBody]
@[simp] theorem bodyOf_loadData : (bodyOf ag c s).loadData = s.loadData := by
  cases c <;> simp [bodyOf, initBody, updateExclBody, updateInclBody, aeadBody]

end bodyOf

/-! ## Lengths -/

@[simp] theorem bytesLe_length (v n : Nat) : (bytesLe v n).length = n := by
  induction n generalizing v with
  | zero => rfl
  | succ n ih => simp [bytesLe, ih]

@[simp] theorem tagBytes_length (t : BitVec 128) : (tagBytes t).length = 16 := by simp [tagBytes]

/-- A keystream block is 64 bytes (R69). -/
@[simp] theorem chachaBlock_length (key : BitVec 256) (ctr : Word) (nonce : BitVec 96) :
    (chachaBlock key ctr nonce).length = 64 := by
  unfold chachaBlock
  simp [List.length_flatMap]

theorem blockOutput_length {inA k : Nat} {s : State} (hk : k ≤ 64) : (blockOutput inA k s).length = k := by
  simp [blockOutput, blockInput, xorPrefix, xorBytes]; omega

/-- Every block of the payload procedure writes inside the piece's output range only, and gives it no more than its
bytes: outside `[outA, outA + len)` nothing changes. -/
theorem payloadBlocks_outside (ag : Agent) (n inA outA len : Nat) (s : State) {a : Nat} (hn : 64 * n < len + 64)
    (h : a < outA ∨ outA + len ≤ a) : SameByte s (payloadBlocks ag n inA outA len s) a := by
  induction n generalizing inA outA len s with
  | zero => exact SameByte.refl s a
  | succ n ih =>
    refine SameByte.trans (t := payloadBlock ag inA outA (min 64 len) s) ?_ ?_
    · have := storeBytes_outside (s := s) (a := outA) (x := a) (bs := blockOutput inA (min 64 len) s)
        (by rw [blockOutput_length (by omega)]; omega)
      simpa [SameByte] using this
    · exact ih _ _ _ _ (by omega) (by omega)

theorem blocksOf_bound (n : Nat) : 64 * blocksOf n < n + 64 := by unfold blocksOf; omega

/-- The payload procedure changes no byte outside its output range (R98). -/
theorem processPayload_outside (ag : Agent) (p : PayloadArgs) (s : State) :
    MemSameOutside [outBuffer p] s (processPayload ag p s) := by
  intro a ha
  have ha := ha _ (List.mem_singleton_self _)
  simp only [InRegion, outBuffer, buffer] at ha
  exact payloadBlocks_outside ag _ _ _ _ s (blocksOf_bound _) (by omega)

/-! ## The record of accesses (R39, R48) -/

/-- A block records its read, then its write. -/
theorem payloadBlock_accessLog (ag : Agent) {inA outA k : Nat} (s : State) (h0 : 0 < k) (hk : k ≤ 64) :
    (payloadBlock ag inA outA k s).accessLog =
      { agent := ag, kind := .write, addr := outA, len := k } ::
        { agent := ag, kind := .read, addr := inA, len := k } :: s.accessLog := by
  simp [payloadBlock, logAccess, afterRead, blockOutput_length hk, Nat.ne_of_gt h0]

/-- A run of blocks records each block's accesses in turn. -/
theorem payloadBlocks_accessLog (ag : Agent) (n inA outA len : Nat) (s : State) (hn : 64 * n < len + 64) :
    (payloadBlocks ag n inA outA len s).accessLog =
      (List.range n).reverse.flatMap (fun i =>
        [{ agent := ag, kind := .write, addr := outA + 64 * i, len := min 64 (len - 64 * i) },
         { agent := ag, kind := .read, addr := inA + 64 * i, len := min 64 (len - 64 * i) }]) ++ s.accessLog := by
  induction n generalizing inA outA len s with
  | zero => rfl
  | succ n ih =>
    rw [payloadBlocks, ih _ _ _ _ (by omega), payloadBlock_accessLog ag s (by omega) (by omega), List.range_succ_eq_map]
    simp only [← List.map_reverse, List.reverse_cons, List.flatMap_append, List.flatMap_map, Nat.mul_succ]
    simp [Nat.sub_sub, Nat.add_assoc, Nat.add_comm 64]

/-- The payload procedure records the accesses of its blocks in increasing order (R48). -/
theorem processPayload_accessLog (ag : Agent) (p : PayloadArgs) (s : State) :
    (processPayload ag p s).accessLog = payloadAccesses ag p ++ s.accessLog :=
  payloadBlocks_accessLog ag _ _ _ _ s (blocksOf_bound _)

/-- Absorbing the AAD records its read. -/
theorem absorbAad_accessLog (ag : Agent) (a : InitArgs) (s : State) :
    (absorbAad ag a s).accessLog = aadAccesses ag a.aadPtr a.aadLen ++ s.accessLog := by
  have h : a.aadLen.toNat = 0 ↔ a.aadLen = 0#32 := by rw [← BitVec.toNat_inj]; rfl
  by_cases hl : a.aadLen = 0#32 <;> simp [absorbAad, aadAccesses, afterRead, logAccess, h, hl]

/-- Finishing a session records the write of the tag, last (R48). -/
theorem finishSession_accessLog (ag : Agent) (tp : Word) (s : State) :
    (finishSession ag tp s).accessLog =
      { agent := ag, kind := .write, addr := tp.toNat, len := 16 } :: s.accessLog := by
  simp [finishSession, logAccess]

end Sys2Proof.Machine
end

