-- ==== Sys2Proof/Laws/Exec.lean ====
section
/-! SUPPORT. All that a command can do, said once (R94): what exec answers with a next state, and where it answers one. -/

namespace Sys2Proof.Machine

/-- The command that an instruction issues, with its snapshotted operands, and what its checks give (R61, R101 to
R104). None for an instruction without a body, and where an ARG it names holds no value. -/
def issuedBy (i : Instr) (s : State) : Option (Command × Option ErrCode) :=
  match i with
  | .setBackendCpu => none
  | .setBackendDma => none
  | .initEnc    => (initArgs s).map (fun a => (.init .encrypt a, initError s a))
  | .initDec    => (initArgs s).map (fun a => (.init .decrypt a, initError s a))
  | .updateExcl => (updateExclArgs s).map (fun p => (.updateExcl p, updateExclError s p))
  | .updateIncl => (updateInclArgs s).map (fun q => (.updateIncl q.1 q.2, updateInclError s q.1 q.2))
  | .aeadEnc    => (aeadArgs s).map (fun q => (.aead .encrypt q.1 q.2.1 q.2.2, aeadError s q.1 q.2.1 q.2.2))
  | .aeadDec    => (aeadArgs s).map (fun q => (.aead .decrypt q.1 q.2.1 q.2.2, aeadError s q.1 q.2.1 q.2.2))
  | .release    => none
  | .genBlock   => none

/-- An instruction that issues a command does so by the steps of R94 after the snapshot. -/
theorem exec_issued {i : Instr} {s : State} {c : Command} {e : Option ErrCode} (hj : s.job = none)
    (h : issuedBy i s = some (c, e)) : exec i s = issue c e s := by
  cases i <;> simp only [issuedBy, Option.map_eq_some_iff, Prod.mk.injEq, reduceCtorEq] at h
  all_goals
    obtain ⟨a, ha, rfl, rfl⟩ := h
    simp only [exec, execInitEnc, execInitDec, initCommand, execUpdateExcl, execUpdateIncl, execAeadEnc, execAeadDec,
      aeadCommand, unlessBusy_idle _ hj, ha]

/-- No check of a command raises OK. -/
theorem issuedBy_error {i : Instr} {s : State} {c : Command} {e : ErrCode} (h : issuedBy i s = some (c, some e)) :
    e ≠ .ok := by
  rintro rfl
  cases i <;> simp only [issuedBy, Option.map_eq_some_iff, Prod.mk.injEq, reduceCtorEq] at h
  all_goals
    obtain ⟨a, -, -, h⟩ := h
    simp only [initError, updateExclError, updateInclError, aeadError] at h
    repeat' split at h
    all_goals cases h

/-- Only the updates raise ALREADY_FINALIZED, and only in FINALIZED. -/
theorem issuedBy_alreadyFinalized {i : Instr} {s : State} {c : Command}
    (h : issuedBy i s = some (c, some .alreadyFinalized)) :
    s.session = .finalized ∧ (i = .updateExcl ∨ i = .updateIncl) := by
  cases i <;> simp only [issuedBy, Option.map_eq_some_iff, Prod.mk.injEq, reduceCtorEq] at h
  all_goals
    obtain ⟨a, -, -, h⟩ := h
    simp only [initError, updateExclError, updateInclError, aeadError] at h
    repeat' split at h
    all_goals first | (cases h; simp_all) | cases h

/-- Where a command answers a next state: it raised an error, or it is SET_BACKEND, RELEASE or GEN_BLOCK accepted, or a
command with a body whose checks and refusals all pass. -/
theorem exec_cases {i : Instr} {s t : State} (h : exec i s = .next t) :
    (∃ e, e ≠ .ok ∧
      (e = .alreadyFinalized → s.job = none ∧ s.session = .finalized ∧ (i = .updateExcl ∨ i = .updateIncl)) ∧
      t = raiseErr e s) ∨
    (s.job = none ∧ s.lock = false ∧ ∃ b, (i = .setBackendCpu ∧ b = .cpu ∨ i = .setBackendDma ∧ b = .dma) ∧
      t = setErr .ok { s with backend := b }) ∨
    (s.job = none ∧ i = .release ∧ t = releaseSession s) ∨
    (s.job = none ∧ i = .genBlock ∧ ∃ a, genArgs s = some a ∧ genError a = none ∧
      bufferRefusal s (genBuffers a) (genBuffers a) none = none ∧ t = genEffect a s) ∨
    (s.job = none ∧ ∃ c, issuedBy i s = some (c, none) ∧
      bufferRefusal s (keyRanges c ++ bodyRanges c) (accessedWithin s c) (payloadOf c) = none ∧
      launch c s = .next t) := by
  by_cases hj : s.job = none
  · cases hi : issuedBy i s with
    | some ce =>
      obtain ⟨c, e⟩ := ce
      rw [exec_issued hj hi] at h
      rcases issue_cases h with ⟨e', rfl, rfl⟩ | ⟨rfl, h1, h2⟩
      · exact .inl ⟨e', issuedBy_error hi, fun h => ⟨hj, issuedBy_alreadyFinalized (h ▸ hi)⟩, rfl⟩
      · exact .inr (.inr (.inr (.inr ⟨hj, c, rfl, h1, h2⟩)))
    | none =>
      cases i <;>
        simp only [exec, execInitEnc, execInitDec, initCommand, execUpdateExcl, execUpdateIncl, execAeadEnc,
          execAeadDec, aeadCommand, execSetBackendCpu, execSetBackendDma, setBackend, execRelease, execGenBlock,
          unlessBusy_idle _ hj] at h <;>
        simp only [issuedBy, Option.map_eq_none_iff] at hi
      case setBackendCpu =>
        split at h <;> injection h with h <;> subst h
        · exact .inl ⟨_, by decide, fun h => (by cases h), rfl⟩
        · exact .inr (.inl ⟨hj, Bool.eq_false_iff.2 ‹¬ s.lock = true›, .cpu, .inl ⟨rfl, rfl⟩, rfl⟩)
      case setBackendDma =>
        split at h <;> injection h with h <;> subst h
        · exact .inl ⟨_, by decide, fun h => (by cases h), rfl⟩
        · exact .inr (.inl ⟨hj, Bool.eq_false_iff.2 ‹¬ s.lock = true›, .dma, .inr ⟨rfl, rfl⟩, rfl⟩)
      case release =>
        injection h with h
        exact .inr (.inr (.inl ⟨hj, rfl, h.symm⟩))
      case genBlock =>
        split at h
        · cases h
        · rename_i a ha
          split at h
          · rename_i e he
            injection h with h
            refine .inl ⟨e, ?_, ?_, h.symm⟩ <;>
            · rintro rfl
              simp only [genError] at he
              split at he <;> cases he
          · split at h
            · cases h
            · injection h with h
              exact .inr (.inr (.inr (.inl ⟨hj, rfl, a, ha, ‹_›, ‹_›, h.symm⟩)))
      all_goals simp [hi] at h
  · refine .inl ⟨.busyReject, by decide, fun h => (by cases h), ?_⟩
    cases i <;>
      simp only [exec, execInitEnc, execInitDec, initCommand, execUpdateExcl, execUpdateIncl, execAeadEnc, execAeadDec,
        aeadCommand, execSetBackendCpu, execSetBackendDma, setBackend, execRelease, execGenBlock,
        unlessBusy_busy _ hj] at h <;>
      · injection h with h
        rw [← h]; rfl

end Sys2Proof.Machine
end

