-- ==== Sys2Proof/Laws/Accept.lean ====
section
/-! SUPPORT. The accept part of a command (R94 step 6, R99, R113), and the bodies on memory: what they change and leave
alone. -/

namespace Sys2Proof.Machine

/-! ## The accept part -/

section acceptPart
variable (c : Command) (s : State)

@[simp] theorem acceptPart_session : (acceptPart c s).session = s.session := by
  cases c <;> simp only [acceptPart] <;> (try split) <;> simp
@[simp] theorem acceptPart_errlog : (acceptPart c s).errlog = s.errlog := by
  cases c <;> simp only [acceptPart] <;> (try split) <;> simp
@[simp] theorem acceptPart_backend : (acceptPart c s).backend = s.backend := by
  cases c <;> simp only [acceptPart] <;> (try split) <;> simp
@[simp] theorem acceptPart_args : (acceptPart c s).args = s.args := by
  cases c <;> simp only [acceptPart] <;> (try split) <;> simp
@[simp] theorem acceptPart_argsHeld : (acceptPart c s).argsHeld = s.argsHeld := by
  cases c <;> simp only [acceptPart] <;> (try split) <;> simp
@[simp] theorem acceptPart_job : (acceptPart c s).job = s.job := by
  cases c <;> simp only [acceptPart] <;> (try split) <;> simp
@[simp] theorem acceptPart_mem : (acceptPart c s).mem = s.mem := by
  cases c <;> simp only [acceptPart] <;> (try split) <;> simp
@[simp] theorem acceptPart_anyMem : (acceptPart c s).anyMem = s.anyMem := by
  cases c <;> simp only [acceptPart] <;> (try split) <;> simp
@[simp] theorem acceptPart_baseIndex : (acceptPart c s).baseIndex = s.baseIndex := by
  cases c <;> simp only [acceptPart] <;> (try split) <;> simp
@[simp] theorem acceptPart_absent : (acceptPart c s).absent = s.absent := by
  cases c <;> simp only [acceptPart] <;> (try split) <;> simp
@[simp] theorem acceptPart_devices : (acceptPart c s).devices = s.devices := by
  cases c <;> simp only [acceptPart] <;> (try split) <;> simp
@[simp] theorem acceptPart_inbox : (acceptPart c s).inbox = s.inbox := by
  cases c <;> simp only [acceptPart] <;> (try split) <;> simp
@[simp] theorem acceptPart_turns : (acceptPart c s).turns = s.turns := by
  cases c <;> simp only [acceptPart] <;> (try split) <;> simp
@[simp] theorem acceptPart_busData : (acceptPart c s).busData = s.busData := by
  cases c <;> simp only [acceptPart] <;> (try split) <;> simp
@[simp] theorem acceptPart_loadData : (acceptPart c s).loadData = s.loadData := by
  cases c <;> simp only [acceptPart] <;> (try split) <;> simp
@[simp] theorem acceptPart_err : (acceptPart c s).err = .ok := by
  cases c <;> simp only [acceptPart] <;> (try split) <;> simp
end acceptPart

/-- The accept part of a command that goes on with a session sets ERR and nothing else (R102, R103). -/
theorem acceptPart_update {c : Command} {s : State} (h : beginsSession c = false) : acceptPart c s = setErr .ok s := by
  cases c <;> first | rfl | cases h

/-- The accept part of a command that begins a session is the session load, with the channels in the DMA backend (R99,
R113). -/
theorem acceptPart_init (m : Dir) (a : InitArgs) (s : State) : acceptPart (.init m a) s =
    if s.backend = .dma then acquireChannels (sessionLoad m a (setErr .ok s)) else sessionLoad m a (setErr .ok s) := rfl

theorem acceptPart_aead (m : Dir) (a : InitArgs) (p : PayloadArgs) (t : Word) (s : State) :
    acceptPart (.aead m a p t) s =
      if s.backend = .dma then acquireChannels (sessionLoad m a (setErr .ok s)) else sessionLoad m a (setErr .ok s) := rfl

/-! ## The bodies on memory -/

/-- The finalisation changes no byte outside the tag buffer. -/
theorem finishSession_outside (ag : Agent) (tp : Word) (s : State) :
    MemSameOutside [tagBuffer tp] s (finishSession ag tp s) := by
  intro a ha
  have ha := ha _ (List.mem_singleton_self _)
  simp only [InRegion, tagBuffer, buffer] at ha
  have := storeBytes_outside (s := s) (a := tp.toNat) (x := a) (bs := tagBytes (finalTag s)) (by simp; omega)
  simpa [SameByte] using this

theorem MemSameOutside.mono {rs qs : List Region} {s t : State} (h : MemSameOutside rs s t) (hs : ∀ r ∈ rs, r ∈ qs) :
    MemSameOutside qs s t := fun a ha => h a (fun r hr => ha r (hs r hr))

theorem MemSameOutside.trans {rs : List Region} {s t u : State} (h : MemSameOutside rs s t)
    (k : MemSameOutside rs t u) : MemSameOutside rs s u := fun a ha => (h a ha).trans (k a ha)

theorem MemSameOutside.of_mem_eq {rs : List Region} {s t : State} (h : t.mem = s.mem) (k : t.anyMem = s.anyMem) :
    MemSameOutside rs s t := fun _ _ => .of_mem_eq h k

/-- A body changes no byte outside the output ranges of its command (R98, R103, R116). -/
theorem bodyOf_outside (ag : Agent) (c : Command) (s : State) :
    MemSameOutside (outputRanges c) s (bodyOf ag c s) := by
  cases c with
  | init d a => exact .of_mem_eq (by simp [bodyOf, initBody]) (by simp [bodyOf, initBody])
  | updateExcl p =>
    refine .trans (t := processPayload ag p s) ?_ (.of_mem_eq rfl rfl)
    exact (processPayload_outside ag p s).mono (by simp [outputRanges, transfersOf, tagRanges, outBuffer])
  | updateIncl p t =>
    refine .trans (t := processPayload ag p s) ?_ ?_
    · exact (processPayload_outside ag p s).mono (by simp [outputRanges, transfersOf, tagRanges, outBuffer])
    · exact (finishSession_outside ag t _).mono (by simp [outputRanges, transfersOf, tagRanges])
  | aead d a p t =>
    refine .trans (t := absorbAad ag a s) (.of_mem_eq (by simp) (by simp))
      (.trans (t := processPayload ag p (absorbAad ag a s)) ?_ ?_)
    · exact (processPayload_outside ag p _).mono (by simp [outputRanges, transfersOf, tagRanges, outBuffer])
    · exact (finishSession_outside ag t _).mono (by simp [outputRanges, transfersOf, tagRanges])

end Sys2Proof.Machine
end

