-- ==== Sys2Proof/Laws/PerInstr.lean ====
section
/-! SUPPORT. A law of every instruction as syntax: its word is legal and its reserved field is 0. -/

namespace Sys2Proof.Laws

/-- The command's word is legal (R63) and its RSV field is 0 (R58). -/
def LegalWord.Statement (i : Instr) : Prop :=
  i.WellFormed ∧ (cmdFields (encode i)).rsv = 0

theorem LegalWord.setBackendCpu : LegalWord.Statement .setBackendCpu := ⟨by rfl, by rfl⟩
theorem LegalWord.setBackendDma : LegalWord.Statement .setBackendDma := ⟨by rfl, by rfl⟩
theorem LegalWord.initEnc : LegalWord.Statement .initEnc := ⟨by rfl, by rfl⟩
theorem LegalWord.initDec : LegalWord.Statement .initDec := ⟨by rfl, by rfl⟩
theorem LegalWord.updateExcl : LegalWord.Statement .updateExcl := ⟨by rfl, by rfl⟩
theorem LegalWord.updateIncl : LegalWord.Statement .updateIncl := ⟨by rfl, by rfl⟩
theorem LegalWord.aeadEnc : LegalWord.Statement .aeadEnc := ⟨by rfl, by rfl⟩
theorem LegalWord.aeadDec : LegalWord.Statement .aeadDec := ⟨by rfl, by rfl⟩
theorem LegalWord.release : LegalWord.Statement .release := ⟨by rfl, by rfl⟩
theorem LegalWord.genBlock : LegalWord.Statement .genBlock := ⟨by rfl, by rfl⟩

end Sys2Proof.Laws
end

