-- ==== Sys2Proof/Tests/Slice0.lean ====
section
/-! SUPPORT. Tests. Expected values are those of spec/95_test_vectors.md (V1 to V16, P1 to P5), and words written out
from the format of R58. After them, for each statement of the certificates that has hypotheses, a witness that they can be
met together. -/

namespace Sys2Proof.Tests

open Sys2Proof.Machine

/- One theorem after the other: the kernel evaluations below would otherwise wait in a thread each. -/
set_option Elab.async false

/-! ## Helpers -/

/-- ARG0, ARG1, ... hold the given values and the other ARGs no value. -/
def withArgs (vs : List Word) (s : State) : State :=
  { s with args := Vector.ofFn (fun i => vs.getD i.val 0), argsHeld := Vector.ofFn (fun i => decide (i.val < vs.length)) }

def withMem (a : Nat) (bs : List Byte) (s : State) : State := { s with mem := memPut s.mem a bs }

def bytesOf (ns : List Nat) : List Byte := ns.map (BitVec.ofNat 8)

/-- The outcome is a next state with the property. -/
def nextIs (o : Out) (p : State → Bool) : Bool :=
  match o with
  | .next t => p t
  | _       => false

theorem of_nextIs {o : Out} {p : State → Bool} (h : nextIs o p = true) : ∃ t, o = .next t ∧ p t = true := by
  cases o with
  | next t => exact ⟨t, rfl, h⟩
  | fault f => cases h
  | refused r => cases h

/-- The outcome is that refusal. -/
def refusedAs (o : Out) (r : Refusal) : Bool :=
  match o with
  | .refused q => q == r
  | _          => false

/-- A session in progress with key0 and nonce0, as INIT with no AAD leaves it (R99, R101). -/
def inSession (b : Backend) (d : Dir) (ctr : Word) : State :=
  { State.reset with
    session := .aadDone, backend := b, lock := true, ch0Owned := b == .dma, ch1Owned := b == .dma, dir := d, ctr := ctr,
    polyR := 0x08bd8650056a5d40003df1a00de0b876, polyS := 0xc70d778bccef36a81aed8da0b819d2bd, ctxHeld := true }

/-- The operands of UPDATE_EXCL and UPDATE_INCL in the layout of the test vectors. -/
def updateArgs (len : Word) (s : State) : State := withArgs [0x1000, 0x2000, len, 0x3000] s

/-- The operands of INIT with key0, nonce0 and no AAD. -/
def initOps (ctr : Word) (s : State) : State := withArgs [0x100, 0, 0, 0, 0, 0, ctr] s

/-- UPDATE_EXCL of one block is in flight (V14). -/
def jobState (raced : Bool) : State :=
  { updateArgs 64 (inSession .dma .encrypt 1) with
    job := some { cmd := .updateExcl { inPtr := 0x1000, outPtr := 0x2000, len := 64 }, raced := raced } }

/-- STATE = FAULTED as V14 leaves it, with every ARG written. -/
def faultedState : State :=
  { withArgs (List.replicate 16 1) State.reset with
    session := .faulted, err := .hardwareFault, errlog := 0xA0, backend := .dma, lock := true, ch0Owned := true,
    ch1Owned := true, tagAny := true, anyMem := List.range' 0x2000 64 }

def sunscreen : List Byte :=
  bytesOf (("Ladies and Gentlemen of the class of '99: If I could offer you only one tip for the future, " ++
    "sunscreen would be it.").toList.map Char.toNat)

/-- The ciphertext of V6. -/
def sunscreenCiphertext : List Byte :=
  bytesOf
   [0xd3, 0x1a, 0x8d, 0x34, 0x64, 0x8e, 0x60, 0xdb, 0x7b, 0x86, 0xaf, 0xbc, 0x53, 0xef, 0x7e, 0xc2, 0xa4, 0xad, 0xed,
    0x51, 0x29, 0x6e, 0x08, 0xfe, 0xa9, 0xe2, 0xb5, 0xa7, 0x36, 0xee, 0x62, 0xd6, 0x3d, 0xbe, 0xa4, 0x5e, 0x8c, 0xa9,
    0x67, 0x12, 0x82, 0xfa, 0xfb, 0x69, 0xda, 0x92, 0x72, 0x8b, 0x1a, 0x71, 0xde, 0x0a, 0x9e, 0x06, 0x0b, 0x29, 0x05] ++
  bytesOf
   [0xd6, 0xa5, 0xb6, 0x7e, 0xcd, 0x3b, 0x36, 0x92, 0xdd, 0xbd, 0x7f, 0x2d, 0x77, 0x8b, 0x8c, 0x98, 0x03, 0xae, 0xe3,
    0x28, 0x09, 0x1b, 0x58, 0xfa, 0xb3, 0x24, 0xe4, 0xfa, 0xd6, 0x75, 0x94, 0x55, 0x85, 0x80, 0x8b, 0x48, 0x31, 0xd7,
    0xbc, 0x3f, 0xf4, 0xde, 0xf0, 0x8e, 0x4b, 0x7a, 0x9d, 0xe5, 0x76, 0xd2, 0x65, 0x86, 0xce, 0xc6, 0x4b, 0x61, 0x16]

/-- The key, the AAD and a payload of RFC 8439 §2.8.2 in the layout of the test vectors (V6). -/
def rfcMemory (payload : List Byte) : State :=
  withMem 0x100 (bytesOf (List.range' 0x80 32))
    (withMem 0x200 (bytesOf [0x50, 0x51, 0x52, 0x53, 0xc0, 0xc1, 0xc2, 0xc3, 0xc4, 0xc5, 0xc6, 0xc7])
      (withMem 0x1000 payload State.reset))

/-- The operands of an AEAD of V6 with the given output pointer. -/
def rfcArgs (out : Word) (s : State) : State :=
  withArgs [0x100, 7, 0x43424140, 0x47464544, 0x200, 12, 1, 0x1000, out, 114, 0x3000] s

/-- The operands of an AEAD with key0 and nonce0. -/
def aeadOps (alen ctr len : Word) (s : State) : State :=
  withArgs [0x100, 0, 0, 0, 0x200, alen, ctr, 0x1000, 0x2000, len, 0x3000] s

/-! ## Well-formedness smoke tests: each check refuses an ill-formed term -/

theorem test_opcKnown_refuses : [(0x00 : BitVec 8), 0x08, 0xFF].all
    (fun o => !(CmdWord.legal { rsv := 0, m := 0, opc := o }) && !(CmdWord.opcKnown { rsv := 0, m := 0, opc := o })) =
    true := by decide
theorem test_rsvZero_refuses : CmdWord.legal { rsv := 1, m := 0, opc := 1 } = false := by decide
theorem test_modeAllowed_refuses : [(0x03 : BitVec 8), 0x04, 0x06, 0x07].all
    (fun o => !(CmdWord.legal { rsv := 0, m := 1, opc := o })) = true := by decide
theorem test_legal_accepts : [(0x01 : BitVec 8), 0x02, 0x05].all
    (fun o => CmdWord.legal { rsv := 0, m := 1, opc := o } && CmdWord.legal { rsv := 0, m := 0, opc := o }) = true := by
  decide
theorem test_accessAligned_refuses :
    accessAligned 0x04 .w8 = false ∧ accessAligned 0x04 .w16 = false ∧ accessAligned 0x02 .w32 = false := by decide
theorem test_offsetMapped_refuses : offsetMapped 0x30 = false ∧ offsetMapped 0x3C = false ∧ offsetMapped 0x80 = false ∧
    offsetMapped 0x2C = true ∧ offsetMapped 0x40 = true ∧ offsetMapped 0x7C = true := by decide
theorem test_wellFormed_commands : Instr.setBackendCpu.WellFormed ∧ Instr.aeadDec.WellFormed := by
  unfold Instr.WellFormed; decide

/-! ## Decoding words written out from R58: bits 31:9 RSV, bit 8 M, bits 7:0 OPC (V15) -/

theorem test_decode_setBackend :
    decode 0b00000000000000000000000000000001 = .ok .setBackendCpu ∧
    decode 0b00000000000000000000000100000001 = .ok .setBackendDma := by decide
theorem test_decode_init :
    decode 0b00000000000000000000000000000010 = .ok .initEnc ∧
    decode 0b00000000000000000000000100000010 = .ok .initDec := by decide
theorem test_decode_updateExcl : decode 0b00000000000000000000000000000011 = .ok .updateExcl := by decide
theorem test_decode_updateIncl : decode 0b00000000000000000000000000000100 = .ok .updateIncl := by decide
theorem test_decode_aead :
    decode 0b00000000000000000000000000000101 = .ok .aeadEnc ∧
    decode 0b00000000000000000000000100000101 = .ok .aeadDec := by decide
theorem test_decode_release : decode 0b00000000000000000000000000000110 = .ok .release := by decide
theorem test_decode_genBlock : decode 0b00000000000000000000000000000111 = .ok .genBlock := by decide
theorem test_decode_illegal_opc : decode 0x00000000 = .illegal .opcode ∧ decode 0x00000008 = .illegal .opcode ∧
    decode 0x000000FF = .illegal .opcode := by decide
theorem test_decode_illegal_m : decode 0x00000103 = .illegal .modeBit ∧ decode 0x00000104 = .illegal .modeBit ∧
    decode 0x00000106 = .illegal .modeBit ∧ decode 0x00000107 = .illegal .modeBit := by decide
theorem test_decode_illegal_rsv : decode 0x00000201 = .illegal .reserved ∧ decode 0x80000002 = .illegal .reserved ∧
    decode 0xFFFFFFFF = .illegal .reserved := by decide
theorem test_decodeTableWord : decodeTableWord 32 0x105 = some .aeadDec ∧ decodeTableWord 32 0x103 = none ∧
    decodeTableWord 8 0x07 = some .genBlock := by decide

/-! ## The cipher and the accumulator -/

/-- V1 -/
theorem test_quarterRound :
    (let w := quarterRound (#v[0x11111111, 0x01020304, 0x9b8d6f43, 0x01234567, 0, 0, 0, 0, 0, 0, 0, 0, 0, 0, 0, 0]) 0 1 2 3
     [w[0], w[1], w[2], w[3]]) = [0xea2a92f4, 0xcb1cf8ce, 0x4581472e, 0x5881c4bb] := by decide +kernel
/-- V2 -/
theorem test_initialState :
    chachaInit (BitVec.ofNat 256 (leNat (bytesOf (List.range 32)))) 1 (nonceOf 0x09000000 0x4a000000 0) =
    #v[0x61707865, 0x3320646e, 0x79622d32, 0x6b206574, 0x03020100, 0x07060504, 0x0b0a0908, 0x0f0e0d0c, 0x13121110,
       0x17161514, 0x1b1a1918, 0x1f1e1d1c, 0x00000001, 0x09000000, 0x4a000000, 0x00000000] := by decide +kernel
/-- V5 -/
theorem test_polyKeygen : polyKeyR 0 0 = 0x08bd8650056a5d40003df1a00de0b876 ∧
    polyKeyS 0 0 = 0xc70d778bccef36a81aed8da0b819d2bd := by decide +kernel

/-! ## The commands, one step each -/

/-- P2 row 1 -/
theorem test_setBackend_dma : nextIs (exec .setBackendDma State.reset) (fun t => statusWord t == 0x100) = true := by
  decide +kernel
/-- V11: SET_BACKEND with LOCK = 1 -/
theorem test_setBackend_cpu_locked : nextIs (exec .setBackendCpu (inSession .cpu .decrypt 1))
    (fun t => statusWord t == 0x1241 && t.errlog == 0x10) = true := by decide +kernel
/-- P1 row 8 -/
theorem test_init_enc : nextIs (exec .initEnc (initOps 1 State.reset))
    (fun t => statusWord t == 0x201 && t.ctr == 1 && t.polyR == 0x08bd8650056a5d40003df1a00de0b876 && t.acc == 0) =
    true := by decide +kernel
/-- P2 row 9 -/
theorem test_init_enc_dma : nextIs (exec .initEnc (initOps 1 { State.reset with backend := .dma }))
    (fun t => statusWord t == 0xF08) = true := by decide +kernel
/-- P3 row 8 -/
theorem test_init_dec : nextIs (exec .initDec (initOps 1 State.reset)) (fun t => statusWord t == 0x1201) = true := by
  decide +kernel
/-- V12: one block at counter 0xFFFFFFFF; the output is the keystream block of V4 -/
theorem test_update_excl_last_block :
    nextIs (exec .updateExcl (updateArgs 64 (inSession .cpu .encrypt 0xFFFFFFFF)))
      (fun t => statusWord t == 0x2202 && t.ctr == 0 && t.payloadBytes == 64 &&
        memBytes t.mem 0x2000 4 == [0xac, 0xe4, 0xcd, 0x09] && memBytes t.mem 0x203C 4 == [0x23, 0xb5, 0x8b, 0x1d]) =
    true := by decide +kernel
/-- V12: two blocks at counter 0xFFFFFFFF -/
theorem test_update_excl_exhausted :
    nextIs (exec .updateExcl (updateArgs 128 (inSession .cpu .encrypt 0xFFFFFFFF)))
      (fun t => statusWord t == 0x221 && t.ctr == 0xFFFFFFFF && t.errlog == 0x4) = true := by decide +kernel
/-- P1 row 13 -/
theorem test_update_incl : nextIs (exec .updateIncl (updateArgs 64 (inSession .cpu .encrypt 1)))
    (fun t => statusWord t == 0x203 && t.ctr == 2 && t.payloadBytes == 64 &&
      [t.tag0, t.tag1, t.tag2, t.tag3] == [0x0E18C575, 0x21692DF5, 0x0A3D7A03, 0xC8DAF0F9] &&
      memBytes t.mem 0x3000 4 == [0x75, 0xc5, 0x18, 0x0e] && memBytes t.mem 0x2000 4 == [0x9f, 0x07, 0xe7, 0xbe]) =
    true := by decide +kernel
/-- V11: a tag pointer of 0 -/
theorem test_update_incl_null : nextIs (exec .updateIncl (withArgs [0, 0, 0, 0] (inSession .cpu .encrypt 1)))
    (fun t => statusWord t == 0x211 && t.errlog == 0x2) = true := by decide +kernel
/-- V6: the RFC's AEAD example -/
theorem test_aead_enc : nextIs (exec .aeadEnc (rfcArgs 0x2000 (rfcMemory sunscreen)))
    (fun t => statusWord t == 0x203 && t.ctr == 3 && t.aadBytes == 12 && t.payloadBytes == 114 &&
      [t.tag0, t.tag1, t.tag2, t.tag3] == [0x590be11a, 0x6ae2094f, 0xcb2e907e, 0x910660d0] &&
      memBytes t.mem 0x2000 4 == [0xd3, 0x1a, 0x8d, 0x34] && memBytes t.mem 0x2070 2 == [0x61, 0x16]) = true := by decide +kernel
/-- V7: one byte of AAD and one of payload, both padded: the tag is 1d7486be 1aea3bea c660e521 351450e2 -/
theorem test_aead_enc_padding :
    nextIs (exec .aeadEnc (aeadOps 1 1 1 (withMem 0x200 [1] (withMem 0x1000 [1] State.reset))))
      (fun t => t.ctr == 2 && [t.tag0, t.tag1, t.tag2, t.tag3] == [0xbe86741d, 0xea3bea1a, 0x21e560c6, 0xe2501435] &&
        memBytes t.mem 0x2000 2 == [0x9e, 0x00]) = true := by decide +kernel
/-- V9: the ciphertext decrypted in place -/
theorem test_aead_dec_in_place : nextIs (exec .aeadDec (rfcArgs 0x1000 (rfcMemory sunscreenCiphertext)))
    (fun t => statusWord t == 0x1203 && [t.tag0, t.tag3] == [0x590be11a, 0x910660d0] &&
      memBytes t.mem 0x1000 4 == sunscreen.take 4) = true := by decide +kernel
/-- V11 and V14: RELEASE from FAULTED -/
theorem test_release : nextIs (exec .release faultedState)
    (fun t => statusWord t == 0x300 && t.errlog == 0xA0 && !t.tagAny && !t.ctxHeld) = true := by decide +kernel
/-- V3 -/
theorem test_gen_block : nextIs (exec .genBlock (withArgs [0x100, 0x09000000, 0x4a000000, 0, 1, 0x2000]
      (withMem 0x100 (bytesOf (List.range 32)) State.reset)))
    (fun t => statusWord t == 0 && memBytes t.mem 0x2000 4 == [0x10, 0xf1, 0xe7, 0xe4] &&
      memBytes t.mem 0x203C 4 == [0xa2, 0x50, 0x3c, 0x4e]) = true := by decide +kernel
/-- V4: counter 0xFFFFFFFF is an ordinary input -/
theorem test_gen_block_last : nextIs (exec .genBlock (withArgs [0x100, 0, 0, 0, 0xFFFFFFFF, 0x2000] State.reset))
    (fun t => memBytes t.mem 0x2000 4 == [0xac, 0xe4, 0xcd, 0x09] && t.ctr == 0) = true := by decide +kernel

/-! ## The DMA agent, the register window, the HOST's programs -/

/-- V14: accept, then a second command while BUSY, then the completion with DMA_OK = false -/
theorem test_dma_accept : nextIs (exec .updateExcl (updateArgs 64 (inSession .dma .encrypt 1)))
    (fun t => statusWord t == 0xF09 && t.job == (jobState false).job) = true := by decide +kernel
theorem test_dma_busy : nextIs (exec .updateExcl (jobState false))
    (fun t => statusWord t == 0xF79 && t.errlog == 0x80) = true := by decide +kernel
theorem test_dma_fault : nextIs (dmaTurn false { jobState false with err := .busyReject, errlog := 0x80 })
    (fun t => statusWord t == 0xF54 && t.errlog == 0xA0 && t.anyMem == List.range' 0x2000 64) = true := by
  decide +kernel
/-- P2 row 18 -/
theorem test_dma_complete : nextIs (dmaTurn true (jobState false)) (fun t => statusWord t == 0xF02) = true := by
  decide +kernel
/-- V16 -/
theorem test_registers_after_reset : [0x00, 0x04, 0x08, 0x0C, 0x10, 0x14, 0x18, 0x1C, 0x20, 0x24, 0x28, 0x2C].all
    (fun off => nextIs (busRead off .w32 { State.reset with busData := 7 }) (fun t => t.busData == 0)) = true := by
  decide +kernel
/-- V11: after reset, a command whose named ARG was never written is a model fault (R129 MF1). -/
theorem test_v11_unwritten_argument : ∀ i ∈ [Instr.initEnc, .initDec, .updateExcl, .updateIncl, .aeadEnc, .aeadDec, .genBlock],
    refusedAs (exec i State.reset) .argNoValue = true := by decide +kernel

theorem test_register_refusals : refusedAs (busRead 0x40 .w32 State.reset) .hostArgNoValue = true ∧
    refusedAs (busRead 0x30 .w32 State.reset) .reservedOffset = true ∧
    refusedAs (busRead 0x04 .w8 State.reset) .badAccess = true ∧
    refusedAs (busRead 0x31 .w32 State.reset) .badAccess = true ∧
    refusedAs (hostOp .secondHost State.reset) .secondHost = true := by decide +kernel
/-- P1 rows 1 to 8: `init.enc 0x100, 0, 0, 0, 0, 1` -/
theorem test_expand_init : expand (.init .encrypt 0x100 0 0 0 0 1) =
    [.busWrite 0x40 .w32 0x100, .busWrite 0x44 .w32 0, .busWrite 0x48 .w32 0, .busWrite 0x4C .w32 0,
     .busWrite 0x50 .w32 0, .busWrite 0x54 .w32 0, .busWrite 0x58 .w32 1, .busWrite 0x00 .w32 0x00000002] := by
  decide +kernel
/-- P2 rows 4 and 5: the 64-bit iv splits into its low and its high word -/
theorem test_expand_iv : ivWords 0x4746454443424140 = [0x43424140, 0x47464544] := by decide +kernel
/-- A HOST write at the window's address is a register write: ARG15 stands at BASE + 0x7C (R21, R43) -/
theorem test_window_store : nextIs (hostStore 0x4000007C [0x78, 0x56, 0x34, 0x12] State.reset)
    (fun t => t.args[15] == 0x12345678 && t.argsHeld[15] && t.mem == []) = true := by decide +kernel
/-- The word withFetchWord places is run by the next step (P2 row 1) -/
theorem test_withFetchWord : nextIs (step (State.reset.withFetchWord 32 0x101)) (fun t => statusWord t == 0x100) = true := by
  decide +kernel

/-! ## Witnesses: for each statement with hypotheses, a state and operands that meet them together -/

theorem avoids_nil {r : Region} : AvoidsAll [] r := fun _ _ _ h => by cases h
theorem usable_plain {s : State} {r : Region} (ha : s.absent = []) (hd : s.devices = []) (h : Fits r) : Usable s r :=
  ⟨h, hd ▸ avoids_nil, ha ▸ avoids_nil⟩
theorem nameable_plain {s : State} {r : Region} (hd : s.devices = []) (h : Fits r) : Nameable s r := ⟨h, hd ▸ avoids_nil⟩
theorem definite_plain {s : State} {r : Region} (h : s.anyMem = []) : Definite s r := fun a _ => by simp [h]
theorem namedHeld_of {s : State} {n : Nat} (h : argsNamedHeld s n = true) : NamedHeld s n := (argsNamedHeld_iff s n).1 h

/-- Every ARG written with the given first words, the rest 1. -/
def allArgs (vs : List Word) (s : State) : State := withArgs (vs ++ List.replicate (16 - vs.length) 1) s

theorem witness_DecodeAndEncodeAgree : ∃ (w : Word) (i : Instr), decode w = .ok i := ⟨0x105, .aeadDec, by decide⟩

theorem witness_IllegalWordsRaiseIllegalCommand : ∃ w : Word, ∃ why, decode w = .illegal why := ⟨0x8, .opcode, by decide⟩

theorem witness_RegisterReadsReturnTheirValues :
    ∃ s : State, s.session ≠ .faulted ∧ s.tagAny = false ∧ ∀ i : Fin 16, s.argsHeld[i] = true :=
  ⟨allArgs [] State.reset, by decide +kernel⟩

theorem witness_AnyValueRegistersAreDrawn : ∃ s : State, s.session = .faulted ∧ s.tagAny = true :=
  ⟨faultedState, by decide +kernel⟩

/-- The last ARG each command names is the one that holds no value. -/
theorem witness_UnwrittenArgumentsAreRefused : ∀ k ∈ [(6 : Fin 16), 2, 3, 10, 5],
    ∃ s : State, s.job = none ∧ argsNamedHeld s k.val = true ∧ s.argsHeld[k] = false :=
  fun k _ => ⟨withArgs (List.replicate k.val 1) State.reset, by revert k; decide +kernel⟩

/-- Among the ill-formed accesses, those that are at a reserved offset or at 0x80 and above as well. -/
theorem witness_IllFormedAccessesAreRefused :
    (∀ a ∈ [(Width.w16, 0x42), (.w8, 0x30), (.w16, 0x3C), (.w32, 0x31), (.w32, 0x82)], a.1 ≠ Width.w32 ∨ a.2 % 4 ≠ 0) ∧
    (∀ off ∈ [0x30, 0x3C, 0x80], off % 4 = 0 ∧ (0x30 ≤ off ∧ off < 0x40 ∨ 0x80 ≤ off)) ∧
    (∀ off ∈ [0x04, 0x2C, 0x40, 0x7C], off % 4 = 0 ∧ off ≠ 0 ∧ (off < 0x30 ∨ 0x40 ≤ off ∧ off < 0x80)) := by decide

theorem witness_ResetAbandonsAJobInFlight : ∃ (s : State) (ts : List Turn), s.turns = .reset :: ts ∧ s.job ≠ none :=
  ⟨{ jobState false with turns := [.reset] }, [], by decide +kernel⟩

theorem witness_ErrorsChangeOnlyErrAndErrlog :
    (∃ i s t, exec i s = .next t ∧ t.err = .alreadyFinalized) ∧ (∃ i s t, exec i s = .next t ∧ t.err = .sequenceInvalid) := by
  obtain ⟨t, h, e⟩ : ∃ t, exec .updateExcl (updateArgs 0 { State.reset with session := .finalized }) = .next t ∧
    (t.err == .alreadyFinalized) = true := of_nextIs (by decide +kernel)
  obtain ⟨t', h', e'⟩ : ∃ t, exec .updateExcl (updateArgs 0 State.reset) = .next t ∧
    (t.err == .sequenceInvalid) = true := of_nextIs (by decide +kernel)
  exact ⟨⟨_, _, t, h, by simpa using e⟩, ⟨_, _, t', h', by simpa using e'⟩⟩

theorem witness_CommandsAreRejectedWhileBusy : ∃ s : State, s.job ≠ none := ⟨jobState false, by decide +kernel⟩

theorem witness_InitIsRejectedInOrder :
    (∃ s : State, s.job = none ∧ argsNamedHeld s 7 = true ∧ s.session ≠ .created ∧ s.session ≠ .finalized) ∧
    (∃ s : State, s.job = none ∧ argsNamedHeld s 7 = true ∧ s.session = .created ∧ s.args[0] = 0) ∧
    (∃ s : State, s.job = none ∧ argsNamedHeld s 7 = true ∧ s.session = .finalized ∧ s.args[0] ≠ 0 ∧
      s.args[5] ≠ 0 ∧ s.args[4] = 0) :=
  ⟨⟨initOps 1 (inSession .cpu .encrypt 1), by decide +kernel⟩,
    ⟨withArgs [0, 0, 0, 0, 0, 0, 1] State.reset, by decide +kernel⟩,
    ⟨withArgs [1, 0, 0, 0, 0, 1, 1] { State.reset with session := .finalized }, by decide +kernel⟩⟩

theorem witness_UpdateExclIsRejectedInOrder :
    (∃ s : State, s.job = none ∧ argsNamedHeld s 3 = true ∧ s.session = .finalized) ∧
    (∃ s : State, s.job = none ∧ argsNamedHeld s 3 = true ∧ s.session = .created) ∧
    (∃ s : State, s.job = none ∧ argsNamedHeld s 3 = true ∧ s.session = .aadDone ∧ s.args[2] ≠ 0 ∧ s.args[1] = 0) ∧
    (∃ s : State, s.job = none ∧ argsNamedHeld s 3 = true ∧ s.session = .aadDone ∧ s.args[0] ≠ 0 ∧ s.args[1] ≠ 0 ∧
      s.args[2].toNat % 64 ≠ 0) ∧
    (∃ s : State, s.job = none ∧ argsNamedHeld s 3 = true ∧ s.session = .aadDone ∧ s.args[0] ≠ 0 ∧ s.args[1] ≠ 0 ∧
      s.args[2].toNat % 64 = 0 ∧ s.args[2] ≠ 0 ∧ s.ctrExh = false ∧ 2 ^ 32 < s.ctr.toNat + s.args[2].toNat / 64) :=
  ⟨⟨updateArgs 64 { State.reset with session := .finalized }, by decide +kernel⟩,
    ⟨updateArgs 64 State.reset, by decide +kernel⟩,
    ⟨withArgs [1, 0, 64] (inSession .cpu .encrypt 1), by decide +kernel⟩,
    ⟨updateArgs 63 (inSession .cpu .encrypt 1), by decide +kernel⟩,
    ⟨updateArgs 128 (inSession .cpu .encrypt 0xFFFFFFFF), by decide +kernel⟩⟩

theorem witness_UpdateInclIsRejectedInOrder :
    (∃ s : State, s.job = none ∧ argsNamedHeld s 4 = true ∧ s.session = .finalized) ∧
    (∃ s : State, s.job = none ∧ argsNamedHeld s 4 = true ∧ s.session = .faulted) ∧
    (∃ s : State, s.job = none ∧ argsNamedHeld s 4 = true ∧ s.session = .aadDone ∧ s.args[2] = 0 ∧ s.args[3] = 0) ∧
    (∃ s : State, s.job = none ∧ argsNamedHeld s 4 = true ∧ s.session = .aadDone ∧ s.args[0] ≠ 0 ∧ s.args[1] ≠ 0 ∧
      s.args[3] ≠ 0 ∧ s.args[2] ≠ 0 ∧ s.ctrExh = true) ∧
    (∃ s : State, s.job = none ∧ argsNamedHeld s 4 = true ∧ s.session = .aadDone ∧ s.args[0] ≠ 0 ∧ s.args[1] ≠ 0 ∧
      s.args[3] ≠ 0 ∧ s.args[2] ≠ 0 ∧ s.ctrExh = false ∧ 2 ^ 32 < s.ctr.toNat + (s.args[2].toNat + 63) / 64) :=
  ⟨⟨updateArgs 64 { State.reset with session := .finalized }, by decide +kernel⟩,
    ⟨updateArgs 64 faultedState, by decide +kernel⟩,
    ⟨withArgs [1, 1, 0, 0] (inSession .cpu .encrypt 1), by decide +kernel⟩,
    ⟨{ updateArgs 1 (inSession .cpu .encrypt 0) with ctrExh := true }, by decide +kernel⟩,
    ⟨updateArgs 65 (inSession .cpu .encrypt 0xFFFFFFFF), by decide +kernel⟩⟩

theorem witness_AeadIsRejectedInOrder :
    (∃ s : State, s.job = none ∧ argsNamedHeld s 11 = true ∧ s.session ≠ .created ∧ s.session ≠ .finalized) ∧
    (∃ s : State, s.job = none ∧ argsNamedHeld s 11 = true ∧ s.session = .created ∧ s.args[0] ≠ 0 ∧ s.args[10] = 0) ∧
    (∃ s : State, s.job = none ∧ argsNamedHeld s 11 = true ∧ s.session = .created ∧
      ¬ (s.args[0] = 0 ∨ s.args[5] ≠ 0 ∧ s.args[4] = 0 ∨ s.args[9] ≠ 0 ∧ (s.args[7] = 0 ∨ s.args[8] = 0) ∨
        s.args[10] = 0) ∧ 2 ^ 32 < s.args[6].toNat + (s.args[9].toNat + 63) / 64) :=
  ⟨⟨aeadOps 0 1 1 (inSession .cpu .encrypt 1), by decide +kernel⟩,
    ⟨withArgs [1, 0, 0, 0, 0, 0, 1, 0, 0, 0, 0] State.reset, by decide +kernel⟩,
    ⟨aeadOps 0 0xFFFFFFFF 65 State.reset, by decide +kernel⟩⟩

theorem witness_GenBlockRejectsNullPointers :
    ∃ s : State, s.job = none ∧ argsNamedHeld s 6 = true ∧ s.args[0] ≠ 0 ∧ s.args[5] = 0 :=
  ⟨withArgs [1, 0, 0, 0, 0, 0] State.reset, by decide +kernel⟩

/-- An illegal command raises its bit in an ERRLOG that is not empty. -/
theorem witness_ErrlogIsStickyUntilReset :
    ∃ s t : State, step s = .next t ∧ (∀ ts, s.turns ≠ .reset :: ts) ∧ s.errlog ≠ 0 ∧ t.errlog ≠ s.errlog := by
  obtain ⟨t, h, e⟩ : ∃ t, step { faultedState with inbox := [.busWrite 0 .w32 8] } = .next t ∧
    (t.errlog == 0xE0) = true := of_nextIs (by decide +kernel)
  exact ⟨_, t, h, fun ts h => (by cases h), by decide, by rw [eq_of_beq e]; decide⟩

theorem witness_SetBackendWritesBackendWhileUnlocked :
    (∃ s : State, s.job = none ∧ s.lock = false) ∧ (∃ s : State, s.job = none ∧ s.lock = true) :=
  ⟨⟨State.reset, by decide +kernel⟩, ⟨faultedState, by decide +kernel⟩⟩

theorem witness_ReleaseEndsTheSession : ∃ s : State, s.job = none ∧ s.session = .faulted :=
  ⟨faultedState, by decide +kernel⟩

/-- CREATED after a RELEASE: LOCK = 1 and ERR, ERRLOG as they were. -/
def releasedState : State := { State.reset with lock := true, err := .busyReject, errlog := 0x80 }

theorem releasedState_inv : MachineInv releasedState where
  memory := by unfold MemCanonical; decide +kernel
  errlog := by unfold ErrlogLegal; decide +kernel
  acc := by unfold AccReduced; decide +kernel
  multiplier := by unfold MultiplierClamped; decide +kernel
  channels := ⟨rfl, by simp [releasedState, State.reset]⟩
  context := by simp [ContextLegal, releasedState, State.reset, mayUpdate]
  lock := by simp [LockLegal, releasedState]
  counter := by simp [CounterLegal, releasedState, State.reset]
  job := by simp [JobLegal, releasedState, State.reset]
  created := by unfold CreatedIsClear; decide +kernel
  faulted := by simp [FaultedIsWiped, releasedState, State.reset]

theorem witness_ReleaseInCreatedChangesOnlyErr : ∃ s : State, MachineInv s ∧ s.job = none ∧ s.session = .created ∧ s.err ≠ .ok :=
  ⟨releasedState, releasedState_inv, rfl, rfl, by decide⟩

/-- The output block ends at the top of the address space. -/
theorem witness_GenBlockWritesTheKeystreamBlock : ∃ s : State, s.job = none ∧ NamedHeld s 6 ∧ s.args[0] ≠ 0 ∧
    s.args[5] ≠ 0 ∧ Usable s (buffer s.args[0] 32) ∧ Usable s (buffer s.args[5] 64) :=
  ⟨withArgs [0x100, 0, 0, 0, 0, 0xFFFFFFC0] State.reset, rfl, namedHeld_of (by decide +kernel), by decide +kernel,
    by decide +kernel, usable_plain rfl rfl (.inr (by decide +kernel)), usable_plain rfl rfl (.inr (by decide +kernel))⟩

/-- An AAD that ends at the top of the address space. -/
theorem witness_InitCompletesInTheCpuBackend : ∃ s : State, s.job = none ∧ s.backend = .cpu ∧ NamedHeld s 7 ∧
    s.session = .created ∧ s.args[0] ≠ 0 ∧ s.args[5] ≠ 0 ∧ s.args[4] ≠ 0 ∧ Usable s (buffer s.args[0] 32) ∧
    Usable s (buffer s.args[4] s.args[5].toNat) :=
  ⟨withArgs [0x100, 0, 0, 0, 0xFFFFFFEF, 17, 1] State.reset, rfl, rfl, namedHeld_of (by decide +kernel), rfl,
    by decide +kernel, by decide +kernel, by decide +kernel, usable_plain rfl rfl (.inr (by decide +kernel)),
    usable_plain rfl rfl (.inr (by decide +kernel))⟩

/-- No AAD, and a null AAD pointer. -/
theorem witness_InitStartsAJobInTheDmaBackend : ∃ s : State, s.job = none ∧ s.backend = .dma ∧ NamedHeld s 7 ∧
    s.session = .finalized ∧ s.args[0] ≠ 0 ∧ (s.args[5] ≠ 0 → s.args[4] ≠ 0) ∧ Usable s (buffer s.args[0] 32) ∧
    Nameable s (buffer s.args[4] s.args[5].toNat) :=
  ⟨initOps 1 { State.reset with session := .finalized, backend := .dma }, rfl, rfl, namedHeld_of (by decide +kernel), rfl,
    by decide +kernel, fun h => absurd (by decide +kernel) h, usable_plain rfl rfl (.inr (by decide +kernel)),
    nameable_plain rfl (.inr (by decide +kernel))⟩

/-- The last block of the counter's range, in place at the top of the address space. -/
theorem witness_UpdateExclCompletesInTheCpuBackend : ∃ s : State, s.job = none ∧ s.backend = .cpu ∧ s.ctxHeld = true ∧
    NamedHeld s 3 ∧ s.session = .aadDone ∧ (s.args[2] ≠ 0 → s.args[0] ≠ 0 ∧ s.args[1] ≠ 0) ∧ s.args[2].toNat % 64 = 0 ∧
    s.args[2] ≠ 0 ∧ s.ctrExh = false ∧ s.ctr.toNat + s.args[2].toNat / 64 = 2 ^ 32 ∧
    Usable s (buffer s.args[0] s.args[2].toNat) ∧ Usable s (buffer s.args[1] s.args[2].toNat) ∧
    DisjointOrInPlace { inPtr := s.args[0], outPtr := s.args[1], len := s.args[2] } :=
  ⟨withArgs [0xFFFFFFC0, 0xFFFFFFC0, 64] (inSession .cpu .encrypt 0xFFFFFFFF), rfl, rfl, rfl,
    namedHeld_of (by decide +kernel), rfl, fun _ => by decide +kernel, by decide +kernel, by decide +kernel, rfl,
    by decide +kernel, usable_plain rfl rfl (.inr (by decide +kernel)), usable_plain rfl rfl (.inr (by decide +kernel)),
    .inl (by decide +kernel)⟩

theorem witness_UpdatesStartAJobInTheDmaBackend : ∃ s : State, s.job = none ∧ s.backend = .dma ∧ s.session = .aadDone ∧
    (s.args[2] ≠ 0 → s.args[0] ≠ 0 ∧ s.args[1] ≠ 0) ∧ Nameable s (buffer s.args[0] s.args[2].toNat) ∧
    Nameable s (buffer s.args[1] s.args[2].toNat) ∧
    DisjointOrInPlace { inPtr := s.args[0], outPtr := s.args[1], len := s.args[2] } ∧ NamedHeld s 4 ∧
    s.args[2].toNat % 64 = 0 ∧ s.args[2] ≠ 0 ∧ s.ctrExh = false ∧
    s.ctr.toNat + (s.args[2].toNat + 63) / 64 ≤ 2 ^ 32 ∧ s.args[3] ≠ 0 ∧ Nameable s (buffer s.args[3] 16) :=
  ⟨updateArgs 64 (inSession .dma .encrypt 1), rfl, rfl, rfl, fun _ => by decide +kernel,
    nameable_plain rfl (.inr (by decide +kernel)), nameable_plain rfl (.inr (by decide +kernel)),
    .inr (.inl (by decide +kernel)), namedHeld_of (by decide +kernel), by decide +kernel, by decide +kernel, rfl,
    by decide +kernel, by decide +kernel, nameable_plain rfl (.inr (by decide +kernel))⟩

/-- An empty payload with null pointers after the counter has run out. -/
theorem witness_UpdateInclCompletesInTheCpuBackend : ∃ s : State, s.job = none ∧ s.backend = .cpu ∧ s.ctxHeld = true ∧
    NamedHeld s 4 ∧ s.session = .aadDone ∧ (s.args[2] ≠ 0 → s.args[0] ≠ 0 ∧ s.args[1] ≠ 0) ∧ s.args[3] ≠ 0 ∧
    (s.args[2] ≠ 0 → s.ctrExh = false ∧ s.ctr.toNat + (s.args[2].toNat + 63) / 64 ≤ 2 ^ 32) ∧
    Usable s (buffer s.args[0] s.args[2].toNat) ∧ Usable s (buffer s.args[1] s.args[2].toNat) ∧
    Usable s (buffer s.args[3] 16) ∧ DisjointOrInPlace { inPtr := s.args[0], outPtr := s.args[1], len := s.args[2] } ∧
    s.accAny = false :=
  ⟨{ withArgs [0, 0, 0, 0x3000] (inSession .cpu .encrypt 0) with ctrExh := true }, rfl, rfl, rfl,
    namedHeld_of (by decide +kernel), rfl, fun h => absurd (by decide +kernel) h, by decide +kernel,
    fun h => absurd (by decide +kernel) h, usable_plain rfl rfl (.inl (by decide +kernel)),
    usable_plain rfl rfl (.inl (by decide +kernel)), usable_plain rfl rfl (.inr (by decide +kernel)),
    .inl (by decide +kernel), rfl⟩

theorem witness_AeadCompletesInTheCpuBackend : ∃ s : State, s.job = none ∧ s.backend = .cpu ∧ NamedHeld s 11 ∧
    s.session = .created ∧ s.args[0] ≠ 0 ∧ s.args[5] ≠ 0 ∧ s.args[4] ≠ 0 ∧ s.args[9] ≠ 0 ∧ s.args[7] ≠ 0 ∧
    s.args[8] ≠ 0 ∧ s.args[10] ≠ 0 ∧ s.args[6].toNat + (s.args[9].toNat + 63) / 64 = 2 ^ 32 ∧
    Usable s (buffer s.args[0] 32) ∧ Usable s (buffer s.args[4] s.args[5].toNat) ∧
    Usable s (buffer s.args[7] s.args[9].toNat) ∧ Usable s (buffer s.args[8] s.args[9].toNat) ∧
    Usable s (buffer s.args[10] 16) ∧
    DisjointOrInPlace { inPtr := s.args[7], outPtr := s.args[8], len := s.args[9] } ∧
    Definite s (buffer s.args[4] s.args[5].toNat) ∧ Definite s (buffer s.args[7] s.args[9].toNat) :=
  ⟨aeadOps 12 0xFFFFFFFE 65 State.reset, rfl, rfl, namedHeld_of (by decide +kernel), rfl, by decide +kernel,
    by decide +kernel, by decide +kernel, by decide +kernel, by decide +kernel, by decide +kernel, by decide +kernel,
    by decide +kernel, usable_plain rfl rfl (.inr (by decide +kernel)), usable_plain rfl rfl (.inr (by decide +kernel)),
    usable_plain rfl rfl (.inr (by decide +kernel)), usable_plain rfl rfl (.inr (by decide +kernel)),
    usable_plain rfl rfl (.inr (by decide +kernel)), .inr (.inl (by decide +kernel)), definite_plain rfl,
    definite_plain rfl⟩

theorem witness_AeadStartsAJobInTheDmaBackend : ∃ s : State, s.job = none ∧ s.backend = .dma ∧ NamedHeld s 11 ∧
    s.session = .created ∧ s.args[0] ≠ 0 ∧ (s.args[5] ≠ 0 → s.args[4] ≠ 0) ∧
    (s.args[9] ≠ 0 → s.args[7] ≠ 0 ∧ s.args[8] ≠ 0) ∧ s.args[10] ≠ 0 ∧
    s.args[6].toNat + (s.args[9].toNat + 63) / 64 ≤ 2 ^ 32 ∧ Usable s (buffer s.args[0] 32) ∧
    Nameable s (buffer s.args[4] s.args[5].toNat) ∧ Nameable s (buffer s.args[7] s.args[9].toNat) ∧
    Nameable s (buffer s.args[8] s.args[9].toNat) ∧ Nameable s (buffer s.args[10] 16) ∧
    DisjointOrInPlace { inPtr := s.args[7], outPtr := s.args[8], len := s.args[9] } :=
  ⟨aeadOps 12 1 114 { State.reset with backend := .dma }, rfl, rfl, namedHeld_of (by decide +kernel), rfl,
    by decide +kernel, fun _ => by decide +kernel, fun _ => by decide +kernel, by decide +kernel, by decide +kernel,
    usable_plain rfl rfl (.inr (by decide +kernel)), nameable_plain rfl (.inr (by decide +kernel)),
    nameable_plain rfl (.inr (by decide +kernel)), nameable_plain rfl (.inr (by decide +kernel)),
    nameable_plain rfl (.inr (by decide +kernel)), .inr (.inl (by decide +kernel))⟩

/-- Two blocks in place, and 65 bytes to a range that starts where the input ends. -/
theorem witness_PayloadOutputIsInputXorKeystream :
    (∃ (p : PayloadArgs) (s : State), Fits (inBuffer p) ∧ Fits (outBuffer p) ∧ p.inPtr = p.outPtr ∧ DisjointOrInPlace p ∧
      Definite s (inBuffer p) ∧ s.dir = .decrypt) ∧
    (∃ (p : PayloadArgs) (s : State), Fits (inBuffer p) ∧ Fits (outBuffer p) ∧ p.inPtr ≠ p.outPtr ∧ DisjointOrInPlace p ∧
      Definite s (inBuffer p) ∧ s.dir = .encrypt) :=
  ⟨⟨{ inPtr := 0x1000, outPtr := 0x1000, len := 128 }, inSession .cpu .decrypt 1, .inr (by decide), .inr (by decide), rfl,
      .inl rfl, definite_plain rfl, rfl⟩,
    ⟨{ inPtr := 0x1000, outPtr := 0x1041, len := 65 }, inSession .cpu .encrypt 1, .inr (by decide), .inr (by decide),
      by decide, .inr (.inl (by decide)), definite_plain rfl, rfl⟩⟩

theorem witness_PayloadAbsorbsTheCiphertextOnce : ∃ (p : PayloadArgs) (s : State), Fits (inBuffer p) ∧
    Fits (outBuffer p) ∧ DisjointOrInPlace p ∧ Definite s (inBuffer p) ∧ p.len ≠ 0 :=
  ⟨{ inPtr := 0x1000, outPtr := 0x1041, len := 65 }, inSession .cpu .encrypt 1, .inr (by decide), .inr (by decide),
    .inr (.inl (by decide)), definite_plain rfl, by decide⟩

theorem witness_AbsorptionSplitsAtBlockBoundaries : ∃ d : List Byte, d.length % 16 = 0 ∧ d ≠ [] := ⟨zeros 16, by decide⟩

/-- Every command gives a next state somewhere. -/
theorem witness_NoCommandWritesTheHostSide : ∀ i : Instr, ∃ s t, exec i s = .next t := fun i => by
  have h : nextIs (exec i (jobState false)) (fun _ => true) = true := by cases i <;> decide +kernel
  obtain ⟨t, ht, _⟩ := of_nextIs h
  exact ⟨_, t, ht⟩

/-- Every command that stores nothing is accepted somewhere. -/
theorem witness_CommandsThatStoreNothingLeaveMemory :
    ∀ i ∈ [Instr.setBackendCpu, .setBackendDma, .initEnc, .initDec, .release], ∃ s t, exec i s = .next t ∧ t.err = .ok :=
  fun i hi => by
    have h : nextIs (exec i (initOps 1 { State.reset with backend := .dma })) (fun t => t.err == .ok) = true := by
      simp only [List.mem_cons, List.not_mem_nil, or_false] at hi
      rcases hi with rfl | rfl | rfl | rfl | rfl <;> decide +kernel
    obtain ⟨t, ht, e⟩ := of_nextIs h
    exact ⟨_, t, ht, by simpa using e⟩

/-- UPDATE_EXCL and UPDATE_INCL accepted with a payload that is not empty. -/
theorem witness_UpdatesLeaveTheRest :
    ∀ i ∈ [Instr.updateExcl, .updateIncl], ∃ s t, exec i s = .next t ∧ t.err = .ok ∧ s.args[2] ≠ 0 := fun i hi => by
  have h : nextIs (exec i (updateArgs 64 (inSession .dma .encrypt 1))) (fun t => t.err == .ok) = true := by
    simp only [List.mem_cons, List.not_mem_nil, or_false] at hi
    rcases hi with rfl | rfl <;> decide +kernel
  obtain ⟨t, ht, e⟩ := of_nextIs h
  exact ⟨_, t, ht, by simpa using e, by decide +kernel⟩

theorem witness_UpdateExclLeavesTheRest : ∃ s t, exec .updateExcl s = .next t := by
  obtain ⟨s, t, h, -⟩ := witness_UpdatesLeaveTheRest .updateExcl (by decide)
  exact ⟨s, t, h⟩

theorem witness_UpdateInclLeavesTheRest : ∃ s t, exec .updateIncl s = .next t := by
  obtain ⟨s, t, h, -⟩ := witness_UpdatesLeaveTheRest .updateIncl (by decide)
  exact ⟨s, t, h⟩

/-- AEAD accepted, and AEAD rejected. -/
theorem witness_AeadLeavesTheRest : ∀ i ∈ [Instr.aeadEnc, .aeadDec],
    (∃ s t, exec i s = .next t ∧ t.err = .ok ∧ s.args[9] ≠ 0) ∧ (∃ s t, exec i s = .next t ∧ t.err ≠ .ok) := fun i hi => by
  have h : nextIs (exec i (aeadOps 12 1 114 { State.reset with backend := .dma })) (fun t => t.err == .ok) = true ∧
      nextIs (exec i (aeadOps 0 1 1 (inSession .cpu .encrypt 1))) (fun t => t.err == .sequenceInvalid) = true := by
    simp only [List.mem_cons, List.not_mem_nil, or_false] at hi
    rcases hi with rfl | rfl <;> decide +kernel
  obtain ⟨t, ht, e⟩ := of_nextIs h.1
  obtain ⟨u, hu, e'⟩ := of_nextIs h.2
  exact ⟨⟨_, t, ht, by simpa using e, by decide +kernel⟩, ⟨_, u, hu, by rw [eq_of_beq e']; decide⟩⟩

theorem witness_CompletionPerformsTheBody :
    (∃ (s : State) (j : Job), s.job = some j ∧ j.raced = false ∧ s.ctxHeld = true ∧
      ∀ r ∈ bodyRanges j.cmd, AvoidsAll s.absent r) ∧ (∃ s : State, s.job = none) :=
  ⟨⟨jobState false, _, rfl, rfl, rfl, fun _ _ => avoids_nil⟩, ⟨State.reset, rfl⟩⟩

/-- A draw of DMA_OK = false, and a job whose output runs into memory that is not there. -/
theorem witness_TransferErrorFaultsTheSession :
    (∃ (s : State) (j : Job) (ok : Bool), s.job = some j ∧ ok = false) ∧
    (∃ (s : State) (j : Job), s.job = some j ∧ ∃ r ∈ bodyRanges j.cmd, ¬ AvoidsAll s.absent r) :=
  ⟨⟨jobState false, _, false, rfl, rfl⟩,
    ⟨{ jobState false with absent := [{ base := 0x203F, size := 1 }] }, _, rfl, buffer 0x2000 64, by decide,
      fun h => h 0x203F ⟨by decide, by decide⟩ _ (List.mem_singleton.2 rfl) ⟨by decide, by decide⟩⟩⟩

theorem witness_FaultedSessionNeedsRelease : ∃ s : State, s.session = .faulted ∧ s.job = none ∧ NamedHeld s 11 ∧
    s.lock = true := ⟨faultedState, rfl, rfl, namedHeld_of (by decide +kernel), rfl⟩

/-- Four bytes that end at the top of the address space. -/
theorem witness_HostStoreThenLoadReturnsTheBytes : ∃ (s : State) (a : Nat) (bs : List Byte), s.job = none ∧
    a + bs.length = 2 ^ 32 ∧ bs ≠ [] ∧ AvoidsAll s.absent { base := a, size := bs.length } ∧
    AvoidsAll s.devices { base := a, size := bs.length } ∧ Apart { base := a, size := bs.length } (windowRegion s) :=
  ⟨State.reset, 0xFFFFFFFC, [1, 2, 3, 4], rfl, by decide, by decide, avoids_nil, avoids_nil,
    (regionsMeet_eq_false _ _).1 (by decide +kernel)⟩

/-- The last byte of the output range, and the byte after it. -/
theorem witness_OutputsOfAJobInFlightReadAsDraws : ∃ (s : State) (j : Job), s.job = some j ∧
    AvoidsAll s.absent { base := 0x203F, size := 1 } ∧ AvoidsAll s.devices { base := 0x203F, size := 1 } ∧
    ¬ InRegion (windowRegion s) 0x203F ∧ (∃ r ∈ outputRanges j.cmd, InRegion r 0x203F) ∧
    ¬ InRegion (windowRegion s) 0x2040 ∧ (∀ r ∈ outputRanges j.cmd, ¬ InRegion r 0x2040) ∧ 0x2040 ∉ s.anyMem :=
  ⟨jobState false, _, rfl, avoids_nil, avoids_nil, by unfold InRegion; decide +kernel,
    ⟨buffer 0x2000 64, by decide, by unfold InRegion; decide⟩, by unfold InRegion; decide +kernel,
    by unfold InRegion; decide +kernel, by decide +kernel⟩

/-- A write of one byte that touches the last input byte. -/
theorem witness_RacingHostWriteLeavesAnyValue : ∃ (s : State) (j : Job) (a : Nat) (bs : List Byte), s.job = some j ∧
    s.ctxHeld = true ∧ a + bs.length ≤ 2 ^ 32 ∧ AvoidsAll s.absent { base := a, size := bs.length } ∧
    AvoidsAll s.devices { base := a, size := bs.length } ∧ Apart { base := a, size := bs.length } (windowRegion s) ∧
    (∀ r ∈ bodyRanges j.cmd, AvoidsAll s.absent r) ∧
    (∃ r ∈ bodyRanges j.cmd, ¬ Apart { base := a, size := bs.length } r) :=
  ⟨jobState false, _, 0x103F, [1], rfl, rfl, by decide, avoids_nil, avoids_nil,
    (regionsMeet_eq_false _ _).1 (by decide +kernel), fun _ _ => avoids_nil, buffer 0x1000 64, by decide,
    fun h => h 0x103F ⟨⟨by decide, by decide⟩, ⟨by decide, by decide⟩⟩⟩

theorem witness_WaitLoopPollsStatusUntilNotBusy :
    (∃ (s : State) (rest : List HostOp) (ts : List Turn), s.turns = .host :: ts ∧ s.inbox = .wait :: rest ∧ s.job ≠ none) ∧
    (∃ (s : State) (rest : List HostOp) (ts : List Turn), s.turns = .host :: ts ∧ s.inbox = .wait :: rest ∧ s.job = none) :=
  ⟨⟨{ jobState false with turns := [.host], inbox := [.wait] }, [], [], by decide +kernel⟩,
    ⟨{ State.reset with turns := [.host], inbox := [.wait] }, [], [], by decide +kernel⟩⟩

theorem witness_StepRunsTheDecodedCommand :
    (∃ (s : State) (w : Word) (i : Instr) (rest : List HostOp) (ts : List Turn),
      s.inbox = .busWrite 0x00 .w32 w :: rest ∧ decode w = .ok i ∧ s.turns = .host :: ts) ∧
    (∃ (s : State) (w : Word) (i : Instr) (rest : List HostOp), s.inbox = .busWrite 0x00 .w32 w :: rest ∧ decode w = .ok i ∧ s.turns = [] ∧ s.job = none) :=
  ⟨⟨{ State.reset with turns := [.host], inbox := [.busWrite 0 .w32 6] }, 6, .release, [], [], by decide +kernel⟩,
    ⟨{ State.reset with inbox := [.busWrite 0 .w32 6] }, 6, .release, [], by decide +kernel⟩⟩

theorem witness_StepMovesTheScheduledAgent :
    (∃ (s : State) (ok : Bool) (ts : List Turn), s.turns = .dma ok :: ts) ∧
    (∃ (s : State) (op : HostOp) (rest : List HostOp) (ts : List Turn), s.turns = .host :: ts ∧ s.inbox = op :: rest) ∧
    (∃ s : State, s.turns = [] ∧ s.job ≠ none) ∧ 
    (∃ (s : State) (op : HostOp) (rest : List HostOp), s.turns = [] ∧ s.job = none ∧ s.inbox = op :: rest) :=
  ⟨⟨{ State.reset with turns := [.dma true] }, true, [], rfl⟩,
    ⟨{ State.reset with turns := [.host], inbox := [.wait] }, .wait, [], [], rfl, rfl⟩,
    ⟨jobState false, by decide +kernel⟩, ⟨{ State.reset with inbox := [.wait] }, .wait, [], rfl, rfl, rfl⟩⟩

/-- A job in flight in the DMA backend, with every clause of the invariant at work. -/
theorem jobState_inv : MachineInv { jobState false with turns := [.dma true] } where
  memory := by unfold MemCanonical; decide +kernel
  errlog := by unfold ErrlogLegal; decide +kernel
  acc := by unfold AccReduced; decide +kernel
  multiplier := by unfold MultiplierClamped; decide +kernel
  channels := ⟨rfl, ⟨fun _ => ⟨rfl, .inl rfl⟩, fun _ => rfl⟩⟩
  context := fun _ => rfl
  lock := fun _ => rfl
  counter := fun h => by cases h
  job := fun j h => by obtain rfl := Option.some.inj h; decide +kernel
  created := fun h => by cases h
  faulted := fun h => by cases h

theorem witness_EveryStepKeepsTheInvariant : ∃ s t : State, MachineInv s ∧ step s = .next t ∧ t.job = none := by
  obtain ⟨t, h, e⟩ : ∃ t, step { jobState false with turns := [.dma true] } = .next t ∧ (t.job == none) = true :=
    of_nextIs (by decide +kernel)
  exact ⟨_, t, jobState_inv, h, by simpa using e⟩

theorem witness_BackendIsFixedOnceLocked : ∃ s t : State,
    step s = .next t ∧ s.lock = true ∧ (∀ ts, s.turns ≠ .reset :: ts) := by
  obtain ⟨t, h, _⟩ : ∃ t, step { faultedState with inbox := [.busWrite 0 .w32 1] } = .next t ∧ (t.lock == true) = true :=
    of_nextIs (by decide +kernel)
  exact ⟨_, t, h, rfl, fun ts h => by cases h⟩

/-- A completion, and a RELEASE out of FAULTED. -/
theorem witness_StateChangesFollowTheTransitionTable :
    (∃ s t : State, MachineInv s ∧ step s = .next t ∧ t.session ≠ s.session ∧
      ∃ p, NextIsCompletion s (.updateExcl p)) ∧
    nextIs (step { faultedState with inbox := [.store 0x40000000 [6, 0, 0, 0]] })
      (fun t => t.session == .created && t.err == .ok) = true := by
  refine ⟨?_, by decide +kernel⟩
  obtain ⟨t, h, e⟩ : ∃ t, step { jobState false with turns := [.dma true] } = .next t ∧
      (t.session == .payloadStreaming) = true := of_nextIs (by decide +kernel)
  exact ⟨_, t, jobState_inv, h, by rw [eq_of_beq e]; decide, _, ⟨_, rfl⟩, .inl ⟨_, _, rfl⟩⟩

/-- R107: after FINALIZED an update raises ALREADY_FINALIZED and stores nothing. -/
theorem test_finalized_session_takes_no_bytes : ∀ i ∈ [Instr.updateExcl, .updateIncl],
    nextIs (exec i (updateArgs 64 { State.reset with session := .finalized }))
      (fun t => t.err == .alreadyFinalized && t.mem == [] && t.session == .finalized) = true := by decide +kernel

/-- The key of INIT ends one byte past the top of the address space. -/
def wrapState : State := withArgs [0xFFFFFFE1, 0, 0, 0, 0, 0, 1] State.reset

/-- The payload ranges of UPDATE_EXCL share one byte. -/
def overlapState : State := withArgs [0x1000, 0x103F, 64] (inSession .cpu .encrypt 1)

/-- The last byte of the tag buffer of UPDATE_INCL is on a device. -/
def deviceState : State := { updateArgs 1 (inSession .cpu .encrypt 1) with devices := [{ base := 0x300F, size := 1 }] }

/-- No memory backs the last byte of the key, in the DMA backend. -/
def absentState : State := { aeadOps 0 1 1 State.reset with backend := .dma, absent := [{ base := 0x11F, size := 1 }] }

/-- MF5, MF6, R49 and MF7 at the first byte they apply to, and the byte before it. -/
theorem test_buffer_refusals :
    refusedAs (exec .initEnc wrapState) .bufferWraps = true ∧
    nextIs (exec .initEnc (withArgs [0xFFFFFFE0, 0, 0, 0, 0, 0, 1] State.reset)) (fun t => t.err == .ok) = true ∧
    refusedAs (exec .updateExcl overlapState) .payloadOverlap = true ∧
    nextIs (exec .updateExcl (withArgs [0x1000, 0x1040, 64] (inSession .dma .encrypt 1))) (fun t => t.err == .ok) = true ∧
    refusedAs (exec .updateIncl deviceState) .deviceBuffer = true ∧
    refusedAs (exec .aeadEnc absentState) .unbackedAccess = true ∧
    nextIs (exec .aeadEnc { absentState with absent := [{ base := 0x120, size := 1 }] }) (fun t => t.err == .ok) =
      true := by decide +kernel

theorem witness_UnusableBuffersAreRefused :
    (∃ s : State, s.job = none ∧ argsNamedHeld s 7 = true ∧ s.session = .created ∧ s.args[0] ≠ 0 ∧ s.args[5] = 0 ∧
      ¬ Fits (buffer s.args[0] 32)) ∧
    (∃ s : State, s.job = none ∧ argsNamedHeld s 3 = true ∧ s.session = .aadDone ∧ s.args[0] ≠ 0 ∧ s.args[1] ≠ 0 ∧
      s.args[2].toNat % 64 = 0 ∧ s.ctrExh = false ∧ s.ctr.toNat + s.args[2].toNat / 64 ≤ 2 ^ 32 ∧
      (∀ r ∈ [buffer s.args[0] s.args[2].toNat, buffer s.args[1] s.args[2].toNat], Fits r) ∧
      ¬ DisjointOrInPlace { inPtr := s.args[0], outPtr := s.args[1], len := s.args[2] }) ∧
    (∃ s : State, s.job = none ∧ argsNamedHeld s 4 = true ∧ s.session = .aadDone ∧ s.args[0] ≠ 0 ∧ s.args[1] ≠ 0 ∧
      s.args[3] ≠ 0 ∧ s.ctrExh = false ∧ s.ctr.toNat + (s.args[2].toNat + 63) / 64 ≤ 2 ^ 32 ∧
      (∀ r ∈ [buffer s.args[0] s.args[2].toNat, buffer s.args[1] s.args[2].toNat, buffer s.args[3] 16], Fits r) ∧
      DisjointOrInPlace { inPtr := s.args[0], outPtr := s.args[1], len := s.args[2] } ∧
      ¬ AvoidsAll s.devices (buffer s.args[3] 16)) ∧
    (∃ s : State, s.job = none ∧ s.backend = .dma ∧ argsNamedHeld s 11 = true ∧ s.session = .created ∧
      (∀ k ∈ [(0 : Fin 16), 7, 8, 10], s.args[k] ≠ 0) ∧ s.args[5] = 0 ∧
      s.args[6].toNat + (s.args[9].toNat + 63) / 64 ≤ 2 ^ 32 ∧ s.devices = [] ∧
      (∀ r ∈ [buffer s.args[0] 32, buffer s.args[4] s.args[5].toNat, buffer s.args[7] s.args[9].toNat,
        buffer s.args[8] s.args[9].toNat, buffer s.args[10] 16], Fits r) ∧
      DisjointOrInPlace { inPtr := s.args[7], outPtr := s.args[8], len := s.args[9] } ∧
      ¬ AvoidsAll s.absent (buffer s.args[0] 32)) ∧
    (∃ s : State, s.job = none ∧ argsNamedHeld s 6 = true ∧ s.args[0] ≠ 0 ∧ s.args[5] ≠ 0 ∧ s.devices = [] ∧
      (∀ r ∈ [buffer s.args[0] 32, buffer s.args[5] 64], Fits r) ∧ ¬ AvoidsAll s.absent (buffer s.args[5] 64)) := by
  refine ⟨⟨wrapState, ?_⟩, ⟨overlapState, ?_⟩, ⟨deviceState, ?_⟩, ⟨absentState, ?_⟩,
    ⟨{ withArgs [1, 0, 0, 0, 0, 2] State.reset with absent := [{ base := 65, size := 1 }] }, ?_⟩⟩
  · unfold Fits; decide +kernel
  · unfold Fits DisjointOrInPlace; decide +kernel
  · simp only [← meetsAny_eq_false]
    unfold Fits DisjointOrInPlace; decide +kernel
  · simp only [← meetsAny_eq_false]
    unfold Fits DisjointOrInPlace; decide +kernel
  · simp only [← meetsAny_eq_false]
    unfold Fits; decide +kernel

/-- 65 bytes, the first block of them as the streamed part. -/
theorem witness_AeadEqualsTheStreamedSequence : ∃ (s t : State) (j : Nat), s.backend = .cpu ∧ exec .aeadEnc s = .next t ∧
    t.err = .ok ∧ 64 * j ≤ s.args[9].toNat ∧ j = 1 := by
  obtain ⟨t, h, e⟩ : ∃ t, exec .aeadEnc (aeadOps 0 1 65 State.reset) = .next t ∧ (t.err == .ok) = true :=
    of_nextIs (by decide +kernel)
  exact ⟨_, t, 1, rfl, h, by simpa using e, by decide +kernel, rfl⟩

theorem witness_BackendsLeaveTheSameResults :
    ∀ i ∈ [Instr.initEnc, .initDec, .updateExcl, .updateIncl, .aeadEnc, .aeadDec], ∃ s t u : State, s.job = none ∧
      s.backend = .cpu ∧ exec i s = .next t ∧ t.err = .ok ∧ exec i { s with backend := .dma } = .next u := fun i hi => by
  have h : ∃ s : State, s.job = none ∧ s.backend = .cpu ∧ nextIs (exec i s) (fun t => t.err == .ok) = true ∧
      nextIs (exec i { s with backend := .dma }) (fun _ => true) = true := by
    simp only [List.mem_cons, List.not_mem_nil, or_false] at hi
    rcases hi with rfl | rfl | rfl | rfl | rfl | rfl
    · exact ⟨initOps 1 State.reset, by decide +kernel⟩
    · exact ⟨initOps 1 State.reset, by decide +kernel⟩
    · exact ⟨updateArgs 64 (inSession .cpu .encrypt 1), by decide +kernel⟩
    · exact ⟨updateArgs 64 (inSession .cpu .encrypt 1), by decide +kernel⟩
    · exact ⟨aeadOps 0 1 1 State.reset, by decide +kernel⟩
    · exact ⟨aeadOps 0 1 1 State.reset, by decide +kernel⟩
  obtain ⟨s, hj, hb, h1, h2⟩ := h
  obtain ⟨t, ht, e⟩ := of_nextIs h1
  obtain ⟨u, hu, _⟩ := of_nextIs h2
  exact ⟨s, t, u, hj, hb, ht, by simpa using e, hu⟩

/-- One byte of payload, decrypted to a range of its own. -/
theorem witness_DecryptingTheCiphertextRestoresThePlaintext : ∃ (s t u : State) (back tag2 : Word), s.backend = .cpu ∧
    exec .aeadEnc s = .next t ∧ t.err = .ok ∧
    exec .aeadDec (writeArg 10 tag2 (writeArg 8 back (writeArg 7 s.args[8] t))) = .next u ∧ u.err = .ok ∧
    (∀ r ∈ [buffer s.args[0] 32, buffer s.args[4] s.args[5].toNat, buffer s.args[7] s.args[9].toNat], Definite s r) ∧
    (∀ r ∈ [buffer s.args[0] 32, buffer s.args[4] s.args[5].toNat, buffer s.args[10] 16],
      Apart r (buffer s.args[8] s.args[9].toNat)) ∧
    (∀ r ∈ [buffer s.args[0] 32, buffer s.args[4] s.args[5].toNat], Apart r (buffer s.args[10] 16)) ∧
    Apart (buffer tag2 16) (buffer back s.args[9].toNat) := by
  have h : nextIs (exec .aeadEnc (aeadOps 0 1 1 State.reset)) (fun t => t.err == .ok && nextIs
      (exec .aeadDec (writeArg 10 0x5000 (writeArg 8 0x4000 (writeArg 7 0x2000 t)))) (fun u => u.err == .ok)) = true := by
    decide +kernel
  obtain ⟨t, ht, e⟩ := of_nextIs h
  rw [Bool.and_eq_true] at e
  obtain ⟨u, hu, e'⟩ := of_nextIs e.2
  refine ⟨_, t, u, 0x4000, 0x5000, rfl, ht, by simpa using e.1, hu, by simpa using e', fun _ _ => definite_plain rfl,
    fun r hr => (regionsMeet_eq_false _ _).1 ?_, fun r hr => (regionsMeet_eq_false _ _).1 ?_,
    (regionsMeet_eq_false _ _).1 (by decide +kernel)⟩ <;>
  simp only [List.mem_cons, List.not_mem_nil, or_false] at hr
  · rcases hr with rfl | rfl | rfl <;> decide +kernel
  · rcases hr with rfl | rfl <;> decide +kernel

end Sys2Proof.Tests
end

namespace Sys2Proof.Machine

/-! ## The STATUS word (R23) -/

theorem backendBit_eq_beq (b : Backend) : backendBit b = (b == .dma) := by cases b <;> rfl

theorem dirBit_eq_beq (d : Dir) : dirBit d = (d == .decrypt) := by cases d <;> rfl

theorem statusWord_state (s : State) : (statusWord s).extractLsb' 0 3 = sessCode s.session :=
  BitVec.extractLsb'_append_eq_right

/-- STATUS.ERR stands above BUSY and STATE. -/
theorem statusWord_err (s : State) : (statusWord s).extractLsb' 4 4 = errCode s.err := by
  rw [statusWord]
  iterate 2 rw [BitVec.extractLsb'_append_eq_of_le (by decide)]
  exact BitVec.extractLsb'_append_eq_right

/-- Nine fields stand below the reserved bits. -/
theorem statusWord_reserved (s : State) : (statusWord s).extractLsb' 14 18 = 0 := by
  rw [statusWord]
  iterate 9 rw [BitVec.extractLsb'_append_eq_of_le (by decide)]
  exact BitVec.extractLsb'_zero

/-- The one-bit fields of STATUS (R23). -/
theorem statusWord_flags (s : State) :
    (statusWord s).getLsbD 3 = s.job.isSome ∧ (statusWord s).getLsbD 8 = (s.backend == .dma) ∧
    (statusWord s).getLsbD 9 = s.lock ∧ (statusWord s).getLsbD 10 = s.ch0Owned ∧
    (statusWord s).getLsbD 11 = s.ch1Owned ∧ (statusWord s).getLsbD 12 = (s.dir == .decrypt) ∧
    (statusWord s).getLsbD 13 = s.ctrExh := by
  simp only [statusWord, BitVec.getLsbD_append]
  simp [busy, backendBit_eq_beq, dirBit_eq_beq]

/-- Settles O5: each field is what is left of the concatenation once the fields below it are dropped. -/
theorem statusFieldsStandAtTheirBits : Obligations.StatusFieldsStandAtTheirBits := by
  refine ⟨by decide, by decide, fun s => ?_⟩
  obtain ⟨hbusy, hbackend, hlock, hch0, hch1, hdir, hexh⟩ := statusWord_flags s
  exact ⟨statusWord_state s, hbusy, statusWord_err s, hbackend, hlock, hch0, hch1, hdir, hexh, statusWord_reserved s⟩

/-! ## HOST reads of the register window (R42) -/

/-- The window has each register at its offset (R21). -/
theorem regAt_regOffset (r : WinReg) : regAt (regOffset r) = some r := by
  cases r with
  | arg i => revert i; decide
  | _ => rfl

theorem accessRefusal_regOffset (r : WinReg) : accessRefusal (regOffset r) .w32 = none := by
  cases r with
  | arg i => revert i; decide
  | _ => rfl

/-- A read of a register that holds a value, or any value, returns it. -/
theorem busRead_held {s : State} {r : WinReg} {v : Word} (h : regValue s r = some v) :
    busRead (regOffset r) .w32 s = .next (returnWord v (regIsAny s r) s) := by
  simp [busRead, accessRefusal_regOffset, regAt_regOffset, h]

theorem busRead_unheld {s : State} {r : WinReg} (h : regValue s r = none) :
    busRead (regOffset r) .w32 s = .refused .hostArgNoValue := by
  simp [busRead, accessRefusal_regOffset, regAt_regOffset, h]

/-- The registers that hold any value answer with the next free draw (R16). -/
theorem regValue_drawn {s : State} {r : WinReg} (h : regIsAny s r = true) :
    regValue s r = some (Config.freeWord s.draws) := by
  cases r <;> simp_all [regIsAny, regValue, anyOr]

theorem busRead_drawn {s : State} {r : WinReg} (h : regIsAny s r = true) :
    busRead (regOffset r) .w32 s =
      .next { s with busData := Config.freeWord s.draws, draws := s.draws + 1 } := by
  rw [busRead_held (regValue_drawn h), h]; rfl

/-- Settles O7: all nine registers are drawn alike, CTR and the counters by STATE and the tag by its flag. -/
theorem anyValueRegistersAreDrawn : Obligations.AnyValueRegistersAreDrawn := by
  intro s
  refine ⟨fun hf off hoff => ?_, fun ht off hoff => ?_⟩
  · have hc : countersAny s = true := by simp [countersAny, hf]
    simp only [List.mem_cons, List.not_mem_nil, or_false] at hoff
    rcases hoff with rfl | rfl | rfl | rfl | rfl
    · exact busRead_drawn (r := .ctr) hc
    · exact busRead_drawn (r := .aadLo) hc
    · exact busRead_drawn (r := .aadHi) hc
    · exact busRead_drawn (r := .payloadLo) hc
    · exact busRead_drawn (r := .payloadHi) hc
  · simp only [List.mem_cons, List.not_mem_nil, or_false] at hoff
    rcases hoff with rfl | rfl | rfl | rfl
    · exact busRead_drawn (r := .tag0) ht
    · exact busRead_drawn (r := .tag1) ht
    · exact busRead_drawn (r := .tag2) ht
    · exact busRead_drawn (r := .tag3) ht

/-! ## Commands that name an ARG without a value (R15, R94 step 3) -/

theorem initCommand_unheld {s : State} (m : Dir) (hj : s.job = none) (h : argsNamedHeld s 7 = false) :
    initCommand m s = .refused .argNoValue := by
  simp [initCommand, unlessBusy_idle _ hj, initArgs, h]

theorem aeadCommand_unheld {s : State} (m : Dir) (hj : s.job = none) (h : argsNamedHeld s 11 = false) :
    aeadCommand m s = .refused .argNoValue := by
  simp [aeadCommand, unlessBusy_idle _ hj, aeadArgs, h]

theorem execUpdateExcl_unheld {s : State} (hj : s.job = none) (h : argsNamedHeld s 3 = false) :
    execUpdateExcl s = .refused .argNoValue := by
  simp [execUpdateExcl, unlessBusy_idle _ hj, updateExclArgs, h]

theorem execUpdateIncl_unheld {s : State} (hj : s.job = none) (h : argsNamedHeld s 4 = false) :
    execUpdateIncl s = .refused .argNoValue := by
  simp [execUpdateIncl, unlessBusy_idle _ hj, updateInclArgs, h]

theorem execGenBlock_unheld {s : State} (hj : s.job = none) (h : argsNamedHeld s 6 = false) :
    execGenBlock s = .refused .argNoValue := by
  simp [execGenBlock, unlessBusy_idle _ hj, genArgs, h]

/-- Settles O10: the snapshot of each command covers the ARG without a value. -/
theorem unwrittenArgumentsAreRefused : Obligations.UnwrittenArgumentsAreRefused := by
  refine ⟨fun s i hi => busRead_unheld (r := .arg i) (by simp [regValue, hi]), fun s k hj hk => ?_⟩
  have unheld : ∀ {n}, k.val < n → argsNamedHeld s n = false := fun hn => argsNamedHeld_eq_false k hn hk
  exact ⟨fun h => ⟨initCommand_unheld .encrypt hj (unheld h), initCommand_unheld .decrypt hj (unheld h)⟩,
    fun h => execUpdateExcl_unheld hj (unheld h), fun h => execUpdateIncl_unheld hj (unheld h),
    fun h => ⟨aeadCommand_unheld .encrypt hj (unheld h), aeadCommand_unheld .decrypt hj (unheld h)⟩,
    fun h => execGenBlock_unheld hj (unheld h)⟩

/-! ## HOST reads of system memory (R51) -/

theorem hostAccessStop_eq_none {s : State} {a n : Nat} (hf : Fits { base := a, size := n })
    (ha : AvoidsAll s.absent { base := a, size := n }) (hd : AvoidsAll s.devices { base := a, size := n }) :
    hostAccessStop a n s = none := by
  simp [hostAccessStop, (wraps_eq_false _).2 hf, (meetsAny_eq_false _ _).2 ha, (meetsAny_eq_false _ _).2 hd]

/-- A HOST read off the window, inside the address space, backed and on no device returns the bytes. -/
theorem hostLoad_memory {s : State} {a n : Nat} (hw : Apart { base := a, size := n } (windowRegion s))
    (hf : Fits { base := a, size := n }) (ha : AvoidsAll s.absent { base := a, size := n })
    (hd : AvoidsAll s.devices { base := a, size := n }) :
    hostLoad a n s = .next (draw n { s with loadData := hostBytesAt s a n }) := by
  simp [hostLoad, (regionsMeet_eq_false _ _).2 hw, hostAccessStop_eq_none hf ha hd]

theorem any_inRegion_iff (rs : List Region) (a : Nat) :
    rs.any (fun r => inRegion r a) = true ↔ ∃ r ∈ rs, InRegion r a := by
  simp [inRegion, InRegion]

theorem hostByteAt_output {s : State} {a : Nat} (h : ∃ r ∈ jobOutputs s, InRegion r a) (d : Nat) :
    hostByteAt s d a = Config.freeByte d :=
  if_pos ((any_inRegion_iff _ _).2 h)

theorem hostByteAt_outside {s : State} {a : Nat} (h : ∀ r ∈ jobOutputs s, ¬ InRegion r a) (d : Nat) :
    hostByteAt s d a = byteAt s d a :=
  if_neg fun hin => by
    obtain ⟨r, hr, hra⟩ := (any_inRegion_iff _ _).1 hin
    exact h r hr hra

theorem inRegion_byte {a x : Nat} : InRegion { base := a, size := 1 } x ↔ x = a := by
  simp only [InRegion]; omega

/-- Settles O46: the read is an ordinary one, and its one byte is drawn exactly in an output range. -/
theorem outputsOfAJobInFlightReadAsDraws : Obligations.OutputsOfAJobInFlightReadAsDraws := by
  intro s j a hj ha habs hdev hwin
  have houts : jobOutputs s = outputRanges j.cmd := by simp [jobOutputs, hj]
  have hload : hostLoad a 1 s =
      .next { s with loadData := [hostByteAt s s.draws a], draws := s.draws + 1 } :=
    hostLoad_memory (fun x ⟨hx, hw⟩ => hwin (inRegion_byte.1 hx ▸ hw)) (.inr (Nat.succ_le_of_lt ha)) habs hdev
  refine ⟨fun hin => ?_, fun hout hany => ?_⟩
  · rw [hload, hostByteAt_output (houts ▸ hin)]
  · rw [hload, hostByteAt_outside (houts ▸ hout), byteAt_definite hany]

/-! ## What both backends leave alike (R123) -/

/-- The state as R123 compares it between the backends: without STATUS.BACKEND, the channels' owner bits and the record
of accesses, whose entries name the agent. -/
def results (s : State) : State :=
  { s with backend := .cpu, ch0Owned := false, ch1Owned := false, accessLog := [] }

/-- Two states agree in all that R123 compares between the backends. -/
def SameResults (s t : State) : Prop := results s = results t

theorem results_logAccess (ag : Agent) (k : AccessKind) (a n : Nat) (s : State) :
    results (logAccess ag k a n s) = results s := by
  unfold logAccess; split <;> rfl

theorem results_storeBytes (a : Nat) (bs : List Byte) (s : State) :
    results (storeBytes a bs s) = storeBytes a bs (results s) := by
  unfold storeBytes; split <;> rfl

theorem results_afterRead (ag : Agent) (a n : Nat) (s : State) : results (afterRead ag a n s) = draw n (results s) :=
  congrArg (draw n) (results_logAccess ag .read a n s)

theorem results_engineWrite (ag : Agent) (a : Nat) (bs : List Byte) (s : State) :
    results (engineWrite ag a bs s) = storeBytes a bs (results s) := by
  rw [engineWrite, results_storeBytes, results_logAccess]

namespace SameResults
variable {s t : State}

/-- What depends on the compared part alone is the same. -/
theorem reads {α : Type} (h : SameResults s t) (f : State → α) (hf : ∀ u, f (results u) = f u) : f s = f t := by
  rw [← hf s, ← hf t, h]

/-- An operation that performs no access and does not look outside the compared part keeps the agreement. -/
theorem map (h : SameResults s t) (f : State → State) (hf : ∀ u, results (f u) = results (f (results u))) :
    SameResults (f s) (f t) := by
  rw [SameResults, hf s, hf t, h]

theorem map_afterRead (h : SameResults s t) (ag ag' : Agent) (a n : Nat) :
    SameResults (afterRead ag a n s) (afterRead ag' a n t) := by
  rw [SameResults, results_afterRead, results_afterRead, h]

theorem map_engineWrite (h : SameResults s t) (ag ag' : Agent) (a : Nat) (bs : List Byte) :
    SameResults (engineWrite ag a bs s) (engineWrite ag' a bs t) := by
  rw [SameResults, results_engineWrite, results_engineWrite, h]

theorem map_setErr (h : SameResults s t) (e : ErrCode) : SameResults (setErr e s) (setErr e t) :=
  h.map (setErr e) fun _ => rfl

theorem map_setSession (h : SameResults s t) (x : SessState) :
    SameResults { s with session := x } { t with session := x } :=
  h.map (fun u : State => { u with session := x }) fun _ => rfl

theorem map_absorb (h : SameResults s t) (d : List Byte) : SameResults (absorb d s) (absorb d t) :=
  h.map (absorb d) fun _ => rfl

theorem map_countBlock (h : SameResults s t) (k : Nat) : SameResults (countBlock k s) (countBlock k t) :=
  h.map (countBlock k) fun _ => rfl

theorem map_payloadBlock (h : SameResults s t) (ag ag' : Agent) (inA outA k : Nat) :
    SameResults (payloadBlock ag inA outA k s) (payloadBlock ag' inA outA k t) := by
  have hin : blockInput inA k s = blockInput inA k t := h.reads _ fun _ => rfl
  have hout : blockOutput inA k s = blockOutput inA k t := h.reads _ fun _ => rfl
  have hdir : s.dir = t.dir := h.reads _ fun _ => rfl
  unfold payloadBlock
  rw [hin, hout, hdir]
  exact (((h.map_afterRead ag ag' inA k).map_absorb _).map_engineWrite ag ag' outA _).map_countBlock k

theorem map_payloadBlocks (h : SameResults s t) (ag ag' : Agent) (n inA outA len : Nat) :
    SameResults (payloadBlocks ag n inA outA len s) (payloadBlocks ag' n inA outA len t) := by
  induction n generalizing inA outA len s t with
  | zero => exact h
  | succ n ih => exact ih (h.map_payloadBlock ag ag' inA outA (min 64 len)) _ _ _

theorem map_processPayload (h : SameResults s t) (ag ag' : Agent) (p : PayloadArgs) :
    SameResults (processPayload ag p s) (processPayload ag' p t) :=
  h.map_payloadBlocks ag ag' _ _ _ _

theorem map_absorbAad (h : SameResults s t) (ag ag' : Agent) (a : InitArgs) :
    SameResults (absorbAad ag a s) (absorbAad ag' a t) := by
  have haad : bytesAt s a.aadPtr.toNat a.aadLen.toNat = bytesAt t a.aadPtr.toNat a.aadLen.toNat :=
    h.reads (fun u => bytesAt u _ _) fun _ => rfl
  unfold absorbAad
  rw [haad]
  exact ((h.map_afterRead ag ag' _ _).map_absorb _).map
    (fun u : State => { u with aadBytes := a.aadLen.setWidth 64 }) fun _ => rfl

theorem map_finishSession (h : SameResults s t) (ag ag' : Agent) (tagPtr : Word) :
    SameResults (finishSession ag tagPtr s) (finishSession ag' tagPtr t) := by
  have htag : finalTag s = finalTag t := h.reads _ fun _ => rfl
  have hacc : SameResults (finishAcc s) (finishAcc t) := h.map finishAcc fun _ => rfl
  unfold finishSession
  rw [htag]
  exact (hacc.map_engineWrite ag ag' _ _).map
    (fun u : State => releaseChannels { writeTag (finalTag t) u with session := .finalized }) fun _ => rfl

/-- A body leaves the same results whichever agent performs it (R123). -/
theorem map_bodyOf (h : SameResults s t) (ag ag' : Agent) (c : Command) :
    SameResults (bodyOf ag c s) (bodyOf ag' c t) := by
  cases c with
  | init d a => exact (h.map_absorbAad ag ag' a).map_setSession .aadDone
  | updateExcl p => exact (h.map_processPayload ag ag' p).map_setSession .payloadStreaming
  | updateIncl p tp => exact (h.map_processPayload ag ag' p).map_finishSession ag ag' tp
  | aead d a p tp => exact ((h.map_absorbAad ag ag' a).map_processPayload ag ag' p).map_finishSession ag ag' tp

theorem map_sessionLoad (h : SameResults s t) (m : Dir) (a : InitArgs) :
    SameResults (sessionLoad m a s) (sessionLoad m a t) := by
  have hkey : keyAt s a.keyPtr = keyAt t a.keyPtr := h.reads (fun u => keyAt u _) fun _ => rfl
  unfold sessionLoad
  rw [hkey]
  exact (h.map_afterRead .engine .engine a.keyPtr.toNat 32).map
    (fun u : State => { loadContext (keyAt t a.keyPtr) (nonceOf a.constant a.ivLo a.ivHi) u with
      dir := m, ctr := a.initCtr, ctrExh := false, aadBytes := 0, payloadBytes := 0,
      tag0 := 0, tag1 := 0, tag2 := 0, tag3 := 0, tagAny := false, lock := true })
    fun _ => rfl

end SameResults

/-- The accept part leaves the same results in either backend: the channels are all that the DMA backend adds (R113). -/
theorem acceptPart_sameResults (b : Backend) (c : Command) (s : State) :
    SameResults (acceptPart c { s with backend := b }) (acceptPart c s) := by
  have herr : SameResults (setErr .ok { s with backend := b }) (setErr .ok s) := rfl
  cases c with
  | init m a =>
    have hload := herr.map_sessionLoad m a
    rw [acceptPart_init, acceptPart_init]
    split <;> split <;> exact hload
  | updateExcl p => exact herr
  | updateIncl p tp => exact herr
  | aead m a p tp =>
    have hload := herr.map_sessionLoad m a
    rw [acceptPart_aead, acceptPart_aead]
    split <;> split <;> exact hload

/-! ## A job completed at once (R116, R117) -/

/-- The completion, with DMA_OK = true, of a job that did not race and whose ranges are all backed (R117). -/
theorem dmaTurn_unraced {s : State} {j : Job} (hj : s.job = some j) (hr : j.raced = false) (hc : s.ctxHeld = true)
    (hb : ∀ r ∈ bodyRanges j.cmd, AvoidsAll s.absent r) :
    dmaTurn true s = .next (setErr .ok (bodyOf .dma j.cmd { s with job := none })) := by
  have hbacked : jobUnbacked s j = false := by
    simpa only [jobUnbacked, List.any_eq_false, Bool.not_eq_true, meetsAny_eq_false] using hb
  simp [dmaTurn, hj, hbacked, runBody, hc, raceEffect, hr]

theorem startJob_dropped {s : State} (c : Command) (h : s.job = none) : { startJob c s with job := none } = s := by
  cases s; cases h; rfl

/-- A job of a backed command that is completed as soon as it has started performs the command's body on the state it
started from. -/
theorem dmaTurn_startJob {s : State} {c : Command} (hj : s.job = none) (hc : s.ctxHeld = true)
    (hb : ∀ r ∈ bodyRanges c, AvoidsAll s.absent r) :
    dmaTurn true (startJob c s) = .next (setErr .ok (bodyOf .dma c s)) := by
  rw [dmaTurn_unraced (s := startJob c s) rfl rfl hc hb, startJob_dropped c hj]

theorem setErr_self {e : ErrCode} {s : State} (h : s.err = e) : setErr e s = s := by
  cases s; cases h; rfl

theorem issuedBy_backend (i : Instr) (b : Backend) (s : State) : issuedBy i { s with backend := b } = issuedBy i s := by
  cases i <;> rfl

/-- Where a command that starts a job answers with ERR = OK, its checks and its refusals have all passed. -/
theorem exec_ok_issued {i : Instr} {s t : State}
    (hi : i ∈ [Instr.initEnc, .initDec, .updateExcl, .updateIncl, .aeadEnc, .aeadDec])
    (h : exec i s = .next t) (hok : t.err = .ok) : ∃ c, issuedBy i s = some (c, none) ∧
      bufferRefusal s (keyRanges c ++ bodyRanges c) (accessedWithin s c) (payloadOf c) = none ∧
      launch c s = .next t := by
  rcases exec_cases h with
    ⟨e, hne, -, rfl⟩ | ⟨-, -, b, ⟨rfl, -⟩ | ⟨rfl, -⟩, -⟩ | ⟨-, rfl, -⟩ | ⟨-, rfl, -⟩ | ⟨-, accepted⟩
  · rw [raiseErr_eq] at hok
    exact absurd hok hne
  iterate 4 · simp at hi
  · exact accepted

/-- What a command accepted in the CPU backend has done, and that the ranges of its body are backed (R40, R95). -/
theorem exec_ok_cpu {i : Instr} {s t : State}
    (hi : i ∈ [Instr.initEnc, .initDec, .updateExcl, .updateIncl, .aeadEnc, .aeadDec])
    (hcpu : s.backend = .cpu) (h : exec i s = .next t) (hok : t.err = .ok) : ∃ c, issuedBy i s = some (c, none) ∧
      (∀ r ∈ bodyRanges c, AvoidsAll s.absent r) ∧ (acceptPart c s).ctxHeld = true ∧
      t = bodyOf .engine c (acceptPart c s) := by
  obtain ⟨c, hissued, hrefusal, hlaunch⟩ := exec_ok_issued hi h hok
  obtain ⟨-, hbacked, -⟩ := (bufferRefusal_eq_none _ _ _ _).1 hrefusal
  obtain ⟨-, hctx, rfl⟩ | ⟨hdma, -⟩ := launch_cases hlaunch
  · refine ⟨c, hissued, fun r hr => hbacked r ?_, hctx, rfl⟩
    simp [accessedWithin, hcpu, hr]
  · simp [hcpu] at hdma

/-- What a command whose checks pass has done in the DMA backend, where it is not refused (R95, R116). -/
theorem exec_issued_dma {i : Instr} {s u : State} {c : Command} (hj : s.job = none) (hdma : s.backend = .dma)
    (hissued : issuedBy i s = some (c, none)) (h : exec i s = .next u) : u = startJob c (acceptPart c s) := by
  rw [exec_issued hj hissued] at h
  obtain ⟨e, he, -⟩ | ⟨-, -, hlaunch⟩ := issue_cases h
  · cases he
  · obtain ⟨hcpu, -⟩ | ⟨-, hu⟩ := launch_cases hlaunch
    · simp [hdma] at hcpu
    · exact hu

/-- A job completed as soon as it has started leaves the results of its command's body run by the engine at once. -/
theorem dmaTurn_startJob_sameResults {s t : State} {c : Command} (h : SameResults s t) (hj : t.job = none)
    (hc : t.ctxHeld = true) (hb : ∀ r ∈ bodyRanges c, AvoidsAll t.absent r) :
    ∃ v, dmaTurn true (startJob c s) = .next v ∧ SameResults v (setErr .ok (bodyOf .engine c t)) := by
  have hjob : s.job = t.job := h.reads _ fun _ => rfl
  have hctx : s.ctxHeld = t.ctxHeld := h.reads _ fun _ => rfl
  have habsent : s.absent = t.absent := h.reads _ fun _ => rfl
  exact ⟨_, dmaTurn_startJob (hjob.trans hj) (hctx.trans hc) (habsent ▸ hb),
    (h.map_bodyOf .dma .engine c).map_setErr .ok⟩

/-- Settles O59: the runs differ in the agent, the backend and the channels, on which no result depends. -/
theorem backendsLeaveTheSameResults : Obligations.BackendsLeaveTheSameResults := by
  intro s t u i hi hj hcpu ht hok hu
  obtain ⟨c, hissued, hbacked, hctx, rfl⟩ := exec_ok_cpu hi hcpu ht hok
  have hjob : (acceptPart c s).job = none := by simpa using hj
  obtain ⟨v, hrun, hsame⟩ :=
    dmaTurn_startJob_sameResults (acceptPart_sameResults .dma c s) hjob hctx (by simpa using hbacked)
  rw [setErr_self hok] at hsame
  have hstart := exec_issued_dma (s := { s with backend := .dma }) hj rfl ((issuedBy_backend i .dma s).trans hissued) hu
  rw [hstart]
  refine ⟨v, hrun, ?_⟩
  simp only [SameResults, results, State.mk.injEq] at hsame
  simp [hsame, hj]

end Sys2Proof.Machine

namespace Sys2Proof.Machine

/-! ## HOST accesses of the register window, inverted (R42) -/

theorem regOffset_of_regAt {off : Nat} {r : WinReg} (h : regAt off = some r) : off = regOffset r := by
  unfold regAt at h
  split at h
  case h_13 =>
    split at h
    · injection h with h
      subst h
      simp only [regOffset]
      omega
    · cases h
  all_goals injection h with h; subst h; rfl

theorem width_of_accessRefusal {off : Nat} {width : Width} (h : accessRefusal off width = none) : width = .w32 := by
  cases width with
  | w32 => rfl
  | w8 => simp [accessRefusal, accessAligned] at h
  | w16 => simp [accessRefusal, accessAligned] at h

/-- All that a register read can do: return a word to the HOST. -/
theorem busRead_cases {off : Nat} {width : Width} {s t : State} (h : busRead off width s = .next t) :
    ∃ v drawn, t = returnWord v drawn s := by
  unfold busRead at h
  split at h
  · cases h
  · split at h
    · cases h
    · split at h
      · cases h
      · injection h with h
        exact ⟨_, _, h.symm⟩

/-- All that a register write can do: a command write, an argument write, or nothing. -/
theorem busWrite_cases {off : Nat} {width : Width} {w : Word} {s t : State} (h : busWrite off width w s = .next t) :
    (off = 0 ∧ width = .w32 ∧ writeCmd w s = .next t) ∨ (∃ i, t = writeArg i w s) ∨ t = s := by
  unfold busWrite at h
  split at h
  · cases h
  · rename_i hok
    split at h
    · cases h
    · exact .inl ⟨regOffset_of_regAt ‹_›, width_of_accessRefusal hok, h⟩
    · injection h with h
      exact .inr (.inl ⟨_, h.symm⟩)
    · injection h with h
      exact .inr (.inr h.symm)

/-- Where an ordinary HOST access has an outcome, its range fits the address space. -/
theorem fits_of_hostAccessStop {s : State} {a n : Nat} (h : hostAccessStop a n s = none) :
    Fits { base := a, size := n } := by
  rw [← wraps_eq_false]
  cases hw : wraps { base := a, size := n } with
  | false => rfl
  | true => simp [hostAccessStop, hw] at h

theorem hostAccessStop_ne_next {s : State} {a n : Nat} {o : Out} (h : hostAccessStop a n s = some o) (t : State) :
    o ≠ .next t := by
  unfold hostAccessStop at h
  split at h
  · cases h; simp
  · split at h <;> cases h; simp

/-! ## All that one step can do to the engine -/

/-- The state without the ARGs, the HOST's side, the schedule and the counter of draws. -/
def engineSide (s : State) : State :=
  { s with args := Vector.replicate 16 0, argsHeld := Vector.replicate 16 false, inbox := [], turns := [],
           busData := 0, loadData := [], draws := 0 }

/-- The engine, its memory and the platform are the same in both states. -/
def SameEngine (s t : State) : Prop := engineSide t = engineSide s

namespace SameEngine
variable {s t u : State}

theorem trans (h : SameEngine s t) (k : SameEngine t u) : SameEngine s u := Eq.trans k h

/-- What depends on the engine alone is the same. -/
theorem reads {α : Type} (h : SameEngine s t) (f : State → α) (hf : ∀ u, f (engineSide u) = f u) : f t = f s := by
  rw [← hf t, ← hf s, h]

theorem session_eq (h : SameEngine s t) : t.session = s.session := h.reads (·.session) fun _ => rfl
theorem backend_eq (h : SameEngine s t) : t.backend = s.backend := h.reads (·.backend) fun _ => rfl
theorem lock_eq (h : SameEngine s t) : t.lock = s.lock := h.reads (·.lock) fun _ => rfl
theorem errlog_eq (h : SameEngine s t) : t.errlog = s.errlog := h.reads (·.errlog) fun _ => rfl
theorem job_eq (h : SameEngine s t) : t.job = s.job := h.reads (·.job) fun _ => rfl

end SameEngine

/-- All that a HOST operation can do: leave the engine alone, write a command word, or store bytes. -/
theorem hostOp_cases {op : HostOp} {s t : State} (h : hostOp op s = .next t) :
    SameEngine s t ∨ (∃ w, WritesCmd s op w ∧ writeCmd w s = .next t) ∨
    (∃ a bs, Fits { base := a, size := bs.length } ∧ t = noteRace a bs.length (storeBytes a bs s)) := by
  cases op with
  | busWrite off width w =>
    obtain ⟨rfl, rfl, hcmd⟩ | ⟨i, rfl⟩ | rfl := busWrite_cases h
    · exact .inr (.inl ⟨w, .inl rfl, hcmd⟩)
    · exact .inl rfl
    · exact .inl rfl
  | busRead off width =>
    obtain ⟨v, drawn, rfl⟩ := busRead_cases h
    exact .inl rfl
  | store a bs =>
    simp only [hostOp, hostStore] at h
    split at h
    · split at h
      · rename_i hwin
        obtain ⟨hoff, -, hcmd⟩ | ⟨i, rfl⟩ | rfl := busWrite_cases h
        · have ha : a = windowBase s := by omega
          exact .inr (.inl ⟨_, .inr ⟨bs, by rw [ha], hwin.2, rfl⟩, hcmd⟩)
        · exact .inl rfl
        · exact .inl rfl
      · cases h
    · split at h
      · exact absurd h (hostAccessStop_ne_next ‹_› t)
      · injection h with h
        exact .inr (.inr ⟨a, bs, fits_of_hostAccessStop ‹_›, h.symm⟩)
  | load a n =>
    simp only [hostOp, hostLoad] at h
    split at h
    · split at h
      · split at h
        · injection h with h
          subst h
          obtain ⟨v, drawn, rfl⟩ := busRead_cases ‹_›
          exact .inl rfl
        · cases h
        · cases h
      · cases h
    · split at h
      · exact absurd h (hostAccessStop_ne_next ‹_› t)
      · injection h with h
        subst h
        exact .inl rfl
  | wait =>
    simp only [hostOp, hostWait] at h
    injection h with h
    subst h
    split <;> exact .inl rfl
  | secondHost => cases h

/-- A body runs only on a context that holds a value (R15). -/
theorem runBody_next {ag : Agent} {c : Command} {s t : State} (h : runBody ag c s = .next t) :
    s.ctxHeld = true ∧ t = bodyOf ag c s := by
  unfold runBody at h
  split at h
  · injection h with h
    exact ⟨‹_›, h.symm⟩
  · cases h

/-- All that the DMA agent's turn can do (R117): nothing without a job, the body of the job, or the HardwareFault. -/
theorem dmaTurn_cases {ok : Bool} {s t : State} (h : dmaTurn ok s = .next t) :
    (s.job = none ∧ t = s) ∨ ∃ j, s.job = some j ∧
      ((s.ctxHeld = true ∧ t = setErr .ok (raceEffect j (bodyOf .dma j.cmd { s with job := none }))) ∨
        t = dmaFault j { s with job := none }) := by
  unfold dmaTurn at h
  split at h
  · injection h with h
    exact .inl ⟨‹_›, h.symm⟩
  · rename_i j hj
    refine .inr ⟨j, hj, ?_⟩
    simp only at h
    split at h
    · split at h
      · obtain ⟨hheld, hbody⟩ := runBody_next ‹_›
        injection h with h
        exact .inl ⟨hheld, by rw [← h, hbody]⟩
      · cases h
      · cases h
    · injection h with h
      exact .inr h.symm

/-- All that one step can do to the engine: `u` is the state once the turn, and what the HOST performs, is taken out. -/
inductive Effect (s t : State) : Prop where
  | quiet (same : SameEngine s t)
  | command (i : Instr) (u : State) (same : SameEngine s u) (next : NextIsCommand s i) (run : exec i u = .next t)
  | illegal (u : State) (same : SameEngine s u) (result : t = logErr .illegalCommand u)
  | store (u : State) (a : Nat) (bs : List Byte) (same : SameEngine s u) (fits : Fits { base := a, size := bs.length })
      (result : t = noteRace a bs.length (storeBytes a bs u))
  | complete (u : State) (j : Job) (same : SameEngine s u) (inFlight : u.job = some j)
      (next : NextIsCompletion s j.cmd) (held : u.ctxHeld = true)
      (result : t = setErr .ok (raceEffect j (bodyOf .dma j.cmd { u with job := none })))
  | fail (u : State) (j : Job) (same : SameEngine s u) (inFlight : u.job = some j)
      (next : NextIsCompletion s j.cmd) (result : t = dmaFault j { u with job := none })
  | reset (u : State) (same : SameEngine s u) (ts : List Turn) (scheduled : s.turns = .reset :: ts)
      (result : t = platformReset u)

theorem hostTurn_effect {s u t : State} (same : SameEngine s u) (hinbox : u.inbox = s.inbox)
    (hturn : (∃ ts, s.turns = .host :: ts) ∨ s.turns = [] ∧ s.job = none)
    (h : hostTurn u = .next t) : Effect s t := by
  unfold hostTurn at h
  split at h
  · injection h with h
    exact .quiet (h ▸ same)
  · rename_i op rest hin
    have popped : SameEngine s { u with inbox := rest } := same
    obtain hquiet | ⟨w, hw, hcmd⟩ | ⟨a, bs, hfits, ht⟩ := hostOp_cases h
    · exact .quiet (popped.trans hquiet)
    · unfold writeCmd at hcmd
      split at hcmd
      · have hbase : windowBase { u with inbox := rest } = windowBase s := popped.reads windowBase fun _ => rfl
        have hwrites : WritesCmd s op w := by simpa only [WritesCmd, hbase] using hw
        exact .command _ _ popped ⟨hturn, op, rest, w, hinbox ▸ hin, hwrites, ‹_›⟩ hcmd
      · injection hcmd with ht
        exact .illegal _ popped ht.symm
    · exact .store _ a bs popped hfits ht

theorem dmaTurn_effect {s u t : State} {ok : Bool} (same : SameEngine s u)
    (hturn : (∃ ok ts, s.turns = .dma ok :: ts) ∨ s.turns = []) (h : dmaTurn ok u = .next t) : Effect s t := by
  obtain ⟨-, rfl⟩ | ⟨j, hj, hend⟩ := dmaTurn_cases h
  · exact .quiet same
  · have hnext : NextIsCompletion s j.cmd := ⟨⟨j.raced, same.job_eq ▸ hj⟩, hturn⟩
    obtain ⟨hheld, ht⟩ | ht := hend
    · exact .complete u j same hj hnext hheld ht
    · exact .fail u j same hj hnext ht

/-- What moves in a step, and what it does to the engine (R17, R136). -/
theorem step_effect {s t : State} (h : step s = .next t) : Effect s t := by
  unfold step takeTurn at h
  split at h
  · rename_i ts hts
    exact hostTurn_effect (u := { s with turns := ts }) rfl rfl (.inl ⟨ts, hts⟩) h
  · rename_i ok ts hts
    exact dmaTurn_effect (u := { s with turns := ts }) rfl (.inl ⟨ok, ts, hts⟩) h
  · rename_i ts hts
    injection h with h
    exact .reset { s with turns := ts } rfl ts hts h.symm
  · rename_i hts
    split at h
    · exact dmaTurn_effect (u := draw 1 s) rfl (.inr hts) h
    · exact hostTurn_effect (u := s) rfl rfl (.inr ⟨hts, (busy_eq_false s).1 (Bool.eq_false_iff.2 ‹_›)⟩) h

/-! ## The accumulator stays below p (R91, R92) -/

theorem polyAbsorb_lt (r : BitVec 128) (acc : Nat) (blk : List Byte) : polyAbsorb r acc blk < polyP :=
  Nat.mod_lt _ (by decide)

theorem polyAbsorbBlocks_lt {r : BitVec 128} {acc : Nat} (h : acc < polyP) (n : Nat) (d : List Byte) :
    polyAbsorbBlocks r n acc d < polyP := by
  induction n generalizing acc d with
  | zero => exact h
  | succ n ih => exact ih (polyAbsorb_lt r acc _) _

theorem polyAbsorbPadded_lt {r : BitVec 128} {acc : Nat} (h : acc < polyP) (d : List Byte) :
    polyAbsorbPadded r acc d < polyP :=
  polyAbsorbBlocks_lt h _ d

theorem finalAcc_lt (s : State) : finalAcc s < polyP := by
  unfold finalAcc
  split
  · exact Nat.mod_lt _ (by decide)
  · exact polyAbsorb_lt _ _ _

/-- The key setup clamps R (R83). -/
theorem polyKeyR_clamped (key : BitVec 256) (nonce : BitVec 96) :
    polyKeyR key nonce &&& clampMask = polyKeyR key nonce := by
  rw [polyKeyR, BitVec.and_assoc, BitVec.and_self]

/-! ## Memory in canonical form under the operations -/

theorem addressSpace_eq : Config.addressSpace = 2 ^ 32 := rfl

theorem fits_iff (a n : Nat) : Fits { base := a, size := n } ↔ n = 0 ∨ a + n ≤ Config.addressSpace := by
  rw [addressSpace_eq]; rfl

/-- A store into a range that fits keeps the canonical form. -/
theorem storeBytes_keeps_canonical {s : State} {a : Nat} {bs : List Byte} (h : MemCanonical s)
    (hf : Fits { base := a, size := bs.length }) : MemCanonical (storeBytes a bs s) :=
  storeBytes_canonical h ((fits_iff _ _).1 hf)

theorem markRanges_canonical {s : State} {rs : List Region} (h : MemCanonical s) (hf : rs.any wraps = false) :
    MemCanonical (markRanges rs s) :=
  ⟨h.1, markRanges_wf h.2 hf⟩

/-- Marking nothing but bytes inside the output range, a run of blocks keeps the canonical form. -/
theorem payloadBlocks_canonical (ag : Agent) (n inA outA len : Nat) {s : State} (h : MemCanonical s)
    (hn : 64 * n < len + 64) (hf : Fits { base := outA, size := len }) :
    MemCanonical (payloadBlocks ag n inA outA len s) := by
  induction n generalizing inA outA len s with
  | zero => exact h
  | succ n ih =>
    have hlen : (blockOutput inA (min 64 len) s).length = min 64 len := blockOutput_length (by omega)
    have hstore : MemCanonical (storeBytes outA (blockOutput inA (min 64 len) s) s) :=
      storeBytes_keeps_canonical h (by rw [hlen]; simp only [Fits] at hf ⊢; omega)
    refine ih _ _ _ ?_ (by omega) (by simp only [Fits] at hf ⊢; omega)
    simpa only [MemCanonical, payloadBlock_mem, payloadBlock_anyMem] using hstore

theorem finishSession_canonical {ag : Agent} {tagPtr : Word} {s : State} (h : MemCanonical s)
    (hf : Fits (tagBuffer tagPtr)) : MemCanonical (finishSession ag tagPtr s) := by
  have hstore : MemCanonical (storeBytes tagPtr.toNat (tagBytes (finalTag s)) s) :=
    storeBytes_keeps_canonical h (by rw [tagBytes_length]; exact hf)
  simpa only [MemCanonical, finishSession_mem, finishSession_anyMem] using hstore

/-! ## The counter range (R30, R97) -/

theorem capacity_congr {s t : State} (hexh : t.ctrExh = s.ctrExh) (hctr : t.ctr = s.ctr) (n : Nat) :
    capacity t n = capacity s n := by
  simp only [capacity, hexh, hctr]

/-- One block of a piece that the counter has room for. -/
theorem payloadBlock_capacity {ag : Agent} {inA outA k n : Nat} {s : State} (h : capacity s (n + 1) = true) :
    CounterLegal (payloadBlock ag inA outA k s) ∧ capacity (payloadBlock ag inA outA k s) n = true := by
  have hcap : s.ctrExh = false ∧ s.ctr.toNat + (n + 1) ≤ 2 ^ 32 := by simpa [capacity] using h
  obtain ⟨hexh, hroom⟩ := hcap
  by_cases hlast : s.ctr = 4294967295#32
  · have hn : n = 0 := by
      have hmax : s.ctr.toNat = 2 ^ 32 - 1 := by rw [hlast]; rfl
      omega
    exact ⟨fun _ => by simp [hlast], by simp [hn, capacity]⟩
  · have hctr : (s.ctr + 1).toNat = s.ctr.toNat + 1 := by bv_omega
    refine ⟨fun hc => ?_, ?_⟩
    · simp [hexh, hlast] at hc
    · have hroom' : s.ctr.toNat + 1 + n ≤ 4294967296 := by omega
      simp only [capacity, payloadBlock_ctrExh, payloadBlock_ctr, hctr]
      simp [hexh, hlast, hroom']

theorem payloadBlocks_counterLegal (ag : Agent) (n inA outA len : Nat) {s : State} (h : CounterLegal s)
    (hcap : capacity s n = true) : CounterLegal (payloadBlocks ag n inA outA len s) := by
  induction n generalizing inA outA len s with
  | zero => exact h
  | succ n ih =>
    obtain ⟨hlegal, hrest⟩ := payloadBlock_capacity (ag := ag) (inA := inA) (outA := outA) (k := min 64 len) hcap
    exact ih _ _ _ hlegal hrest

theorem payloadBlocks_accReduced (ag : Agent) (n inA outA len : Nat) {s : State} (h : AccReduced s) :
    AccReduced (payloadBlocks ag n inA outA len s) := by
  induction n generalizing inA outA len s with
  | zero => exact h
  | succ n ih => exact ih _ _ _ (by simpa [AccReduced] using polyAbsorbPadded_lt h _)

/-! ## A command accepted and not yet performed -/

/-- The STATE admits the command: one in which a session may begin, or one in which a session goes on (R101 to R104). -/
def Admits (c : Command) (s : State) : Prop := if beginsSession c then mayBegin s = true else mayUpdate s = true

theorem admits_congr {c : Command} {s t : State} (h : t.session = s.session) : Admits c t ↔ Admits c s := by
  simp only [Admits, mayBegin, mayUpdate, h]

/-- What holds between the accept of a command and its body, in either backend and whether or not a job carries it
(R94, R99, R113, R116). -/
structure Accepted (c : Command) (s : State) : Prop where
  memory     : MemCanonical s
  errlog     : ErrlogLegal s
  acc        : AccReduced s
  multiplier : MultiplierClamped s
  counter    : CounterLegal s
  held       : s.ctxHeld = true
  locked     : s.lock = true
  idle       : s.job = none
  paired     : s.ch0Owned = s.ch1Owned
  owned      : s.ch0Owned = true ↔ s.backend = .dma
  session    : Admits c s
  fits       : (bodyRanges c).any wraps = false
  room       : capacity s (payloadBlocksOf c) = true

theorem mayBegin_iff (s : State) : mayBegin s = true ↔ s.session = .created ∨ s.session = .finalized := by
  simp [mayBegin]

theorem mayUpdate_iff (s : State) : mayUpdate s = true ↔ s.session = .aadDone ∨ s.session = .payloadStreaming := by
  simp [mayUpdate]

/-- With no job in flight the channels are owned exactly while a session of the DMA backend goes on (R115). -/
theorem owned_iff_of_idle {s : State} (h : ChannelsLegal s) (hj : s.job = none) :
    s.ch0Owned = true ↔ s.backend = .dma ∧ (mayUpdate s = true ∨ s.session = .faulted) := by
  simpa [hj] using h.2

/-- Where a session may begin, the channels are free. -/
theorem free_of_mayBegin {s : State} (h : ChannelsLegal s) (hj : s.job = none) (hs : mayBegin s = true) :
    s.ch0Owned = false ∧ s.ch1Owned = false := by
  have hfree : s.ch0Owned = false := by
    rw [← Bool.not_eq_true, owned_iff_of_idle h hj, mayUpdate_iff]
    rcases (mayBegin_iff s).1 hs with hs | hs <;> simp [hs]
  exact ⟨hfree, h.1 ▸ hfree⟩

/-- A job in flight has been accepted. -/
theorem MachineInv.accepted_of_job {s : State} {j : Job} (h : MachineInv s) (hj : s.job = some j) :
    Accepted j.cmd { s with job := none } := by
  obtain ⟨hdma, hsession, hfits, hroom⟩ := h.job j hj
  have hbusy : s.job ≠ none := by simp [hj]
  have howned : s.ch0Owned = true := by
    refine h.channels.2.2 ⟨hdma, ?_⟩
    cases hb : beginsSession j.cmd with
    | true => exact .inr (.inr ⟨j, hj, hb⟩)
    | false => exact .inl (by simpa [hb] using hsession)
  exact {
    memory := h.memory, errlog := h.errlog, acc := h.acc, multiplier := h.multiplier, counter := h.counter
    held := h.context (.inr hbusy), locked := h.lock (.inr hbusy), idle := rfl, paired := h.channels.1
    owned := by simp [howned, hdma]
    session := hsession, fits := hfits, room := hroom }

/-- A job that starts with an accepted command meets the invariant (R116). -/
theorem Accepted.startJob_inv {c : Command} {s : State} (h : Accepted c s) (hdma : s.backend = .dma) :
    MachineInv (startJob c s) where
  memory := h.memory
  errlog := h.errlog
  acc := h.acc
  multiplier := h.multiplier
  channels := by
    refine ⟨h.paired, fun _ => ⟨hdma, ?_⟩, fun _ => h.owned.2 hdma⟩
    cases hb : beginsSession c with
    | true => exact .inr (.inr ⟨_, rfl, hb⟩)
    | false => exact .inl (by simpa [Admits, hb, mayUpdate] using h.session)
  context := fun _ => h.held
  lock := fun _ => h.locked
  counter := h.counter
  job := fun j hj => by
    obtain rfl := Option.some.inj hj
    exact ⟨hdma, h.session, h.fits, h.room⟩
  created := fun _ hj => by cases hj
  faulted := fun hs => by
    have hadmits := h.session
    have hs : s.session = .faulted := hs
    unfold Admits at hadmits
    split at hadmits
    · simp [mayBegin_iff, hs] at hadmits
    · simp [mayUpdate_iff, hs] at hadmits

/-! ## The body of an accepted command -/

theorem fits_of_bodyRanges {c : Command} (h : (bodyRanges c).any wraps = false) {r : Region}
    (hr : r ∈ outputRanges c) : Fits r := by
  rw [← wraps_eq_false]
  exact Bool.eq_false_iff.2 (List.any_eq_false.1 h r (List.mem_append_right _ hr))

theorem outputs_fit {c : Command} (h : (bodyRanges c).any wraps = false) : (outputRanges c).any wraps = false := by
  rw [bodyRanges, List.any_append, Bool.or_eq_false_iff] at h
  exact h.2

theorem processPayload_canonical {ag : Agent} {p : PayloadArgs} {s : State} (h : MemCanonical s)
    (hf : Fits (outBuffer p)) : MemCanonical (processPayload ag p s) :=
  payloadBlocks_canonical ag _ _ _ _ h (blocksOf_bound _) hf

/-- The memory of a body stays in canonical form (R39, R46). -/
theorem bodyOf_canonical {ag : Agent} {c : Command} {s : State} (h : MemCanonical s)
    (hf : (bodyRanges c).any wraps = false) : MemCanonical (bodyOf ag c s) := by
  have fits : ∀ r ∈ outputRanges c, Fits r := fun r => fits_of_bodyRanges hf
  have aad : ∀ a, MemCanonical (absorbAad ag a s) := fun a => by simpa [MemCanonical] using h
  cases c with
  | init d a => exact aad a
  | updateExcl p => exact processPayload_canonical h (fits (outBuffer p) (.head _))
  | updateIncl p t =>
    exact finishSession_canonical (processPayload_canonical h (fits (outBuffer p) (.head _)))
      (fits (tagBuffer t) (.tail _ (.head _)))
  | aead d a p t =>
    exact finishSession_canonical (processPayload_canonical (aad a) (fits (outBuffer p) (.head _)))
      (fits (tagBuffer t) (.tail _ (.head _)))

theorem absorbAad_accReduced {ag : Agent} {a : InitArgs} {s : State} (h : AccReduced s) :
    AccReduced (absorbAad ag a s) := by
  simpa [AccReduced] using polyAbsorbPadded_lt h _

theorem bodyOf_accReduced {ag : Agent} {c : Command} {s : State} (h : AccReduced s) : AccReduced (bodyOf ag c s) := by
  cases c with
  | init d a => exact absorbAad_accReduced h
  | updateExcl p => exact payloadBlocks_accReduced ag _ _ _ _ h
  | updateIncl p t => simpa [bodyOf, updateInclBody, AccReduced] using finalAcc_lt _
  | aead d a p t => simpa [bodyOf, aeadBody, AccReduced] using finalAcc_lt _

theorem finishSession_counterLegal {ag : Agent} {t : Word} {s : State} (h : CounterLegal s) :
    CounterLegal (finishSession ag t s) := by
  simpa [CounterLegal] using h

theorem bodyOf_counterLegal {ag : Agent} {c : Command} {s : State} (h : CounterLegal s)
    (hroom : capacity s (payloadBlocksOf c) = true) : CounterLegal (bodyOf ag c s) := by
  have aad : ∀ a, CounterLegal (absorbAad ag a s) := fun a => by simpa [CounterLegal] using h
  cases c with
  | init d a => exact aad a
  | updateExcl p => exact payloadBlocks_counterLegal ag _ _ _ _ h hroom
  | updateIncl p t => exact finishSession_counterLegal (payloadBlocks_counterLegal ag _ _ _ _ h hroom)
  | aead d a p t =>
    have hroom' : capacity (absorbAad ag a s) (blocksOf p.len.toNat) = true :=
      (capacity_congr (absorbAad_ctrExh ag a s) (absorbAad_ctr ag a s) _).trans hroom
    exact finishSession_counterLegal (payloadBlocks_counterLegal ag _ _ _ _ (aad a) hroom')

/-- The STATE that the body of a command leaves (R24). -/
def stateAfter : Command → SessState
  | .init ..       => .aadDone
  | .updateExcl _  => .payloadStreaming
  | .updateIncl .. => .finalized
  | .aead ..       => .finalized

@[simp] theorem bodyOf_session (ag : Agent) (c : Command) (s : State) : (bodyOf ag c s).session = stateAfter c := by
  cases c <;> rfl

/-- A body leaves the channels owned exactly where its session goes on (R114, R115). -/
theorem bodyOf_channels (ag : Agent) (c : Command) (s : State) :
    (stateAfter c = .finalized ∧ (bodyOf ag c s).ch0Owned = false ∧ (bodyOf ag c s).ch1Owned = false) ∨
    ((stateAfter c = .aadDone ∨ stateAfter c = .payloadStreaming) ∧
      (bodyOf ag c s).ch0Owned = s.ch0Owned ∧ (bodyOf ag c s).ch1Owned = s.ch1Owned) := by
  cases c with
  | init d a => exact .inr ⟨.inl rfl, by simp [bodyOf, initBody], by simp [bodyOf, initBody]⟩
  | updateExcl p => exact .inr ⟨.inr rfl, by simp [bodyOf, updateExclBody], by simp [bodyOf, updateExclBody]⟩
  | updateIncl p t => exact .inl ⟨rfl, rfl, rfl⟩
  | aead d a p t => exact .inl ⟨rfl, rfl, rfl⟩

theorem stateAfter_ne (c : Command) : stateAfter c ≠ .created ∧ stateAfter c ≠ .faulted := by
  cases c <;> simp [stateAfter]

/-- The body of an accepted command ends in a state that meets the invariant. -/
theorem Accepted.bodyOf_inv {ag : Agent} {c : Command} {s : State} (h : Accepted c s) :
    MachineInv (bodyOf ag c s) where
  memory := bodyOf_canonical h.memory h.fits
  errlog := by simpa [ErrlogLegal] using h.errlog
  acc := bodyOf_accReduced h.acc
  multiplier := by simpa [MultiplierClamped] using h.multiplier
  channels := by
    obtain ⟨hend, h0, h1⟩ | ⟨hgoes, h0, h1⟩ := bodyOf_channels ag c s
    · simp [ChannelsLegal, h0, h1, mayUpdate, hend, h.idle]
    · have hmay : mayUpdate (bodyOf ag c s) = true := by simpa [mayUpdate_iff] using hgoes
      simp [ChannelsLegal, h0, h1, hmay, h.paired, ← h.owned]
  context := fun _ => by simp [h.held]
  lock := fun _ => by simp [h.locked]
  counter := bodyOf_counterLegal h.counter h.room
  job := fun j hj => by simp [h.idle] at hj
  created := fun hs => absurd (by simpa using hs) (stateAfter_ne c).1
  faulted := fun hs => absurd (by simpa using hs) (stateAfter_ne c).2

/-! ## From the checks to an accepted command (R94, R97, R101 to R104) -/

/-- A list of checks passes where its first one does not raise and the others pass. -/
theorem check_eq_none {p : Prop} [Decidable p] {e : ErrCode} {rest : Option ErrCode} :
    (if p then some e else rest) = none ↔ ¬ p ∧ rest = none := by
  by_cases hp : p <;> simp [hp]

theorem initError_eq_none {s : State} {a : InitArgs} (h : initError s a = none) : mayBegin s = true := by
  simp only [initError, check_eq_none] at h
  simpa using h.1

theorem updateExclError_eq_none {s : State} {p : PayloadArgs} (h : updateExclError s p = none) :
    mayUpdate s = true ∧ capacity s (blocksOf p.len.toNat) = true := by
  simp only [updateExclError, check_eq_none] at h
  obtain ⟨-, hmay, -, hlen, hcap, -⟩ := h
  have hblocks : p.len.toNat / 64 = blocksOf p.len.toNat := by unfold blocksOf; omega
  exact ⟨by simpa using hmay, by simpa [hblocks] using hcap⟩

theorem updateInclError_eq_none {s : State} {p : PayloadArgs} {t : Word} (h : updateInclError s p t = none) :
    mayUpdate s = true ∧ capacity s (blocksOf p.len.toNat) = true := by
  simp only [updateInclError, check_eq_none] at h
  obtain ⟨-, hmay, -, -, hcap, -⟩ := h
  exact ⟨by simpa using hmay, by simpa using hcap⟩

theorem aeadError_eq_none {s : State} {a : InitArgs} {p : PayloadArgs} {t : Word} (h : aeadError s a p t = none) :
    mayBegin s = true ∧ aeadCapacity a.initCtr (blocksOf p.len.toNat) = true := by
  simp only [aeadError, check_eq_none] at h
  obtain ⟨hmay, -, -, -, -, hcap, -⟩ := h
  exact ⟨by simpa using hmay, by simpa using hcap⟩

/-- The accept part of a command that begins a session, whichever it is. -/
theorem acceptPart_begins {c : Command} (h : beginsSession c = true) : ∃ m a, ∀ s, acceptPart c s =
    if s.backend = .dma then acquireChannels (sessionLoad m a (setErr .ok s))
    else sessionLoad m a (setErr .ok s) := by
  cases c with
  | init m a => exact ⟨m, a, acceptPart_init m a⟩
  | aead m a p t => exact ⟨m, a, acceptPart_aead m a p t⟩
  | updateExcl p => cases h
  | updateIncl p t => cases h

/-- What the accept part of a command that begins a session loads (R99). -/
theorem acceptPart_loads {c : Command} (h : beginsSession c = true) (s : State) :
    (acceptPart c s).acc = 0 ∧ MultiplierClamped (acceptPart c s) ∧ (acceptPart c s).ctrExh = false ∧
    (acceptPart c s).ctxHeld = true ∧ (acceptPart c s).lock = true := by
  obtain ⟨m, a, hload⟩ := acceptPart_begins h
  rw [hload]
  split <;> simp [MultiplierClamped, polyKeyR_clamped]

/-- The accept part of a command that begins a session takes the channels in the DMA backend (R113). -/
theorem acceptPart_owned {c : Command} (h : beginsSession c = true) {s : State} (h0 : s.ch0Owned = false)
    (h1 : s.ch1Owned = false) : (acceptPart c s).ch0Owned = (acceptPart c s).ch1Owned ∧
    ((acceptPart c s).ch0Owned = true ↔ s.backend = .dma) := by
  obtain ⟨m, a, hload⟩ := acceptPart_begins h
  rw [hload]
  split <;> simp [*]

theorem acceptPart_aead_ctr (m : Dir) (a : InitArgs) (p : PayloadArgs) (t : Word) (s : State) :
    (acceptPart (.aead m a p t) s).ctr = a.initCtr := by
  rw [acceptPart_aead]
  split <;> simp

/-- What the checks of a command have seen to where they all pass: its STATE, and its counter range (R97). -/
theorem issuedBy_passed {i : Instr} {s : State} {c : Command} (h : issuedBy i s = some (c, none)) :
    Admits c s ∧ capacity (acceptPart c s) (payloadBlocksOf c) = true := by
  have init : ∀ m a, initError s a = none → Admits (.init m a) s ∧
      capacity (acceptPart (.init m a) s) (payloadBlocksOf (.init m a)) = true :=
    fun m a h => ⟨initError_eq_none h, rfl⟩
  have aead : ∀ m a p t, aeadError s a p t = none → Admits (.aead m a p t) s ∧
      capacity (acceptPart (.aead m a p t) s) (payloadBlocksOf (.aead m a p t)) = true := fun m a p t h => by
    obtain ⟨hmay, hcap⟩ := aeadError_eq_none h
    obtain ⟨-, -, hexh, -⟩ := acceptPart_loads (c := .aead m a p t) rfl s
    refine ⟨hmay, ?_⟩
    unfold capacity
    rw [hexh, acceptPart_aead_ctr]
    exact Bool.or_eq_true_iff.2 (.inr hcap)
  cases i <;> simp only [issuedBy, Option.map_eq_some_iff, Prod.mk.injEq, reduceCtorEq] at h
  case initEnc => obtain ⟨a, -, rfl, he⟩ := h; exact init .encrypt a he
  case initDec => obtain ⟨a, -, rfl, he⟩ := h; exact init .decrypt a he
  case updateExcl => obtain ⟨p, -, rfl, he⟩ := h; exact updateExclError_eq_none he
  case updateIncl => obtain ⟨⟨p, t⟩, -, rfl, he⟩ := h; exact updateInclError_eq_none he
  case aeadEnc => obtain ⟨⟨a, p, t⟩, -, rfl, he⟩ := h; exact aead .encrypt a p t he
  case aeadDec => obtain ⟨⟨a, p, t⟩, -, rfl, he⟩ := h; exact aead .decrypt a p t he

theorem zero_lt_polyP : 0 < polyP := by decide

theorem zero_clamped : (0 : BitVec 128) &&& clampMask = 0 := BitVec.zero_and

/-- A command whose checks and refusals all pass is accepted, from a state that meets the invariant. -/
theorem MachineInv.accept {i : Instr} {s : State} {c : Command} (h : MachineInv s) (hj : s.job = none)
    (hissued : issuedBy i s = some (c, none)) (hfits : (bodyRanges c).any wraps = false) :
    Accepted c (acceptPart c s) := by
  obtain ⟨hadmits, hroom⟩ := issuedBy_passed hissued
  have hmemory : MemCanonical (acceptPart c s) := by simpa [MemCanonical] using h.memory
  have herrlog : ErrlogLegal (acceptPart c s) := by simpa [ErrlogLegal] using h.errlog
  have hidle : (acceptPart c s).job = none := by simpa using hj
  have hstate : Admits c (acceptPart c s) := (admits_congr (acceptPart_session c s)).2 hadmits
  cases hb : beginsSession c with
  | true =>
    have hbegin : mayBegin s = true := by simpa [Admits, hb] using hadmits
    obtain ⟨h0, h1⟩ := free_of_mayBegin h.channels hj hbegin
    obtain ⟨hacc, hclamped, hexh, hheld, hlock⟩ := acceptPart_loads hb s
    obtain ⟨hpaired, howned⟩ := acceptPart_owned hb h0 h1
    exact {
      memory := hmemory, errlog := herrlog, acc := by rw [AccReduced, hacc]; exact zero_lt_polyP, multiplier := hclamped
      counter := fun hc => by rw [hexh] at hc; cases hc
      held := hheld, locked := hlock, idle := hidle, paired := hpaired, owned := by simpa using howned
      session := hstate, fits := hfits, room := hroom }
  | false =>
    have hmay : mayUpdate s = true := by simpa [Admits, hb] using hadmits
    have hopen : s.session ≠ .created := by rcases (mayUpdate_iff s).1 hmay with hs | hs <;> simp [hs]
    rw [acceptPart_update hb] at hroom hmemory herrlog hidle hstate ⊢
    exact {
      memory := hmemory, errlog := herrlog, acc := h.acc, multiplier := h.multiplier, counter := h.counter
      held := h.context (.inl hmay), locked := h.lock (.inl hopen), idle := hidle, paired := h.channels.1
      owned := by simp [owned_iff_of_idle h.channels hj, hmay]
      session := hstate, fits := hfits, room := hroom }

/-! ## Each effect keeps the invariant -/

/-- The invariant is about the engine alone. -/
theorem MachineInv.of_sameEngine {s t : State} (h : MachineInv s) (same : SameEngine s t) : MachineInv t := by
  have strip : ∀ u, MachineInv u → MachineInv (engineSide u) := fun u h =>
    ⟨h.memory, h.errlog, h.acc, h.multiplier, h.channels, h.context, h.lock, h.counter, h.job, h.created, h.faulted⟩
  have unstrip : ∀ u, MachineInv (engineSide u) → MachineInv u := fun u h =>
    ⟨h.memory, h.errlog, h.acc, h.multiplier, h.channels, h.context, h.lock, h.counter, h.job, h.created, h.faulted⟩
  exact unstrip t (same ▸ strip s h)

theorem MachineInv.after_setErr {s : State} (h : MachineInv s) (e : ErrCode) : MachineInv (setErr e s) :=
  ⟨h.memory, h.errlog, h.acc, h.multiplier, h.channels, h.context, h.lock, h.counter, h.job, h.created, h.faulted⟩

/-- No error but OK sets a bit of ERRLOG that is reserved (R33). -/
theorem errlogBit_legal {e : ErrCode} (h : e ≠ .ok) : errlogBit e &&& 0xFFFFFF01 = 0 := by
  cases e with
  | ok => exact absurd rfl h
  | _ => decide

theorem MachineInv.after_logErr {s : State} (h : MachineInv s) {e : ErrCode} (he : e ≠ .ok) :
    MachineInv (logErr e s) where
  memory := h.memory
  errlog := by
    have hold : s.errlog &&& 0xFFFFFF01 = 0 := h.errlog
    simp only [ErrlogLegal, logErr_errlog, BitVec.and_or_distrib_right, hold, errlogBit_legal he]
    rfl
  acc := h.acc
  multiplier := h.multiplier
  channels := h.channels
  context := h.context
  lock := h.lock
  counter := h.counter
  job := h.job
  created := h.created
  faulted := h.faulted

/-- Where no session goes on and no job is in flight, the channels may be released. -/
theorem MachineInv.after_releaseChannels {s : State} (h : MachineInv s) (hj : s.job = none)
    (hs : s.session = .finalized) : MachineInv (releaseChannels s) :=
  { h with channels := by simp [ChannelsLegal, mayUpdate, hs, hj] }

theorem MachineInv.after_raiseErr {s : State} (h : MachineInv s) {e : ErrCode} (he : e ≠ .ok)
    (hfinal : e = .alreadyFinalized → s.job = none ∧ s.session = .finalized) : MachineInv (raiseErr e s) := by
  by_cases ha : e = .alreadyFinalized
  · subst ha
    obtain ⟨hj, hs⟩ := hfinal rfl
    exact (h.after_logErr he).after_releaseChannels hj hs
  · rw [raiseErr_of_ne ha]
    exact h.after_logErr he

theorem MachineInv.after_setBackend {s : State} (h : MachineInv s) (hj : s.job = none) (hlock : s.lock = false)
    (b : Backend) : MachineInv { s with backend := b } := by
  have hcreated : s.session = .created := by
    by_contra hs
    simp [h.lock (.inl hs)] at hlock
  obtain ⟨h0, h1⟩ := free_of_mayBegin h.channels hj ((mayBegin_iff s).2 (.inl hcreated))
  exact { h with
    channels := by simp [ChannelsLegal, mayUpdate, h0, h1, hj, hcreated]
    job := fun j hj' => by simp [hj] at hj' }

/-- A released session holds the reset values, but for BACKEND, LOCK, ERRLOG and memory (R106). -/
theorem MachineInv.after_releaseSession {s : State} (h : MachineInv s) (hj : s.job = none) :
    MachineInv (releaseSession s) where
  memory := h.memory
  errlog := h.errlog
  acc := zero_lt_polyP
  multiplier := zero_clamped
  channels := by simp [ChannelsLegal, mayUpdate, hj]
  context := by simp [ContextLegal, mayUpdate, hj]
  lock := by simp [LockLegal, hj]
  counter := by simp [CounterLegal]
  job := fun j hj' => by simp [hj] at hj'
  created := by simp [CreatedIsClear]
  faulted := by simp [FaultedIsWiped]

/-- An operation on memory alone keeps the invariant if it keeps memory's canonical form. -/
theorem MachineInv.of_memory {s t : State} (h : MachineInv s) (hmem : MemCanonical t)
    (hrest : SameEngine { s with mem := t.mem, anyMem := t.anyMem, accessLog := t.accessLog } t) : MachineInv t :=
  have stored : MachineInv { s with mem := t.mem, anyMem := t.anyMem, accessLog := t.accessLog } :=
    ⟨hmem, h.errlog, h.acc, h.multiplier, h.channels, h.context, h.lock, h.counter, h.job, h.created, h.faulted⟩
  stored.of_sameEngine hrest

theorem MachineInv.after_storeBytes {s : State} (h : MachineInv s) {a : Nat} {bs : List Byte}
    (hf : Fits { base := a, size := bs.length }) : MachineInv (storeBytes a bs s) := by
  refine h.of_memory (storeBytes_keeps_canonical h.memory hf) ?_
  unfold storeBytes
  split <;> rfl

theorem MachineInv.after_logAccess {s : State} (h : MachineInv s) (ag : Agent) (k : AccessKind) (a n : Nat) :
    MachineInv (logAccess ag k a n s) := by
  refine h.of_memory (by simpa [MemCanonical] using h.memory) ?_
  unfold logAccess
  split <;> rfl

/-- GEN_BLOCK stores one block and touches no session (R79). -/
theorem MachineInv.after_genEffect {s : State} (h : MachineInv s) {a : GenArgs} (hf : Fits (buffer a.outPtr 64)) :
    MachineInv (genEffect a s) := by
  have hread : MachineInv (afterRead .engine a.keyPtr.toNat 32 (setErr .ok s)) :=
    ((h.after_setErr .ok).after_logAccess _ _ _ _).of_sameEngine rfl
  have hlen : (genKeystream a s).length = 64 := chachaBlock_length _ _ _
  exact (hread.after_logAccess _ _ _ _).after_storeBytes (by rw [hlen]; exact hf)

theorem MachineInv.after_launch {i : Instr} {s t : State} {c : Command} (h : MachineInv s) (hj : s.job = none)
    (hissued : issuedBy i s = some (c, none)) (hfits : (bodyRanges c).any wraps = false)
    (hrun : launch c s = .next t) : MachineInv t := by
  have haccepted := h.accept hj hissued hfits
  obtain ⟨-, -, rfl⟩ | ⟨hdma, rfl⟩ := launch_cases hrun
  · exact haccepted.bodyOf_inv
  · exact haccepted.startJob_inv (by simpa using hdma)

/-- Every command keeps the invariant. -/
theorem exec_keeps_inv {i : Instr} {s t : State} (h : MachineInv s) (hrun : exec i s = .next t) : MachineInv t := by
  obtain ⟨e, he, hfinal, rfl⟩ | ⟨hj, hlock, b, -, rfl⟩ | ⟨hj, -, rfl⟩ | ⟨-, -, a, -, -, hrefusal, rfl⟩ |
    ⟨hj, c, hissued, hrefusal, hlaunch⟩ := exec_cases hrun
  · exact h.after_raiseErr he fun hf => ⟨(hfinal hf).1, (hfinal hf).2.1⟩
  · exact (h.after_setBackend hj hlock b).after_setErr .ok
  · exact h.after_releaseSession hj
  · obtain ⟨hnamed, -⟩ := (bufferRefusal_eq_none _ _ _ _).1 hrefusal
    exact h.after_genEffect (hnamed (buffer a.outPtr 64) (by simp [genBuffers])).1
  · obtain ⟨hnamed, -⟩ := (bufferRefusal_eq_none _ _ _ _).1 hrefusal
    have hfits : (bodyRanges c).any wraps = false := by
      simp only [List.any_eq_false, Bool.not_eq_true, wraps_eq_false]
      exact fun r hr => (hnamed r (List.mem_append_right _ hr)).1
    exact h.after_launch hj hissued hfits hlaunch

/-- A race marks the job and nothing else (R52). -/
theorem noteRace_cases (a n : Nat) (s : State) : noteRace a n s = s ∨
    ∃ j, s.job = some j ∧ noteRace a n s = { s with job := some { j with raced := true } } := by
  unfold noteRace
  split
  · exact .inl rfl
  · split
    · exact .inr ⟨_, ‹_›, rfl⟩
    · exact .inl rfl

theorem MachineInv.after_noteRace {s : State} (h : MachineInv s) (a n : Nat) : MachineInv (noteRace a n s) := by
  obtain heq | ⟨j, hj, heq⟩ := noteRace_cases a n s
  · rwa [heq]
  · rw [heq]
    have hbusy : s.job ≠ none := by simp [hj]
    exact { h with
      channels := by simpa [ChannelsLegal, mayUpdate, hj] using h.channels
      context := fun _ => h.context (.inr hbusy)
      lock := fun _ => h.lock (.inr hbusy)
      job := fun j' hj' => by
        obtain rfl := Option.some.inj hj'
        exact h.job j hj
      created := fun _ hnone => by cases hnone
      faulted := fun hs => absurd (h.faulted hs).1 hbusy }

/-- What a race leaves at the completion of a job keeps the invariant, once a body has run (R52). -/
theorem MachineInv.after_raceEffect {s : State} (h : MachineInv s) {j : Job}
    (hf : (outputRanges j.cmd).any wraps = false) (hs : s.session ≠ .created) : MachineInv (raceEffect j s) := by
  unfold raceEffect
  split
  · exact { h with
      memory := markRanges_canonical h.memory hf
      created := fun hc => absurd hc hs
      faulted := fun hfault => ⟨(h.faulted hfault).1, (h.faulted hfault).2.1, rfl⟩ }
  · exact h

/-- The completion of a job keeps the invariant (R117). -/
theorem MachineInv.after_complete {s : State} (h : MachineInv s) {j : Job} (hj : s.job = some j) :
    MachineInv (setErr .ok (raceEffect j (bodyOf .dma j.cmd { s with job := none }))) := by
  have haccepted := h.accepted_of_job hj
  refine (haccepted.bodyOf_inv.after_raceEffect (outputs_fit haccepted.fits) ?_).after_setErr .ok
  rw [bodyOf_session]
  exact (stateAfter_ne j.cmd).1

/-- The HardwareFault keeps the invariant: the channels stay owned until RELEASE or reset (R115, R118). -/
theorem MachineInv.after_dmaFault {s : State} (h : MachineInv s) {j : Job} (hj : s.job = some j) :
    MachineInv (dmaFault j { s with job := none }) := by
  have haccepted := h.accepted_of_job hj
  obtain ⟨hdma, -⟩ := h.job j hj
  have hraised : ErrlogLegal (logErr .hardwareFault s) := (h.after_logErr (by decide)).errlog
  exact {
    memory := markRanges_canonical haccepted.memory (outputs_fit haccepted.fits)
    errlog := hraised
    acc := zero_lt_polyP
    multiplier := zero_clamped
    channels := ⟨haccepted.paired, fun _ => ⟨hdma, .inr (.inl rfl)⟩, fun _ => haccepted.owned.2 hdma⟩
    context := fun hc => by
      obtain hc | hc := hc
      · cases hc
      · exact absurd rfl hc
    lock := fun _ => haccepted.locked
    counter := haccepted.counter
    job := fun j' hj' => by cases hj'
    created := fun hc => by cases hc
    faulted := fun _ => ⟨rfl, rfl, rfl⟩ }

/-- Reset meets the invariant from any state that does: memory is what it keeps (R137, R138). -/
theorem MachineInv.after_platformReset {s : State} (h : MachineInv s) : MachineInv (platformReset s) := by
  have hf : (jobOutputs s).any wraps = false := by
    unfold jobOutputs
    split
    · rfl
    · exact outputs_fit (h.job _ ‹_›).2.2.1
  exact {
    memory := markRanges_canonical h.memory hf
    errlog := BitVec.zero_and
    acc := zero_lt_polyP
    multiplier := zero_clamped
    channels := by simp [ChannelsLegal, mayUpdate, platformReset, State.reset]
    context := by simp [ContextLegal, mayUpdate, platformReset, State.reset]
    lock := by simp [LockLegal, platformReset, State.reset]
    counter := fun hc => by cases hc
    job := fun j hj => by cases hj
    created := fun _ _ => by simp [platformReset, State.reset]
    faulted := fun hs => by cases hs }

/-- Settles O53: each effect that a step can have keeps the invariant; the body of a command, in either backend, runs
on an accepted command. -/
theorem everyStepKeepsTheInvariant : Obligations.EveryStepKeepsTheInvariant := by
  intro s t h hstep
  cases step_effect hstep with
  | quiet same => exact h.of_sameEngine same
  | command i u same next run => exact exec_keeps_inv (h.of_sameEngine same) run
  | illegal u same result => exact result ▸ (h.of_sameEngine same).after_logErr (by decide)
  | store u a bs same fits result =>
    exact result ▸ ((h.of_sameEngine same).after_storeBytes fits).after_noteRace a bs.length
  | complete u j same inFlight next held result => exact result ▸ (h.of_sameEngine same).after_complete inFlight
  | fail u j same inFlight next result => exact result ▸ (h.of_sameEngine same).after_dmaFault inFlight
  | reset u same ts scheduled result => exact result ▸ (h.of_sameEngine same).after_platformReset

/-! ## ERRLOG, LOCK and BACKEND (R27, R33) -/

theorem acceptPart_keeps_lock {s : State} (c : Command) (h : s.lock = true) : (acceptPart c s).lock = true := by
  cases hb : beginsSession c with
  | true =>
    obtain ⟨-, -, -, -, hlock⟩ := acceptPart_loads hb s
    exact hlock
  | false => rw [acceptPart_update hb]; exact h

@[simp] theorem genEffect_errlog (a : GenArgs) (s : State) : (genEffect a s).errlog = s.errlog := by simp [genEffect]
@[simp] theorem genEffect_lock (a : GenArgs) (s : State) : (genEffect a s).lock = s.lock := by simp [genEffect]
@[simp] theorem genEffect_backend (a : GenArgs) (s : State) : (genEffect a s).backend = s.backend := by simp [genEffect]
@[simp] theorem genEffect_session (a : GenArgs) (s : State) : (genEffect a s).session = s.session := by simp [genEffect]

@[simp] theorem raceEffect_errlog (j : Job) (s : State) : (raceEffect j s).errlog = s.errlog := by
  unfold raceEffect; split <;> rfl
@[simp] theorem raceEffect_lock (j : Job) (s : State) : (raceEffect j s).lock = s.lock := by
  unfold raceEffect; split <;> rfl
@[simp] theorem raceEffect_backend (j : Job) (s : State) : (raceEffect j s).backend = s.backend := by
  unfold raceEffect; split <;> rfl
@[simp] theorem raceEffect_session (j : Job) (s : State) : (raceEffect j s).session = s.session := by
  unfold raceEffect; split <;> rfl

@[simp] theorem dmaFault_errlog (j : Job) (s : State) :
    (dmaFault j s).errlog = s.errlog ||| errlogBit .hardwareFault := rfl
@[simp] theorem dmaFault_lock (j : Job) (s : State) : (dmaFault j s).lock = s.lock := rfl
@[simp] theorem dmaFault_backend (j : Job) (s : State) : (dmaFault j s).backend = s.backend := rfl

theorem or_keeps_bits (w bits : Word) : (w ||| bits) &&& w = w := by
  ext i
  rw [BitVec.getElem_and, BitVec.getElem_or]
  cases w[i] <;> simp

/-- A command sets bits of ERRLOG and clears none. -/
theorem exec_keeps_errlog {i : Instr} {s t : State} (h : exec i s = .next t) : t.errlog &&& s.errlog = s.errlog := by
  obtain ⟨e, -, -, rfl⟩ | ⟨-, -, b, -, rfl⟩ | ⟨-, -, rfl⟩ | ⟨-, -, a, -, -, -, rfl⟩ | ⟨-, c, -, -, hlaunch⟩ :=
    exec_cases h
  · rw [raiseErr_eq]; exact or_keeps_bits _ _
  · simp
  · simp
  · simp
  · obtain ⟨-, -, rfl⟩ | ⟨-, rfl⟩ := launch_cases hlaunch <;> simp

/-- Settles O21: an error ORs its bit into ERRLOG, and nothing but reset writes ERRLOG otherwise. -/
theorem errlogIsStickyUntilReset : Obligations.ErrlogIsStickyUntilReset := by
  intro s t hstep hnoreset
  cases step_effect hstep with
  | quiet same => simp [same.errlog_eq]
  | command i u same next run => exact same.errlog_eq ▸ exec_keeps_errlog run
  | illegal u same result => rw [result, logErr_errlog, same.errlog_eq]; exact or_keeps_bits _ _
  | store u a bs same fits result => simp [result, same.errlog_eq]
  | complete u j same inFlight next held result => simp [result, same.errlog_eq]
  | fail u j same inFlight next result =>
    rw [result, dmaFault_errlog, same.errlog_eq]; exact or_keeps_bits _ _
  | reset u same ts scheduled result => exact absurd scheduled (hnoreset ts)

/-- No command unlocks the backend or, once it is locked, selects another one (R100). -/
theorem exec_keeps_lock {i : Instr} {s t : State} (h : exec i s = .next t) (hlock : s.lock = true) :
    t.lock = true ∧ t.backend = s.backend := by
  obtain ⟨e, -, -, rfl⟩ | ⟨-, hunlocked, -⟩ | ⟨-, -, rfl⟩ | ⟨-, -, a, -, -, -, rfl⟩ | ⟨-, c, -, -, hlaunch⟩ :=
    exec_cases h
  · rw [raiseErr_eq]; exact ⟨hlock, rfl⟩
  · rw [hlock] at hunlocked; cases hunlocked
  · exact ⟨hlock, rfl⟩
  · simp [hlock]
  · obtain ⟨-, -, rfl⟩ | ⟨-, rfl⟩ := launch_cases hlaunch <;> simp [acceptPart_keeps_lock c hlock]

/-- Settles O54: SET_BACKEND is the one operation that writes BACKEND, and it does so only while LOCK = 0. -/
theorem backendIsFixedOnceLocked : Obligations.BackendIsFixedOnceLocked := by
  intro s t hstep hlock hnoreset
  have locked : ∀ {u}, SameEngine s u → u.lock = true := fun same => same.lock_eq.trans hlock
  cases step_effect hstep with
  | quiet same => exact ⟨locked same, same.backend_eq⟩
  | command i u same next run => exact same.backend_eq ▸ exec_keeps_lock run (locked same)
  | illegal u same result => simp [result, locked same, same.backend_eq]
  | store u a bs same fits result => simp [result, locked same, same.backend_eq]
  | complete u j same inFlight next held result => simp [result, locked same, same.backend_eq]
  | fail u j same inFlight next result => simp [result, locked same, same.backend_eq]
  | reset u same ts scheduled result => exact absurd scheduled (hnoreset ts)

/-! ## No command writes the HOST's side (R19, R55) -/

/-- Settles O37: of the operations a command performs, none writes a field of the HOST or of the platform. -/
theorem noCommandWritesTheHostSide : Obligations.NoCommandWritesTheHostSide := by
  intro i s t h
  obtain ⟨e, -, -, rfl⟩ | ⟨-, -, b, -, rfl⟩ | ⟨-, -, rfl⟩ | ⟨-, -, a, -, -, -, rfl⟩ | ⟨-, c, -, -, hlaunch⟩ :=
    exec_cases h
  · simp [raiseErr_eq, HostSideSame]
  · simp [HostSideSame]
  · simp [HostSideSame]
  · simp [genEffect, HostSideSame]
  · obtain ⟨-, -, rfl⟩ | ⟨-, rfl⟩ := launch_cases hlaunch <;> simp [HostSideSame]

/-! ## The transition table of STATE (R24) -/

/-- The instructions that issue a command (R61). -/
def issuers : Command → List Instr
  | .init ..       => [.initEnc, .initDec]
  | .updateExcl _  => [.updateExcl]
  | .updateIncl .. => [.updateIncl]
  | .aead ..       => [.aeadEnc, .aeadDec]

theorem mem_issuers {i : Instr} {s : State} {c : Command} {e : Option ErrCode} (h : issuedBy i s = some (c, e)) :
    i ∈ issuers c := by
  cases i <;> simp only [issuedBy, Option.map_eq_some_iff, Prod.mk.injEq, reduceCtorEq] at h
  all_goals
    obtain ⟨a, -, rfl, -⟩ := h
    simp [issuers]

/-- A command takes effect in the step from `s`: within the HOST's write to CMD in the CPU backend, or at the
completion of its job (R95). -/
def TakesEffect (s : State) (c : Command) : Prop :=
  s.backend = .cpu ∧ (∃ i ∈ issuers c, NextIsCommand s i) ∨ NextIsCompletion s c

/-- What a command can do to STATE: nothing, the release, or its body at once in the CPU backend. -/
theorem exec_session {i : Instr} {s t : State} (h : exec i s = .next t) (hchange : t.session ≠ s.session) :
    (i = .release ∧ s.job = none ∧ t.session = .created ∧ t.err = .ok) ∨
    (∃ c, s.backend = .cpu ∧ i ∈ issuers c ∧ Admits c s ∧ t.session = stateAfter c ∧ t.err = .ok) := by
  obtain ⟨e, -, -, rfl⟩ | ⟨-, -, b, -, rfl⟩ | ⟨hj, rfl, rfl⟩ | ⟨-, -, a, -, -, -, rfl⟩ | ⟨-, c, hissued, -, hlaunch⟩ :=
    exec_cases h
  · simp [raiseErr_eq] at hchange
  · simp at hchange
  · exact .inl ⟨rfl, hj, rfl, rfl⟩
  · simp at hchange
  · obtain ⟨hcpu, -, rfl⟩ | ⟨-, rfl⟩ := launch_cases hlaunch
    · exact .inr ⟨c, hcpu, mem_issuers hissued, (issuedBy_passed hissued).1, by simp, by simp⟩
    · simp at hchange

/-- Every change of STATE and its event: a command takes effect from a STATE that admits it, a job fails, RELEASE is
accepted, or the platform resets the engine. -/
theorem step_session {s t : State} (hinv : MachineInv s) (hstep : step s = .next t)
    (hchange : t.session ≠ s.session) :
    (∃ c, TakesEffect s c ∧ Admits c s ∧ t.session = stateAfter c ∧ t.err = .ok) ∨
    (t.session = .faulted ∧ t.err = .hardwareFault ∧ ∃ c, NextIsCompletion s c) ∨
    (t.session = .created ∧
      (s.job = none ∧ t.err = .ok ∧ NextIsCommand s .release ∨ ∃ ts, s.turns = .reset :: ts)) := by
  cases step_effect hstep with
  | quiet same => exact absurd (same.session_eq) hchange
  | command i u same next run =>
    obtain ⟨rfl, hj, hsession, herr⟩ | ⟨c, hcpu, hi, hadmits, hsession, herr⟩ :=
      exec_session run (by rwa [same.session_eq])
    · exact .inr (.inr ⟨hsession, .inl ⟨same.job_eq ▸ hj, herr, next⟩⟩)
    · exact .inl ⟨c, .inl ⟨same.backend_eq ▸ hcpu, i, hi, next⟩, (admits_congr (same.session_eq)).1 hadmits,
        hsession, herr⟩
  | illegal u same result => exact absurd (by rw [result, logErr_session, same.session_eq]) hchange
  | store u a bs same fits result => exact absurd (by simp [result, same.session_eq]) hchange
  | complete u j same inFlight next held result =>
    obtain ⟨-, hadmits, -⟩ := hinv.job j (same.job_eq ▸ inFlight)
    exact .inl ⟨j.cmd, .inr next, hadmits, by simp [result], by simp [result]⟩
  | fail u j same inFlight next result => exact .inr (.inl ⟨result ▸ rfl, result ▸ rfl, j.cmd, next⟩)
  | reset u same ts scheduled result => exact .inr (.inr ⟨result ▸ rfl, .inr ⟨ts, scheduled⟩⟩)

/-- Settles O55: the row of a command that takes effect is read off its kind and the STATE that admits it. -/
theorem stateChangesFollowTheTransitionTable : Obligations.StateChangesFollowTheTransitionTable := by
  intro s t hinv hstep hchange
  obtain ⟨c, hevent, hadmits, hsession, herr⟩ | hfault | hcreated := step_session hinv hstep hchange
  · cases c with
    | init d a =>
      refine .inl ⟨hsession, (mayBegin_iff s).1 hadmits, herr, ?_⟩
      exact hevent.imp (by simp [issuers]) fun h => ⟨d, a, h⟩
    | updateExcl p =>
      have hfrom : s.session = .aadDone :=
        ((mayUpdate_iff s).1 hadmits).resolve_right fun hs => hchange (hsession.trans hs.symm)
      refine .inr (.inl ⟨hsession, hfrom, herr, ?_⟩)
      exact hevent.imp (by simp [issuers]) fun h => ⟨p, h⟩
    | updateIncl p tag =>
      refine .inr (.inr (.inl ⟨hsession, (mayUpdate_iff s).1 hadmits, herr, ?_⟩))
      exact hevent.imp (by simp [issuers]) fun h => ⟨p, tag, h⟩
    | aead d a p tag =>
      have hfrom : s.session = .created :=
        ((mayBegin_iff s).1 hadmits).resolve_right fun hs => hchange (hsession.trans hs.symm)
      refine .inr (.inr (.inr (.inl ⟨hsession, hfrom, herr, ?_⟩)))
      exact hevent.imp (by simp [issuers]) fun h => ⟨d, a, p, tag, h⟩
  · exact .inr (.inr (.inr (.inr (.inl hfault))))
  · exact .inr (.inr (.inr (.inr (.inr hcreated))))

/-! ## HOST writes and reads of the register window (R21, R42) -/

/-- A read of a register that holds a value of its own returns it and changes nothing of the engine. -/
theorem busRead_value {s : State} {r : WinReg} {v : Word} (hany : regIsAny s r = false) (h : regValue s r = some v) :
    busRead (regOffset r) .w32 s = .next { s with busData := v } := by
  rw [busRead_held h, hany]; rfl

/-- Settles O6: each register returns what it holds; the counters and the tag are drawn only in FAULTED or after a
race. -/
theorem registerReadsReturnTheirValues : Obligations.RegisterReadsReturnTheirValues := by
  intro s
  refine ⟨busRead_value (r := .cmd) rfl rfl, busRead_value (r := .status) rfl rfl,
    busRead_value (r := .errlog) rfl rfl, fun hs => ?_, fun ht => ?_, fun i hi => ?_⟩
  · have hc : countersAny s = false := by simpa [countersAny] using hs
    have value : ∀ v, some (anyOr (countersAny s) s v) = some v := fun v => by simp [anyOr, hc]
    exact ⟨busRead_value (r := .ctr) hc (value _), busRead_value (r := .aadLo) hc (value _),
      busRead_value (r := .aadHi) hc (value _), busRead_value (r := .payloadLo) hc (value _),
      busRead_value (r := .payloadHi) hc (value _)⟩
  · have value : ∀ v, some (anyOr s.tagAny s v) = some v := fun v => by simp [anyOr, ht]
    exact ⟨busRead_value (r := .tag0) ht (value _), busRead_value (r := .tag1) ht (value _),
      busRead_value (r := .tag2) ht (value _), busRead_value (r := .tag3) ht (value _)⟩
  · exact busRead_value (r := .arg i) rfl (if_pos hi)

theorem busWrite_cmd (w : Word) (s : State) : busWrite 0x00 .w32 w s = writeCmd w s := rfl

theorem busWrite_arg (i : Fin 16) (w : Word) (s : State) :
    busWrite (regOffset (.arg i)) .w32 w s = .next (writeArg i w s) := by
  simp [busWrite, accessRefusal_regOffset, regAt_regOffset]

/-- Settles O8: the eleven offsets are those of the registers that are neither CMD nor an ARG. -/
theorem readOnlyRegistersIgnoreWrites : Obligations.ReadOnlyRegistersIgnoreWrites := by
  intro s v off hoff
  simp only [List.mem_cons, List.not_mem_nil, or_false] at hoff
  rcases hoff with rfl | rfl | rfl | rfl | rfl | rfl | rfl | rfl | rfl | rfl | rfl <;> rfl

theorem writeArg_same (i : Fin 16) (v : Word) (s : State) :
    (writeArg i v s).args[i] = v ∧ (writeArg i v s).argsHeld[i] = true := by
  simp [writeArg]

theorem writeArg_other {i k : Fin 16} (h : k ≠ i) (v : Word) (s : State) :
    (writeArg i v s).args[k] = s.args[k] ∧ (writeArg i v s).argsHeld[k] = s.argsHeld[k] := by
  have hne : i.val ≠ k.val := fun heq => h (Fin.ext heq.symm)
  simp [writeArg, Vector.getElem_set_ne, hne]

/-- Settles O9: the write is `writeArg`, which gives its own ARG a value and touches no other. -/
theorem argumentWriteReadsBack : Obligations.ArgumentWriteReadsBack := by
  intro s i v
  obtain ⟨hvalue, hheld⟩ := writeArg_same i v s
  refine ⟨writeArg i v s, busWrite_arg i v s, busRead_value (r := .arg i) rfl ?_,
    fun k hk => writeArg_other hk v s, rfl⟩
  rw [regValue, if_pos hheld, hvalue]

/-! ## Whose turn it is (R17) -/

theorem step_host {s : State} {ts : List Turn} (h : s.turns = .host :: ts) :
    step s = hostTurn { s with turns := ts } := by
  simp only [step, takeTurn, h]

theorem step_dma {s : State} {ok : Bool} {ts : List Turn} (h : s.turns = .dma ok :: ts) :
    step s = dmaTurn ok { s with turns := ts } := by
  simp only [step, takeTurn, h]

/-- With no turn scheduled the HOST moves where no job is in flight. -/
theorem step_idle {s : State} (h : s.turns = []) (hj : s.job = none) : step s = hostTurn s := by
  simp only [step, takeTurn, h, (busy_eq_false s).2 hj, Bool.false_eq_true, if_false]

/-- With no turn scheduled the DMA agent completes a job in flight. -/
theorem step_busy {s : State} (h : s.turns = []) (hj : s.job ≠ none) :
    step s = dmaTurn (Config.dmaOk s.draws) (draw 1 s) := by
  have hb : busy s = true := by rw [← Bool.not_eq_false, busy_eq_false]; exact hj
  simp only [step, takeTurn, h, hb, if_true]

theorem hostTurn_cons {s : State} {op : HostOp} {rest : List HostOp} (h : s.inbox = op :: rest) :
    hostTurn s = hostOp op { s with inbox := rest } := by
  simp only [hostTurn, h]

/-- Settles O51: the schedule's head decides, and without one whether a job is in flight. -/
theorem stepMovesTheScheduledAgent : Obligations.StepMovesTheScheduledAgent := by
  intro s
  refine ⟨fun ok ts h => step_dma h, fun op rest ts h hin => ?_, fun h hj => step_busy h hj,
    fun h hj op rest hin => ?_⟩
  · rw [step_host h, hostTurn_cons (s := { s with turns := ts }) hin]
  · rw [step_idle h hj, hostTurn_cons hin]

/-- The HOST's write of a word that decodes to a command runs the command. -/
theorem hostTurn_command {s : State} {w : Word} {i : Instr} {rest : List HostOp}
    (hin : s.inbox = .busWrite 0x00 .w32 w :: rest) (hw : decode w = .ok i) :
    hostTurn s = exec i { s with inbox := rest } := by
  rw [hostTurn_cons hin, hostOp, busWrite_cmd, writeCmd, hw]

/-- Settles O49: a HOST turn performs the write, and a write to CMD of a legal word is exec of its command. -/
theorem stepRunsTheDecodedCommand : Obligations.StepRunsTheDecodedCommand := by
  intro s w i rest hin hw
  refine ⟨fun ts h => ?_, fun h hj => ?_⟩
  · rw [step_host h, hostTurn_command (s := { s with turns := ts }) hin hw]
  · rw [step_idle h hj, hostTurn_command hin hw]

/-- The table word of a command's own bits is the command's word (R59). -/
theorem decode_tableWord_encode (i : Instr) : decode (tableWord 32 (encode i).toNat) = .ok i := by
  cases i <;> decide

theorem zeroUnheldArgs_arg (s : State) (k : Fin 16) : (zeroUnheldArgs s).argsHeld[k] = true ∧
    (zeroUnheldArgs s).args[k] = if s.argsHeld[k] then s.args[k] else 0 := by
  simp [zeroUnheldArgs]

/-- Settles O50: the placed write stands at the head of the inbox under a HOST turn, and the step takes both out. -/
theorem placedWordIsTheNextCommand : Obligations.PlacedWordIsTheNextCommand := by
  intro s i
  refine ⟨?_, zeroUnheldArgs_arg s⟩
  rw [step_host (s := s.withFetchWord 32 (encode i).toNat) rfl,
    hostTurn_command (w := tableWord 32 (encode i).toNat) (rest := s.inbox) rfl (decode_tableWord_encode i)]
  rfl

/-! ## HOST reads and the session context (R35) -/

/-- The state with other values in KEY, NONCE, R, S and ACC. -/
def withContext (k : BitVec 256) (n : BitVec 96) (r c : BitVec 128) (a : Nat) (s : State) : State :=
  { s with key := k, nonce := n, polyR := r, polyS := c, acc := a }

/-- An outcome with its next state, where there is one, changed. -/
def mapNext (f : State → State) : Out → Out
  | .next t    => .next (f t)
  | .fault r   => .fault r
  | .refused r => .refused r

section context
variable (k : BitVec 256) (n : BitVec 96) (r c : BitVec 128) (a : Nat) (s : State)

theorem regValue_withContext (w : WinReg) : regValue (withContext k n r c a s) w = regValue s w := by
  cases w <;> rfl

theorem regIsAny_withContext (w : WinReg) : regIsAny (withContext k n r c a s) w = regIsAny s w := by
  cases w <;> rfl

/-- No register of the window is one of the five (R35). -/
theorem busRead_withContext (off : Nat) (width : Width) : busRead off width (withContext k n r c a s) =
    mapNext (withContext k n r c a) (busRead off width s) := by
  unfold busRead
  split
  · rfl
  · split
    · rfl
    · rename_i w hw
      rw [regValue_withContext, regIsAny_withContext]
      cases regValue s w <;> rfl

theorem hostAccessStop_withContext (addr len : Nat) :
    hostAccessStop addr len (withContext k n r c a s) = hostAccessStop addr len s := rfl

/-- No byte of memory is one of the five either. -/
theorem hostLoad_withContext (addr len : Nat) : hostLoad addr len (withContext k n r c a s) =
    mapNext (withContext k n r c a) (hostLoad addr len s) := by
  have hwindow : windowRegion (withContext k n r c a s) = windowRegion s := rfl
  have hbase : windowBase (withContext k n r c a s) = windowBase s := rfl
  unfold hostLoad
  rw [hwindow, hbase, hostAccessStop_withContext, busRead_withContext]
  split
  · split
    · cases busRead (addr - windowBase s) .w32 s <;> rfl
    · rfl
  · cases hstop : hostAccessStop addr len s with
    | none => rfl
    | some o =>
      cases o with
      | next t => exact absurd rfl (hostAccessStop_ne_next hstop t)
      | fault q => rfl
      | refused q => rfl

end context

/-- Settles O57: neither read looks at the five elements, so each answers the same and leaves them as they are. -/
theorem readsRevealNothingOfTheContext : Obligations.ReadsRevealNothingOfTheContext := by
  intro s k n r c a
  refine ⟨fun off width => ?_, fun addr len => ?_⟩
  · refine (busRead_withContext k n r c a s off width).trans ?_
    cases busRead off width s <;> rfl
  · refine (hostLoad_withContext k n r c a s addr len).trans ?_
    cases hostLoad addr len s <;> rfl

end Sys2Proof.Machine

namespace Sys2Proof.Machine

/-! ## Ill-formed accesses of the register window (R42: MF3, MF4) -/

theorem accessRefusal_unaligned {off : Nat} {width : Width} (h : width ≠ .w32 ∨ off % 4 ≠ 0) :
    accessRefusal off width = some .badAccess := by
  have hal : accessAligned off width = false := by
    cases width <;> simp_all [accessAligned]
  simp [accessRefusal, hal]

theorem accessRefusal_reserved {off : Nat} (h4 : off % 4 = 0) (h : 0x30 ≤ off ∧ off < 0x40 ∨ 0x80 ≤ off) :
    accessRefusal off .w32 = some .reservedOffset := by
  have hmap : offsetMapped off = false := by simp [offsetMapped]; omega
  simp [accessRefusal, accessAligned, h4, hmap]

theorem busRead_refused {off : Nat} {width : Width} {r : Refusal} (h : accessRefusal off width = some r) (s : State) :
    busRead off width s = .refused r := by
  simp [busRead, h]

theorem busWrite_refused {off : Nat} {width : Width} {r : Refusal} (h : accessRefusal off width = some r) (v : Word)
    (s : State) : busWrite off width v s = .refused r := by
  simp [busWrite, h]

/-- An aligned offset from 0x40 on and below 0x80 is that of an ARG. -/
theorem regOffset_arg_of_mapped {off : Nat} (h4 : off % 4 = 0) (h : 0x40 ≤ off ∧ off < 0x80) :
    ∃ i, regOffset (.arg i) = off :=
  ⟨⟨(off - 0x40) / 4, by omega⟩, by simp only [regOffset]; omega⟩

/-- Settles O11: an access meets MF4 or MF3 in that order; an aligned mapped offset but CMD's is that of a read-only
register or of an ARG. -/
theorem illFormedAccessesAreRefused : Obligations.IllFormedAccessesAreRefused := by
  intro s off width v
  refine ⟨fun h => ?_, fun h4 h => ?_, fun h4 h0 h => ?_⟩
  · have hr := accessRefusal_unaligned h
    exact ⟨busRead_refused hr s, busWrite_refused hr v s⟩
  · have hr := accessRefusal_reserved h4 h
    exact ⟨busRead_refused hr s, busWrite_refused hr v s⟩
  · obtain hlow | hhigh := h
    · refine ⟨s, readOnlyRegistersIgnoreWrites s v off ?_⟩
      simp only [List.mem_cons, List.not_mem_nil, or_false]
      omega
    · obtain ⟨i, rfl⟩ := regOffset_arg_of_mapped h4 hhigh
      exact ⟨_, busWrite_arg i v s⟩

/-! ## A job's end: a transfer error and a race (R52, R118) -/

theorem meetsAny_eq_true (r : Region) (qs : List Region) : meetsAny r qs = true ↔ ¬ AvoidsAll qs r := by
  rw [← meetsAny_eq_false, Bool.not_eq_false]

theorem jobUnbacked_iff (s : State) (j : Job) :
    jobUnbacked s j = true ↔ ∃ r ∈ bodyRanges j.cmd, ¬ AvoidsAll s.absent r := by
  simp only [jobUnbacked, List.any_eq_true, meetsAny_eq_true]

/-- A transfer error: DMA_OK = false, or an unbacked address in a range of the body (R40, R118). -/
theorem dmaTurn_fault {s : State} {j : Job} {ok : Bool} (hj : s.job = some j)
    (h : ok = false ∨ ∃ r ∈ bodyRanges j.cmd, ¬ AvoidsAll s.absent r) :
    dmaTurn ok s = .next (dmaFault j { s with job := none }) := by
  have hfail : (ok && !jobUnbacked s j) = false := by
    rw [← jobUnbacked_iff] at h
    obtain h | h := h <;> simp [h]
  simp [dmaTurn, hj, hfail]

/-- Settles O43: the completion is `dmaFault`, which marks the output ranges and wipes the context. -/
theorem transferErrorFaultsTheSession : Obligations.TransferErrorFaultsTheSession := by
  intro s j ok hj h
  refine ⟨_, dmaTurn_fault hj h, rfl, rfl, rfl, rfl, rfl, rfl, rfl,
    fun a => mem_markRanges (outputRanges j.cmd) s.anyMem a, rfl, rfl, rfl, rfl, rfl, rfl, rfl, ?_⟩
  exact ⟨rfl, rfl, rfl, rfl, rfl, rfl, rfl, rfl, rfl⟩

/-- The completion, with DMA_OK = true, of a job whose ranges are all backed (R117). -/
theorem dmaTurn_complete {s : State} {j : Job} (hj : s.job = some j) (hc : s.ctxHeld = true)
    (hb : ∀ r ∈ bodyRanges j.cmd, AvoidsAll s.absent r) :
    dmaTurn true s = .next (setErr .ok (raceEffect j (bodyOf .dma j.cmd { s with job := none }))) := by
  have hbacked : jobUnbacked s j = false := by
    simpa only [jobUnbacked, List.any_eq_false, Bool.not_eq_true, meetsAny_eq_false] using hb
  simp [dmaTurn, hj, hbacked, runBody, hc]

/-- The completion of a job that a HOST write has raced with leaves any value in its outputs, the tag and ACC (R52). -/
theorem dmaTurn_raced {s : State} {j : Job} (hj : s.job = some j) (hr : j.raced = true) (hc : s.ctxHeld = true)
    (hb : ∀ r ∈ bodyRanges j.cmd, AvoidsAll s.absent r) : ∃ u, dmaTurn true s = .next u ∧
      (∀ r ∈ outputRanges j.cmd, ∀ x, InRegion r x → x ∈ u.anyMem) ∧ u.tagAny = true ∧ u.accAny = true ∧
      u.job = none ∧ u.err = .ok := by
  refine ⟨_, dmaTurn_complete hj hc hb, ?_⟩
  rw [raceEffect, if_pos hr]
  exact ⟨fun r hr x hx => (mem_markRanges _ _ x).2 (.inr ⟨r, hr, hx⟩), rfl, rfl, by simp, rfl⟩

/-! ## HOST writes of system memory (R38, R52) -/

/-- A HOST write off the window, inside the address space, backed and on no device stores its bytes. -/
theorem hostStore_memory {s : State} {a : Nat} {bs : List Byte}
    (hw : Apart { base := a, size := bs.length } (windowRegion s)) (hf : Fits { base := a, size := bs.length })
    (ha : AvoidsAll s.absent { base := a, size := bs.length })
    (hd : AvoidsAll s.devices { base := a, size := bs.length }) :
    hostStore a bs s = .next (noteRace a bs.length (storeBytes a bs s)) := by
  simp [hostStore, (regionsMeet_eq_false _ _).2 hw, hostAccessStop_eq_none hf ha hd]

theorem noteRace_idle {s : State} (h : s.job = none) (a n : Nat) : noteRace a n s = s := by
  simp [noteRace, h]

theorem noteRace_races {s : State} {j : Job} {a n : Nat} (hj : s.job = some j)
    (h : ∃ r ∈ jobRanges j, ¬ Apart { base := a, size := n } r) :
    noteRace a n s = { s with job := some { j with raced := true } } := by
  have hmeets : meetsAny { base := a, size := n } (jobRanges j) = true := by
    obtain ⟨r, hr, hmeet⟩ := h
    exact List.any_eq_true.2 ⟨r, hr, by rwa [← Bool.not_eq_false, regionsMeet_eq_false]⟩
  simp [noteRace, hj, hmeets]

/-- Settles O47: the write marks the job as raced, and its completion runs the body and then leaves any value. -/
theorem racingHostWriteLeavesAnyValue : Obligations.RacingHostWriteLeavesAnyValue := by
  intro s j a bs hj hc hf ha hd hw hb ⟨r, hr, hmeet⟩
  have hrace := noteRace_races (s := storeBytes a bs s) (n := bs.length) (by simpa using hj)
    ⟨r, List.mem_append_right _ hr, hmeet⟩
  have hstore := hostStore_memory hw (.inr hf) ha hd
  rw [hrace] at hstore
  obtain ⟨u, hturn, hends⟩ := dmaTurn_raced (s := { storeBytes a bs s with job := some { j with raced := true } }) rfl
    rfl (by simpa using hc) (by simpa using hb)
  exact ⟨_, u, hstore, rfl, hturn, hends⟩

/-- A store and the bytes read back from the same range. -/
theorem memBytes_storeBytes (a : Nat) (bs : List Byte) (s : State) :
    memBytes (storeBytes a bs s).mem a bs.length = bs := by
  refine List.ext_getElem (by simp) fun i h1 h2 => ?_
  obtain ⟨hget, -⟩ := storeBytes_inside (s := s) (a := a) (x := a + i) (bs := bs) (by omega) (by omega)
  simp [memBytes, hget, h2]

theorem storeBytes_definite (a : Nat) (bs : List Byte) (s : State) :
    Definite (storeBytes a bs s) { base := a, size := bs.length } :=
  fun _ ⟨h1, h2⟩ => (storeBytes_inside h1 h2).2

theorem storeBytes_memSameOutside (a : Nat) (bs : List Byte) (s : State) :
    MemSameOutside [{ base := a, size := bs.length }] s (storeBytes a bs s) := by
  intro x hx
  have hx := hx _ (List.mem_singleton_self _)
  exact storeBytes_outside (by simp only [InRegion] at hx; omega)

/-- With no job in flight the HOST reads memory as the engine does. -/
theorem hostBytesAt_idle {s : State} (h : s.job = none) (a n : Nat) : hostBytesAt s a n = bytesAt s a n := by
  have houts : jobOutputs s = [] := by simp [jobOutputs, h]
  exact List.map_congr_left fun j _ => hostByteAt_outside (by simp [houts]) _

/-- Settles O45: the bytes stored hold values, so the read returns what memory holds. -/
theorem hostStoreThenLoadReturnsTheBytes : Obligations.HostStoreThenLoadReturnsTheBytes := by
  intro s a bs hj hf ha hd hw
  have hstore : hostStore a bs s = .next (storeBytes a bs s) := by
    rw [hostStore_memory hw (.inr hf) ha hd, noteRace_idle (by simpa using hj)]
  have hwindow : windowRegion (storeBytes a bs s) = windowRegion s := by simp [windowRegion, windowBase]
  refine ⟨_, _, hstore,
    hostLoad_memory (hwindow ▸ hw) (.inr hf) (by simpa using ha) (by simpa using hd), ?_,
    storeBytes_memSameOutside a bs s, rfl⟩
  calc hostBytesAt (storeBytes a bs s) a bs.length
      _ = bytesAt (storeBytes a bs s) a bs.length := hostBytesAt_idle (by simpa using hj) _ _
      _ = memBytes (storeBytes a bs s).mem a bs.length := bytesAt_definite (storeBytes_definite a bs s)
      _ = bs := memBytes_storeBytes a bs s

/-! ## Commands whose checks pass (R101 to R104) -/

/-- The operands of INIT and the first seven of AEAD as the ARGs give them (R61). -/
def initOperands (s : State) : InitArgs :=
  { keyPtr := s.args[0], constant := s.args[1], ivLo := s.args[2], ivHi := s.args[3], aadPtr := s.args[4],
    aadLen := s.args[5], initCtr := s.args[6] }

/-- The payload operands of the updates as the ARGs give them (R61). -/
def updateOperands (s : State) : PayloadArgs := { inPtr := s.args[0], outPtr := s.args[1], len := s.args[2] }

/-- The payload operands of AEAD as the ARGs give them (R61). -/
def aeadOperands (s : State) : PayloadArgs := { inPtr := s.args[7], outPtr := s.args[8], len := s.args[9] }

/-- The operands of GEN_BLOCK as the ARGs give them (R61). -/
def genOperands (s : State) : GenArgs :=
  { keyPtr := s.args[0], constant := s.args[1], ivLo := s.args[2], ivHi := s.args[3], counter := s.args[4],
    outPtr := s.args[5] }

/-- INIT passes its checks (R101). -/
structure InitPasses (s : State) : Prop where
  idle   : s.job = none
  held   : NamedHeld s 7
  begins : s.session = .created ∨ s.session = .finalized
  key    : s.args[0] ≠ 0
  aad    : s.args[5] ≠ 0 → s.args[4] ≠ 0

/-- UPDATE_EXCL passes its checks (R102). -/
structure UpdateExclPasses (s : State) : Prop where
  idle    : s.job = none
  held    : NamedHeld s 3
  goesOn  : s.session = .aadDone ∨ s.session = .payloadStreaming
  payload : s.args[2] ≠ 0 → s.args[0] ≠ 0 ∧ s.args[1] ≠ 0
  whole   : s.args[2].toNat % 64 = 0
  room    : s.args[2] ≠ 0 → s.ctrExh = false ∧ s.ctr.toNat + s.args[2].toNat / 64 ≤ 2 ^ 32

/-- UPDATE_INCL passes its checks (R103). -/
structure UpdateInclPasses (s : State) : Prop where
  idle    : s.job = none
  held    : NamedHeld s 4
  goesOn  : s.session = .aadDone ∨ s.session = .payloadStreaming
  payload : s.args[2] ≠ 0 → s.args[0] ≠ 0 ∧ s.args[1] ≠ 0
  tag     : s.args[3] ≠ 0
  room    : s.args[2] ≠ 0 → s.ctrExh = false ∧ s.ctr.toNat + (s.args[2].toNat + 63) / 64 ≤ 2 ^ 32

/-- AEAD passes its checks (R104). -/
structure AeadPasses (s : State) : Prop where
  idle    : s.job = none
  held    : NamedHeld s 11
  begins  : s.session = .created ∨ s.session = .finalized
  key     : s.args[0] ≠ 0
  aad     : s.args[5] ≠ 0 → s.args[4] ≠ 0
  payload : s.args[9] ≠ 0 → s.args[7] ≠ 0 ∧ s.args[8] ≠ 0
  tag     : s.args[10] ≠ 0
  room    : s.args[6].toNat + (s.args[9].toNat + 63) / 64 ≤ 2 ^ 32

/-- GEN_BLOCK passes its check (R79). -/
structure GenPasses (s : State) : Prop where
  idle : s.job = none
  held : NamedHeld s 6
  key  : s.args[0] ≠ 0
  out  : s.args[5] ≠ 0

theorem payloadNull_eq_false (p : PayloadArgs) :
    payloadNull p = false ↔ (p.len ≠ 0 → p.inPtr ≠ 0 ∧ p.outPtr ≠ 0) := by
  rw [← Bool.not_eq_true]
  simp only [payloadNull, Bool.and_eq_true, Bool.or_eq_true, bne_iff_ne, beq_iff_eq]
  tauto

/-- An empty piece consumes no block, and where the counter has room a piece that is not empty is admitted (R97). -/
theorem capacity_of_room {s : State} {len : Word} {n : Nat} (hempty : len = 0 → n = 0)
    (hroom : len ≠ 0 → s.ctrExh = false ∧ s.ctr.toNat + n ≤ 2 ^ 32) : capacity s n = true := by
  by_cases hlen : len = 0
  · simp [capacity, hempty hlen]
  · obtain ⟨hexh, hctr⟩ := hroom hlen
    simp only [capacity, hexh, decide_eq_true hctr]
    simp

theorem InitPasses.command {s : State} (h : InitPasses s) (m : Dir) :
    initCommand m s = issue (.init m (initOperands s)) none s := by
  have hsnap : initArgs s = some (initOperands s) := if_pos ((argsNamedHeld_iff s 7).2 h.held)
  have herr : initError s (initOperands s) = none := by
    simp only [initError, check_eq_none]
    exact ⟨by simp [(mayBegin_iff s).2 h.begins], h.key, fun hnull => h.aad hnull.1 hnull.2, trivial⟩
  simp only [initCommand, unlessBusy_idle _ h.idle, hsnap, herr]

theorem UpdateExclPasses.command {s : State} (h : UpdateExclPasses s) :
    execUpdateExcl s = issue (.updateExcl (updateOperands s)) none s := by
  have hsnap : updateExclArgs s = some (updateOperands s) := if_pos ((argsNamedHeld_iff s 3).2 h.held)
  have hcap : capacity s (s.args[2].toNat / 64) = true := capacity_of_room (fun hl => by rw [hl]; rfl) h.room
  have hopen : s.session ≠ .finalized := by rcases h.goesOn with hs | hs <;> simp [hs]
  have herr : updateExclError s (updateOperands s) = none := by
    simp only [updateExclError, check_eq_none]
    exact ⟨hopen, by simp [(mayUpdate_iff s).2 h.goesOn],
      by simpa using (payloadNull_eq_false (updateOperands s)).2 h.payload, fun hne => hne h.whole,
      by simpa [updateOperands] using hcap, trivial⟩
  simp only [execUpdateExcl, unlessBusy_idle _ h.idle, hsnap, herr]

theorem UpdateInclPasses.command {s : State} (h : UpdateInclPasses s) :
    execUpdateIncl s = issue (.updateIncl (updateOperands s) s.args[3]) none s := by
  have hsnap : updateInclArgs s = some (updateOperands s, s.args[3]) := if_pos ((argsNamedHeld_iff s 4).2 h.held)
  have hcap : capacity s (blocksOf s.args[2].toNat) = true := capacity_of_room (fun hl => by rw [hl]; rfl) h.room
  have hopen : s.session ≠ .finalized := by rcases h.goesOn with hs | hs <;> simp [hs]
  have herr : updateInclError s (updateOperands s) s.args[3] = none := by
    simp only [updateInclError, check_eq_none]
    exact ⟨hopen, by simp [(mayUpdate_iff s).2 h.goesOn],
      by simpa using (payloadNull_eq_false (updateOperands s)).2 h.payload, h.tag,
      by simpa [updateOperands] using hcap, trivial⟩
  simp only [execUpdateIncl, unlessBusy_idle _ h.idle, hsnap, herr]

theorem AeadPasses.command {s : State} (h : AeadPasses s) (m : Dir) :
    aeadCommand m s = issue (.aead m (initOperands s) (aeadOperands s) s.args[10]) none s := by
  have hsnap : aeadArgs s = some (initOperands s, aeadOperands s, s.args[10]) :=
    if_pos ((argsNamedHeld_iff s 11).2 h.held)
  have hcap : aeadCapacity s.args[6] (blocksOf s.args[9].toNat) = true := decide_eq_true h.room
  have herr : aeadError s (initOperands s) (aeadOperands s) s.args[10] = none := by
    simp only [aeadError, check_eq_none]
    exact ⟨by simp [(mayBegin_iff s).2 h.begins], h.key, fun hnull => h.aad hnull.1 hnull.2,
      by simpa using (payloadNull_eq_false (aeadOperands s)).2 h.payload, h.tag,
      by simpa [initOperands, aeadOperands] using hcap, trivial⟩
  simp only [aeadCommand, unlessBusy_idle _ h.idle, hsnap, herr]

theorem genArgs_held {s : State} (h : NamedHeld s 6) : genArgs s = some (genOperands s) :=
  if_pos ((argsNamedHeld_iff s 6).2 h)

/-- Settles O20: the null check stands before the refusals, and nothing before it looks at STATE. -/
theorem genBlockRejectsNullPointers : Obligations.GenBlockRejectsNullPointers := by
  intro s hj hh hnull
  have herr : genError (genOperands s) = some .bufferNull := if_pos hnull
  simp only [exec, execGenBlock, unlessBusy_idle _ hj, genArgs_held hh, herr, raiseErr]

/-- Past its check GEN_BLOCK is refused where its buffers are unusable (R79). -/
theorem GenPasses.refused {s : State} (h : GenPasses s) {r : Refusal}
    (hr : bufferRefusal s (genBuffers (genOperands s)) (genBuffers (genOperands s)) none = some r) :
    execGenBlock s = .refused r := by
  have herr : genError (genOperands s) = none := if_neg (not_or.2 ⟨h.key, h.out⟩)
  simp only [execGenBlock, unlessBusy_idle _ h.idle, genArgs_held h.held, herr, hr]

/-- Past its check and its refusals GEN_BLOCK takes effect (R79). -/
theorem GenPasses.accepted {s : State} (h : GenPasses s)
    (hr : bufferRefusal s (genBuffers (genOperands s)) (genBuffers (genOperands s)) none = none) :
    execGenBlock s = .next (genEffect (genOperands s) s) := by
  have herr : genError (genOperands s) = none := if_neg (not_or.2 ⟨h.key, h.out⟩)
  simp only [execGenBlock, unlessBusy_idle _ h.idle, genArgs_held h.held, herr, hr]

/-! ## Commands refused after their checks (R40, R46, R47, R49) -/

theorem accessedWithin_eq (s : State) (c : Command) :
    accessedWithin s c = if s.backend = .cpu then keyRanges c ++ bodyRanges c else keyRanges c := by
  unfold accessedWithin
  cases s.backend <;> rfl

/-- A command whose checks pass is refused where its buffers are unusable. -/
theorem refuses_of_issue {c : Command} {s : State} {o : Out} (h : o = issue c none s) :
    RefusedWhereUnusable s (keyRanges c ++ bodyRanges c)
      (if s.backend = .cpu then keyRanges c ++ bodyRanges c else keyRanges c) (payloadOf c) o := by
  rw [h, ← accessedWithin_eq]
  exact bufferRefusal_refuses _ _ _ _ _ fun r hr => by simp only [issue, hr]

/-- Settles O56: the refusals of a command, over the ranges that its operands name. -/
theorem unusableBuffersAreRefused : Obligations.UnusableBuffersAreRefused := by
  intro s hj
  refine ⟨fun i hi hh hs hkey haad => ?_, fun hh hs hp hw hr => ?_, fun hh hs hp ht hr => ?_,
    fun i hi hh hs hkey haad hp ht hr => ?_, fun hh hkey hout =>
      bufferRefusal_refuses _ _ _ _ _ fun r hr => GenPasses.refused ⟨hj, hh, hkey, hout⟩ hr⟩
  · have refuses := fun m => refuses_of_issue (InitPasses.command ⟨hj, hh, hs, hkey, haad⟩ m)
    simp only [List.mem_cons, List.not_mem_nil, or_false] at hi
    obtain rfl | rfl := hi
    · exact refuses .encrypt
    · exact refuses .decrypt
  · exact refuses_of_issue (UpdateExclPasses.command ⟨hj, hh, hs, hp, hw, hr⟩)
  · exact refuses_of_issue (UpdateInclPasses.command ⟨hj, hh, hs, hp, ht, hr⟩)
  · have refuses := fun m => refuses_of_issue (AeadPasses.command ⟨hj, hh, hs, hkey, haad, hp, ht, hr⟩ m)
    simp only [List.mem_cons, List.not_mem_nil, or_false] at hi
    obtain rfl | rfl := hi
    · exact refuses .encrypt
    · exact refuses .decrypt

/-! ## GEN_BLOCK (R79) -/

theorem Usable.nameable {s : State} {r : Region} (h : Usable s r) : Nameable s r := ⟨h.1, h.2.1⟩

theorem Definite.of_anyMem_eq {s t : State} {r : Region} (h : Definite s r) (k : t.anyMem = s.anyMem) : Definite t r :=
  fun a ha => k ▸ h a ha

theorem keyAt_setErr (e : ErrCode) (s : State) (a : Word) : keyAt (setErr e s) a = keyAt s a := rfl

/-- The record of GEN_BLOCK: the key is read, then the block is written (R48, R79). -/
theorem genEffect_accessLog (a : GenArgs) (s : State) : (genEffect a s).accessLog =
    { agent := .engine, kind := .write, addr := a.outPtr.toNat, len := 64 } ::
      { agent := .engine, kind := .read, addr := a.keyPtr.toNat, len := 32 } :: s.accessLog := by
  simp [genEffect, genKeystream, logAccess, afterRead]

/-- What GEN_BLOCK does to memory is one store of its keystream block. -/
theorem genEffect_stores (a : GenArgs) (s : State) :
    (genEffect a s).mem = (storeBytes a.outPtr.toNat (genKeystream a s) s).mem ∧
    (genEffect a s).anyMem = (storeBytes a.outPtr.toNat (genKeystream a s) s).anyMem := by
  simp only [genEffect, engineWrite_mem, engineWrite_anyMem, storeBytes]
  split <;> simp

theorem genKeystream_length (a : GenArgs) (s : State) : (genKeystream a s).length = 64 := chachaBlock_length _ _ _

/-- Settles O25: past its checks and refusals GEN_BLOCK is one read of the key and one store of the block. -/
theorem genBlockWritesTheKeystreamBlock : Obligations.GenBlockWritesTheKeystreamBlock := by
  intro s hj hh hkey hout hukey huout
  have hrefusal : bufferRefusal s (genBuffers (genOperands s)) (genBuffers (genOperands s)) none = none := by
    have husable : ∀ r ∈ genBuffers (genOperands s), Usable s r :=
      List.forall_mem_cons.2 ⟨hukey, List.forall_mem_singleton.2 huout⟩
    exact (bufferRefusal_eq_none _ _ _ _).2
      ⟨fun r hr => (husable r hr).nameable, fun r hr => (husable r hr).2.2, fun q hq => by cases hq⟩
  have hrun : exec .genBlock s = .next (genEffect (genOperands s) s) :=
    GenPasses.accepted ⟨hj, hh, hkey, hout⟩ hrefusal
  obtain ⟨hmem, hany⟩ := genEffect_stores (genOperands s) s
  have hlen := genKeystream_length (genOperands s) s
  have hstored := memBytes_storeBytes s.args[5].toNat (genKeystream (genOperands s) s) s
  have hdefinite := storeBytes_definite s.args[5].toNat (genKeystream (genOperands s) s) s
  have hsame := storeBytes_memSameOutside s.args[5].toNat (genKeystream (genOperands s) s) s
  rw [hlen] at hstored hdefinite hsame
  refine ⟨_, hrun, hmem ▸ hstored, hdefinite.of_anyMem_eq hany, hsame.trans (.of_mem_eq hmem hany),
    genEffect_accessLog _ _, ?_⟩
  simp [genEffect, hj, SessionSame, HostSideSame]

/-! ## The accept of a command whose buffers are usable (R94 steps 6 and 7, R95, R116) -/

/-- In the CPU backend the body runs at once. -/
theorem issue_cpu {c : Command} {s : State} (hcpu : s.backend = .cpu)
    (hu : ∀ r ∈ keyRanges c ++ bodyRanges c, Usable s r) (hp : ∀ q ∈ payloadOf c, DisjointOrInPlace q)
    (hc : (acceptPart c s).ctxHeld = true) : issue c none s = .next (bodyOf .engine c (acceptPart c s)) := by
  have hwithin : accessedWithin s c = keyRanges c ++ bodyRanges c := by rw [accessedWithin_eq, if_pos hcpu]
  rw [issue_accepted, launch_cpu hcpu hc]
  rw [bufferRefusal_eq_none, hwithin]
  exact ⟨fun r hr => (hu r hr).nameable, fun r hr => (hu r hr).2.2, hp⟩

/-- In the DMA backend a job starts; the key alone is accessed at the accept. -/
theorem issue_dma {c : Command} {s : State} (hdma : s.backend = .dma) (hk : ∀ r ∈ keyRanges c, Usable s r)
    (hn : ∀ r ∈ bodyRanges c, Nameable s r) (hp : ∀ q ∈ payloadOf c, DisjointOrInPlace q) :
    issue c none s = .next (startJob c (acceptPart c s)) := by
  have hwithin : accessedWithin s c = keyRanges c := by rw [accessedWithin_eq, if_neg (by simp [hdma])]
  rw [issue_accepted, launch_dma hdma]
  rw [bufferRefusal_eq_none, hwithin]
  exact ⟨List.forall_mem_append.2 ⟨fun r hr => (hk r hr).nameable, hn⟩, fun r hr => (hk r hr).2.2, hp⟩

/-- The two instructions of INIT are its command in either direction. -/
theorem exec_init {im : Instr × Dir} (h : im ∈ [(Instr.initEnc, Dir.encrypt), (Instr.initDec, Dir.decrypt)])
    (s : State) : exec im.1 s = initCommand im.2 s := by
  simp only [List.mem_cons, List.not_mem_nil, or_false] at h
  obtain rfl | rfl := h <;> rfl

/-- The two instructions of AEAD are its command in either direction. -/
theorem exec_aead {im : Instr × Dir} (h : im ∈ [(Instr.aeadEnc, Dir.encrypt), (Instr.aeadDec, Dir.decrypt)])
    (s : State) : exec im.1 s = aeadCommand im.2 s := by
  simp only [List.mem_cons, List.not_mem_nil, or_false] at h
  obtain rfl | rfl := h <;> rfl

theorem acceptPart_init_cpu {s : State} (h : s.backend = .cpu) (m : Dir) (a : InitArgs) :
    acceptPart (.init m a) s = sessionLoad m a (setErr .ok s) := by
  rw [acceptPart_init, if_neg (by simp [h])]

theorem acceptPart_init_dma {s : State} (h : s.backend = .dma) (m : Dir) (a : InitArgs) :
    acceptPart (.init m a) s = acquireChannels (sessionLoad m a (setErr .ok s)) := by
  rw [acceptPart_init, if_pos h]

theorem acceptPart_aead_cpu {s : State} (h : s.backend = .cpu) (m : Dir) (a : InitArgs) (p : PayloadArgs) (t : Word) :
    acceptPart (.aead m a p t) s = sessionLoad m a (setErr .ok s) := by
  rw [acceptPart_aead, if_neg (by simp [h])]

theorem acceptPart_aead_dma {s : State} (h : s.backend = .dma) (m : Dir) (a : InitArgs) (p : PayloadArgs) (t : Word) :
    acceptPart (.aead m a p t) s = acquireChannels (sessionLoad m a (setErr .ok s)) := by
  rw [acceptPart_aead, if_pos h]

/-- The session load advances the draws by the key's 32 bytes and leaves memory, so a later read is one from there. -/
theorem bytesAt_sessionLoad (m : Dir) (a : InitArgs) (e : ErrCode) (s : State) (x n : Nat) :
    bytesAt (sessionLoad m a (setErr e s)) x n = bytesAt (draw 32 s) x n :=
  bytesAt_congr (by simp) (by simp) (by simp) x n

/-- Settles O26: the session load, then the AAD absorbed from ACC = 0. -/
theorem initCompletesInTheCpuBackend : Obligations.InitCompletesInTheCpuBackend := by
  intro s im him hj hcpu hh hs hkey haad hukey huaad
  have hload := acceptPart_init_cpu hcpu im.2 (initOperands s)
  have hrun : exec im.1 s =
      .next (initBody .engine (initOperands s) (sessionLoad im.2 (initOperands s) (setErr .ok s))) := by
    rw [exec_init him, InitPasses.command ⟨hj, hh, hs, hkey, haad⟩, issue_cpu hcpu, hload]
    · rfl
    · exact List.forall_mem_cons.2 ⟨hukey, List.forall_mem_singleton.2 huaad⟩
    · exact fun q hq => by cases hq
    · simp [hload]
  refine ⟨_, hrun, ?_⟩
  simp [initBody, absorbAad_accessLog, bytesAt_sessionLoad, keyAt_setErr, nonceOf, initOperands, hcpu, hj, HostSideSame]

/-- Settles O27: the session load with the channels, then the job's start. -/
theorem initStartsAJobInTheDmaBackend : Obligations.InitStartsAJobInTheDmaBackend := by
  intro s im him hj hdma hh hs hkey haad hukey hnaad
  have hrun : exec im.1 s =
      .next (startJob (.init im.2 (initOperands s))
        (acquireChannels (sessionLoad im.2 (initOperands s) (setErr .ok s)))) := by
    rw [exec_init him, InitPasses.command ⟨hj, hh, hs, hkey, haad⟩, issue_dma hdma, acceptPart_init_dma hdma]
    · exact List.forall_mem_singleton.2 hukey
    · exact List.forall_mem_singleton.2 hnaad
    · exact fun q hq => by cases hq
  refine ⟨_, hrun, rfl, ?_⟩
  simp [keyAt_setErr, nonceOf, initOperands, hdma, HostSideSame]

/-- Settles O32: the accept is that of INIT with AEAD's operands in the job. -/
theorem aeadStartsAJobInTheDmaBackend : Obligations.AeadStartsAJobInTheDmaBackend := by
  intro s im him hj hdma hh hs hkey haad hp ht hr hukey hnaad hnin hnout hntag hdis
  have hrun : exec im.1 s =
      .next (startJob (.aead im.2 (initOperands s) (aeadOperands s) s.args[10])
        (acquireChannels (sessionLoad im.2 (initOperands s) (setErr .ok s)))) := by
    rw [exec_aead him, AeadPasses.command ⟨hj, hh, hs, hkey, haad, hp, ht, hr⟩, issue_dma hdma,
      acceptPart_aead_dma hdma]
    · exact List.forall_mem_singleton.2 hukey
    · exact List.forall_mem_cons.2 ⟨hnaad, List.forall_mem_cons.2 ⟨hnin,
        List.forall_mem_cons.2 ⟨hnout, List.forall_mem_singleton.2 hntag⟩⟩⟩
    · exact fun q hq => by cases hq; exact hdis
  refine ⟨_, hrun, rfl, ?_⟩
  simp [keyAt_setErr, nonceOf, initOperands, hdma, HostSideSame]

/-! ## The payload procedure's counters (R30, R97, R98) -/

/-- A piece of one block more is not empty, and without its first block it is a piece of the blocks left. -/
theorem blocksOf_succ {len n : Nat} (h : blocksOf len = n + 1) : 0 < len ∧ blocksOf (len - 64) = n := by
  unfold blocksOf at h ⊢
  omega

theorem blocksOf_eq_zero (len : Nat) : blocksOf len = 0 ↔ len = 0 := by
  unfold blocksOf
  omega

theorem payloadBlocks_ctr (ag : Agent) (n inA outA len : Nat) (s : State) :
    (payloadBlocks ag n inA outA len s).ctr = s.ctr + BitVec.ofNat 32 n := by
  induction n generalizing inA outA len s with
  | zero => simp [payloadBlocks]
  | succ n ih =>
    rw [payloadBlocks, ih, payloadBlock_ctr]
    bv_omega

/-- CTR_EXH is set by the block at counter 0xFFFFFFFF, which in a range with room can only be the last one. -/
theorem payloadBlocks_ctrExh (ag : Agent) (n inA outA len : Nat) (s : State) (h : s.ctr.toNat + n ≤ 2 ^ 32) :
    (payloadBlocks ag n inA outA len s).ctrExh = true ↔ s.ctrExh = true ∨ n ≠ 0 ∧ s.ctr.toNat + n = 2 ^ 32 := by
  induction n generalizing inA outA len s with
  | zero => simp [payloadBlocks]
  | succ n ih =>
    by_cases hmax : s.ctr = 4294967295#32
    · have hn : n = 0 := by
        have hnat : s.ctr.toNat = 2 ^ 32 - 1 := by rw [hmax]; rfl
        omega
      subst hn
      simp [payloadBlocks, hmax]
    · have hctr : (s.ctr + 1).toNat = s.ctr.toNat + 1 := by bv_omega
      have hexh : (payloadBlock ag inA outA (min 64 len) s).ctrExh = s.ctrExh := by simp [hmax]
      have hbound : s.ctr.toNat + 1 < 2 ^ 32 := by bv_omega
      rw [payloadBlocks, ih _ _ _ _ (by rw [payloadBlock_ctr, hctr]; omega), payloadBlock_ctr, hctr, hexh]
      refine or_congr_right ?_
      omega

theorem payloadBlocks_payloadBytes (ag : Agent) (n inA outA len : Nat) (s : State) (h : blocksOf len = n) :
    (payloadBlocks ag n inA outA len s).payloadBytes = s.payloadBytes + BitVec.ofNat 64 len := by
  induction n generalizing inA outA len s with
  | zero => simp [payloadBlocks, (blocksOf_eq_zero len).1 h]
  | succ n ih =>
    have hsum : min 64 len + (len - 64) = len := by omega
    rw [payloadBlocks, ih _ _ _ _ (blocksOf_succ h).2, payloadBlock_payloadBytes, BitVec.add_assoc, ← BitVec.ofNat_add,
      hsum]

theorem processPayload_ctr (ag : Agent) (p : PayloadArgs) (s : State) :
    (processPayload ag p s).ctr = s.ctr + BitVec.ofNat 32 (blocksOf p.len.toNat) :=
  payloadBlocks_ctr ..

theorem processPayload_ctrExh (ag : Agent) {p : PayloadArgs} {s : State}
    (h : s.ctr.toNat + blocksOf p.len.toNat ≤ 2 ^ 32) : (processPayload ag p s).ctrExh = true ↔
      s.ctrExh = true ∨ p.len ≠ 0 ∧ s.ctr.toNat + blocksOf p.len.toNat = 2 ^ 32 := by
  have hempty : blocksOf p.len.toNat = 0 ↔ p.len = 0 := by
    rw [blocksOf_eq_zero, ← BitVec.toNat_inj]
    rfl
  rw [processPayload, payloadBlocks_ctrExh _ _ _ _ _ _ h, Ne, hempty]

theorem processPayload_payloadBytes (ag : Agent) (p : PayloadArgs) (s : State) :
    (processPayload ag p s).payloadBytes = s.payloadBytes + p.len.setWidth 64 := by
  rw [processPayload, payloadBlocks_payloadBytes _ _ _ _ _ _ rfl, BitVec.ofNat_toNat]

/-! ## The payload procedure and STATUS.ERR -/

theorem storeBytes_setErr (e : ErrCode) (a : Nat) (bs : List Byte) (s : State) :
    storeBytes a bs (setErr e s) = setErr e (storeBytes a bs s) := by
  unfold storeBytes; split <;> rfl

theorem logAccess_setErr (e : ErrCode) (ag : Agent) (k : AccessKind) (a n : Nat) (s : State) :
    logAccess ag k a n (setErr e s) = setErr e (logAccess ag k a n s) := by
  unfold logAccess; split <;> rfl

theorem payloadBlock_setErr (e : ErrCode) (ag : Agent) (inA outA k : Nat) (s : State) :
    payloadBlock ag inA outA k (setErr e s) = setErr e (payloadBlock ag inA outA k s) := by
  have hread : afterRead ag inA k (setErr e s) = setErr e (afterRead ag inA k s) :=
    congrArg (draw k) (logAccess_setErr e ag .read inA k s)
  have hwrite : ∀ bs u, engineWrite ag outA bs (setErr e u) = setErr e (engineWrite ag outA bs u) := fun bs u => by
    rw [engineWrite, logAccess_setErr, storeBytes_setErr]; rfl
  rw [payloadBlock, hread]
  exact congrArg (countBlock k) (hwrite _ (absorb _ (afterRead ag inA k s)))

/-- The payload procedure neither reads nor writes ERR. -/
theorem processPayload_setErr (e : ErrCode) (ag : Agent) (p : PayloadArgs) (s : State) :
    processPayload ag p (setErr e s) = setErr e (processPayload ag p s) := by
  have blocks : ∀ n inA outA len u,
      payloadBlocks ag n inA outA len (setErr e u) = setErr e (payloadBlocks ag n inA outA len u) := by
    intro n
    induction n with
    | zero => exact fun _ _ _ _ => rfl
    | succ n ih => exact fun _ _ _ _ => by rw [payloadBlocks, payloadBlock_setErr, ih, payloadBlocks]
  exact blocks _ _ _ _ s

/-! ## UPDATE_EXCL and UPDATE_INCL in the CPU backend (R102, R103) -/

/-- In a piece with room the counter does not run past 2^32, even if it is empty. -/
theorem room_bound {s : State} {len : Word}
    (h : len ≠ 0 → s.ctrExh = false ∧ s.ctr.toNat + blocksOf len.toNat ≤ 2 ^ 32) :
    s.ctr.toNat + blocksOf len.toNat ≤ 2 ^ 32 := by
  by_cases hlen : len = 0
  · subst hlen
    exact Nat.le_of_lt s.ctr.isLt
  · exact (h hlen).2

theorem blocksOf_whole {len : Nat} (h : len % 64 = 0) : len / 64 = blocksOf len := by
  unfold blocksOf
  omega

/-- Settles O28: the body is the payload procedure, on whole blocks. -/
theorem updateExclCompletesInTheCpuBackend : Obligations.UpdateExclCompletesInTheCpuBackend := by
  intro s hj hcpu hc hh hs hp hw hr huin huout hdis
  have hrun : exec .updateExcl s = .next
      { setErr .ok (processPayload .engine (updateOperands s) s) with session := .payloadStreaming } := by
    rw [← processPayload_setErr]
    refine (UpdateExclPasses.command ⟨hj, hh, hs, hp, hw, hr⟩).trans (issue_cpu hcpu ?_ ?_ hc)
    · exact List.forall_mem_cons.2 ⟨huin, List.forall_mem_singleton.2 huout⟩
    · exact fun q hq => by cases hq; exact hdis
  rw [blocksOf_whole hw] at hr ⊢
  refine ⟨_, hrun, rfl, rfl, processPayload_ctr _ _ _, processPayload_ctrExh _ (room_bound hr),
    processPayload_payloadBytes _ _ _, rfl, rfl, rfl, processPayload_accessLog _ _ _, ?_, ?_⟩ <;> simp [hj]

/-- The finalisation stores the tag's bytes, and its record is all else it adds to memory. -/
theorem finishSession_stores (ag : Agent) (tagPtr : Word) (s : State) :
    memBytes (finishSession ag tagPtr s).mem tagPtr.toNat 16 = bytesLe (finalTag s).toNat 16 ∧
    Definite (finishSession ag tagPtr s) (buffer tagPtr 16) := by
  have hstored := memBytes_storeBytes tagPtr.toNat (tagBytes (finalTag s)) s
  have hdefinite := storeBytes_definite tagPtr.toNat (tagBytes (finalTag s)) s
  rw [tagBytes_length] at hstored hdefinite
  exact ⟨(finishSession_mem ag tagPtr s).symm ▸ hstored, hdefinite.of_anyMem_eq (finishSession_anyMem ag tagPtr s)⟩

/-- Where ACC holds a value the tag is that of the accumulator after the length block (R89, R90). -/
theorem finalTag_held {s : State} (h : s.accAny = false) : finalTag s =
    polyTag (polyAbsorb s.polyR s.acc (bytesLe s.aadBytes.toNat 8 ++ bytesLe s.payloadBytes.toNat 8)) s.polyS := by
  rw [finalTag, finalAcc, if_neg (by simp [h])]
  rfl

/-- Settles O30: the body is the payload procedure and then the finalisation. -/
theorem updateInclCompletesInTheCpuBackend : Obligations.UpdateInclCompletesInTheCpuBackend := by
  intro s hj hcpu hc hh hs hp ht hr huin huout hutag hdis
  have hrun : exec .updateIncl s = .next
      (finishSession .engine s.args[3] (setErr .ok (processPayload .engine (updateOperands s) s))) := by
    rw [← processPayload_setErr]
    refine (UpdateInclPasses.command ⟨hj, hh, hs, hp, ht, hr⟩).trans (issue_cpu hcpu ?_ ?_ hc)
    · exact List.forall_mem_cons.2 ⟨huin, List.forall_mem_cons.2 ⟨huout, List.forall_mem_singleton.2 hutag⟩⟩
    · exact fun q hq => by cases hq; exact hdis
  obtain ⟨htag, hdefinite⟩ := finishSession_stores .engine s.args[3]
    (setErr .ok (processPayload .engine (updateOperands s) s))
  refine ⟨_, hrun, rfl, ?_, rfl, rfl, ?_, ?_, ?_, ?_, ⟨_, rfl, rfl, rfl, rfl, rfl, htag, hdefinite, fun hacc => ?_⟩,
    finishSession_outside _ _ _, ?_, ?_, ?_⟩
  · simp
  · exact (finishSession_ctr _ _ _).trans (processPayload_ctr _ _ _)
  · rw [finishSession_ctrExh]
    exact processPayload_ctrExh _ (room_bound hr)
  · exact (finishSession_payloadBytes _ _ _).trans (processPayload_payloadBytes _ _ _)
  · simp
  · rw [finalTag_held (by simpa using hacc)]
    simp [polyTag, updateOperands]
  · rw [finishSession_accessLog, setErr_accessLog, processPayload_accessLog]
    rfl
  · simpa using hj
  · simp

/-! ## Byte strings of a piece, split after a block (R80, R85, R98) -/

theorem memBytes_split (m : List Host.Cell) (a j k : Nat) :
    memBytes m a (j + k) = memBytes m a j ++ memBytes m (a + j) k := by
  simp [memBytes, List.range_add, Nat.add_assoc]

/-- Block by block the keystream's counter goes up by one (R80). -/
theorem keystreamByte_next (key : BitVec 256) (nonce : BitVec 96) (ctr : Word) (o : Nat) :
    keystreamByte key nonce ctr (64 + o) = keystreamByte key nonce (ctr + 1) o := by
  have hctr : ctr + BitVec.ofNat 32 ((64 + o) / 64) = ctr + 1 + BitVec.ofNat 32 (o / 64) := by
    have hdiv : (64 + o) / 64 = 1 + o / 64 := by omega
    rw [hdiv, BitVec.ofNat_add, BitVec.add_assoc]
    rfl
  rw [keystreamByte, hctr, Nat.add_mod_left]
  rfl

theorem keystream_split (key : BitVec 256) (nonce : BitVec 96) (ctr : Word) (k : Nat) :
    keystream key nonce ctr (64 + k) = keystream key nonce ctr 64 ++ keystream key nonce (ctr + 1) k := by
  simp [keystream, List.range_add, Function.comp_def, keystreamByte_next]

/-- Within a block the keystream is the first bytes of the block at its counter (R77). -/
theorem keystream_block (key : BitVec 256) (nonce : BitVec 96) (ctr : Word) {k : Nat} (hk : k ≤ 64) :
    keystream key nonce ctr k = (chachaBlock key ctr nonce).take k := by
  refine List.ext_getElem (by simp [keystream, hk]) fun i h1 h2 => ?_
  have hi : i < 64 := by simp at h2; omega
  simp [keystream, keystreamByte, Nat.div_eq_of_lt hi, Nat.mod_eq_of_lt hi, hi]

theorem xorBytes_append {a b : List Byte} (h : a.length = b.length) (c d : List Byte) :
    xorBytes (a ++ c) (b ++ d) = xorBytes a b ++ xorBytes c d :=
  List.zipWith_append h

theorem ciphertextOf_append (dir : Dir) (a b c d : List Byte) :
    ciphertextOf dir (a ++ c) (b ++ d) = ciphertextOf dir a b ++ ciphertextOf dir c d := by
  cases dir <;> rfl

/-- Absorbing `m` whole blocks and then `n` more (R85). -/
theorem polyAbsorbBlocks_append (r : BitVec 128) (m n acc : Nat) (d e : List Byte) (h : d.length = 16 * m) :
    polyAbsorbBlocks r (m + n) acc (d ++ e) = polyAbsorbBlocks r n (polyAbsorbBlocks r m acc d) e := by
  induction m generalizing acc d with
  | zero =>
    obtain rfl := List.eq_nil_of_length_eq_zero h
    simp [polyAbsorbBlocks]
  | succ m ih =>
    have hstep : m + 1 + n = m + n + 1 := by omega
    have hdrop : 16 ≤ d.length := by omega
    rw [hstep, polyAbsorbBlocks, polyAbsorbBlocks, List.take_append_of_le_length hdrop,
      List.drop_append_of_le_length hdrop, ih _ _ (by simp; omega)]

/-- A string in two pieces, the first a whole number of 16-byte blocks (R87). -/
theorem polyAbsorbPadded_append (r : BitVec 128) (acc : Nat) {d : List Byte} (e : List Byte) (h : d.length % 16 = 0) :
    polyAbsorbPadded r acc (d ++ e) = polyAbsorbPadded r (polyAbsorbPadded r acc d) e := by
  have hblocks : ((d ++ e).length + 15) / 16 = (d.length + 15) / 16 + (e.length + 15) / 16 := by
    rw [List.length_append]
    omega
  rw [polyAbsorbPadded, hblocks, polyAbsorbBlocks_append _ _ _ _ _ _ (by omega)]
  rfl

/-! ## One block of a piece whose input holds values (R98) -/

/-- The input and output ranges of a piece are the same or have no address in common (R47). -/
def PieceClear (inA outA len : Nat) : Prop := inA = outA ∨ inA + len ≤ outA ∨ outA + len ≤ inA

theorem DisjointOrInPlace.clear {p : PayloadArgs} (h : DisjointOrInPlace p) :
    PieceClear p.inPtr.toNat p.outPtr.toNat p.len.toNat :=
  h.imp_left (congrArg BitVec.toNat)

theorem PieceClear.rest {inA outA len : Nat} (h : PieceClear inA outA len) :
    PieceClear (inA + 64) (outA + 64) (len - 64) := by
  unfold PieceClear at h ⊢
  omega

theorem Definite.take {s : State} {a m n : Nat} (h : Definite s { base := a, size := n }) (hm : m ≤ n) :
    Definite s { base := a, size := m } :=
  fun x ⟨h1, h2⟩ => h x ⟨h1, Nat.lt_of_lt_of_le h2 (Nat.add_le_add_left hm a)⟩

theorem memBytes_congr {m n : List Host.Cell} {a k : Nat} (h : ∀ x, a ≤ x → x < a + k → memGet n x = memGet m x) :
    memBytes n a k = memBytes m a k :=
  List.map_congr_left fun j hj => h _ (by omega) (by simp at hj; omega)

theorem xorBytes_piece_getElem (m : List Host.Cell) (key : BitVec 256) (nonce : BitVec 96) (ctr : Word) (a : Nat)
    {n o : Nat} (ho : o < n) : (xorBytes (memBytes m a n) (keystream key nonce ctr n))[o]? =
      some (memGet m (a + o) ^^^ keystreamByte key nonce ctr o) := by
  simp [xorBytes, memBytes, keystream, ho]

/-- The output of a block is its input XORed with the keystream from its counter on. -/
theorem blockOutput_definite {s : State} {inA k : Nat} (h : Definite s { base := inA, size := k }) (hk : k ≤ 64) :
    blockOutput inA k s = xorBytes (memBytes s.mem inA k) (keystream s.key s.nonce s.ctr k) := by
  rw [blockOutput, blockInput, xorPrefix, bytesAt_definite h, ← keystream_block _ _ _ hk,
    List.take_of_length_le (by simp)]

theorem payloadBlock_outside (ag : Agent) {inA outA k x : Nat} (s : State) (hk : k ≤ 64)
    (h : x < outA ∨ outA + k ≤ x) : SameByte s (payloadBlock ag inA outA k s) x := by
  have hstore := storeBytes_outside (s := s) (a := outA) (x := x) (bs := blockOutput inA k s)
    (by rwa [blockOutput_length hk])
  simpa [SameByte] using hstore

/-- The bytes that a block writes. -/
theorem payloadBlock_output (ag : Agent) {inA outA k o : Nat} {s : State} (hk : k ≤ 64)
    (hdef : Definite s { base := inA, size := k }) (ho : o < k) :
    memGet (payloadBlock ag inA outA k s).mem (outA + o) =
      memGet s.mem (inA + o) ^^^ keystreamByte s.key s.nonce s.ctr o ∧
    outA + o ∉ (payloadBlock ag inA outA k s).anyMem := by
  obtain ⟨hget, hheld⟩ := storeBytes_inside (s := s) (a := outA) (x := outA + o) (bs := blockOutput inA k s)
    (by omega) (by rw [blockOutput_length hk]; omega)
  rw [payloadBlock_mem, payloadBlock_anyMem]
  refine ⟨?_, hheld⟩
  rw [hget, blockOutput_definite hdef hk, Nat.add_sub_cancel_left, xorBytes_piece_getElem _ _ _ _ _ ho]
  rfl

/-- The first block of a piece leaves the input of the blocks after it as it was. -/
theorem payloadBlock_rest (ag : Agent) {inA outA len : Nat} {s : State} (hclear : PieceClear inA outA len)
    (hdef : Definite s { base := inA, size := len }) :
    Definite (payloadBlock ag inA outA (min 64 len) s) { base := inA + 64, size := len - 64 } ∧
    ∀ x, inA + 64 ≤ x → x < inA + 64 + (len - 64) →
      memGet (payloadBlock ag inA outA (min 64 len) s).mem x = memGet s.mem x := by
  have hsame : ∀ x, inA + 64 ≤ x → x < inA + 64 + (len - 64) →
      SameByte s (payloadBlock ag inA outA (min 64 len) s) x := fun x h1 h2 =>
    payloadBlock_outside ag s (by omega) (by unfold PieceClear at hclear; omega)
  refine ⟨fun x ⟨h1, h2⟩ hx => ?_, fun x h1 h2 => (hsame x h1 h2).1⟩
  simp only at h1 h2
  exact hdef x ⟨by simp only; omega, by simp only; omega⟩ ((hsame x h1 h2).2.1 hx)

/-! ## The payload procedure on an input that holds values (R77, R80, R86 to R88, R98) -/

/-- The output bytes of a run of blocks that covers a piece. -/
theorem payloadBlocks_output (ag : Agent) (n inA outA len : Nat) (s : State) (hn : blocksOf len = n)
    (hclear : PieceClear inA outA len) (hdef : Definite s { base := inA, size := len }) {o : Nat} (ho : o < len) :
    memGet (payloadBlocks ag n inA outA len s).mem (outA + o) =
      memGet s.mem (inA + o) ^^^ keystreamByte s.key s.nonce s.ctr o ∧
    outA + o ∉ (payloadBlocks ag n inA outA len s).anyMem := by
  induction n generalizing inA outA len s o with
  | zero =>
    have hlen := (blocksOf_eq_zero len).1 hn
    omega
  | succ n ih =>
    obtain ⟨-, hrest⟩ := blocksOf_succ hn
    rw [payloadBlocks]
    by_cases hfirst : o < 64
    · have hbound := blocksOf_bound (len - 64)
      obtain ⟨hlater, hany⟩ := payloadBlocks_outside ag n (inA + 64) (outA + 64) (len - 64)
        (payloadBlock ag inA outA (min 64 len) s) (a := outA + o) (by omega) (by omega)
      rw [hlater, hany]
      exact payloadBlock_output ag (by omega) (hdef.take (by omega)) (by omega)
    · obtain ⟨j, rfl⟩ : ∃ j, o = 64 + j := ⟨o - 64, by omega⟩
      obtain ⟨hdef', hsame⟩ := payloadBlock_rest ag hclear hdef
      have hlater := ih (inA + 64) (outA + 64) (len - 64) _ hrest hclear.rest hdef' (o := j) (by omega)
      rw [hsame _ (by omega) (by omega)] at hlater
      simpa [Nat.add_assoc, keystreamByte_next] using hlater

/-- Settles O33: each byte is written by its own block and by no later one. -/
theorem payloadOutputIsInputXorKeystream : Obligations.PayloadOutputIsInputXorKeystream := by
  intro ag p s _ _ hdis hdef
  have output := fun o => payloadBlocks_output ag _ _ _ _ s rfl hdis.clear hdef (o := o)
  refine ⟨fun o ho => (output o ho).1, fun x ⟨h1, h2⟩ => ?_, processPayload_outside ag p s⟩
  obtain ⟨o, rfl⟩ := Nat.exists_eq_add_of_le h1
  exact (output o (by simp only [outBuffer, buffer] at h2; omega)).2

/-- The ciphertext that a piece absorbs (R88). -/
def pieceCiphertext (s : State) (inA len : Nat) : List Byte :=
  ciphertextOf s.dir (memBytes s.mem inA len)
    (xorBytes (memBytes s.mem inA len) (keystream s.key s.nonce s.ctr len))

theorem pieceCiphertext_length (s : State) (inA len : Nat) : (pieceCiphertext s inA len).length = len := by
  unfold pieceCiphertext ciphertextOf
  cases s.dir <;> simp [xorBytes, keystream]

theorem pieceCiphertext_empty (s : State) (inA : Nat) : pieceCiphertext s inA 0 = [] :=
  List.eq_nil_of_length_eq_zero (pieceCiphertext_length s inA 0)

/-- The ciphertext of a piece is that of its first block, then that of the piece left after it. -/
theorem pieceCiphertext_split (ag : Agent) {inA outA k : Nat} {s : State} (hclear : PieceClear inA outA (64 + k))
    (hdef : Definite s { base := inA, size := 64 + k }) : pieceCiphertext s inA (64 + k) =
      pieceCiphertext s inA 64 ++ pieceCiphertext (payloadBlock ag inA outA 64 s) (inA + 64) k := by
  have hmem : memBytes (payloadBlock ag inA outA 64 s).mem (inA + 64) k = memBytes s.mem (inA + 64) k := by
    obtain ⟨-, hsame⟩ := payloadBlock_rest ag hclear hdef
    rw [Nat.min_eq_left (by omega), Nat.add_sub_cancel_left] at hsame
    exact memBytes_congr hsame
  rw [pieceCiphertext, memBytes_split, keystream_split, xorBytes_append (by simp [keystream]), ciphertextOf_append]
  simp only [pieceCiphertext, payloadBlock_dir, payloadBlock_key, payloadBlock_nonce, payloadBlock_ctr, hmem]

/-- A run of blocks that covers a piece absorbs its ciphertext as one string. -/
theorem payloadBlocks_acc (ag : Agent) (n inA outA len : Nat) (s : State) (hn : blocksOf len = n)
    (hclear : PieceClear inA outA len) (hdef : Definite s { base := inA, size := len }) :
    (payloadBlocks ag n inA outA len s).acc = polyAbsorbPadded s.polyR s.acc (pieceCiphertext s inA len) := by
  induction n generalizing inA outA len s with
  | zero =>
    obtain rfl := (blocksOf_eq_zero len).1 hn
    rw [pieceCiphertext_empty]
    rfl
  | succ n ih =>
    obtain ⟨-, hrest⟩ := blocksOf_succ hn
    obtain ⟨hdef', hsame⟩ := payloadBlock_rest ag hclear hdef
    have hblock : (payloadBlock ag inA outA (min 64 len) s).acc =
        polyAbsorbPadded s.polyR s.acc (pieceCiphertext s inA (min 64 len)) := by
      have hfirst : Definite s { base := inA, size := min 64 len } := hdef.take (by omega)
      rw [payloadBlock_acc, blockOutput_definite hfirst (by omega), blockInput, bytesAt_definite hfirst]
      rfl
    rw [payloadBlocks, ih _ _ _ _ hrest hclear.rest hdef', hblock]
    obtain hlast | hmore := Nat.le_total len 64
    · have hzero : len - 64 = 0 := by omega
      rw [hzero, Nat.min_eq_right hlast, pieceCiphertext_empty]
      rfl
    · obtain ⟨k, rfl⟩ := Nat.exists_eq_add_of_le hmore
      rw [Nat.min_eq_left hmore, Nat.add_sub_cancel_left, payloadBlock_polyR, pieceCiphertext_split ag hclear hdef,
        polyAbsorbPadded_append _ _ _ (by rw [pieceCiphertext_length])]

/-- The payload procedure absorbs the ciphertext of the whole piece, padded only at its end (R86 to R88). -/
theorem processPayload_acc (ag : Agent) {p : PayloadArgs} {s : State} (hdis : DisjointOrInPlace p)
    (hdef : Definite s (inBuffer p)) : (processPayload ag p s).acc =
      polyAbsorbPadded s.polyR s.acc (pieceCiphertext s p.inPtr.toNat p.len.toNat) :=
  payloadBlocks_acc ag _ _ _ _ s rfl hdis.clear hdef

/-! ## AEAD in the CPU backend (R86, R104) -/

/-- A byte that the finalisation does not cover, or gives a value, still holds one after it. -/
theorem finishSession_keeps_definite {ag : Agent} {tagPtr : Word} {s : State} {r : Region} (h : Definite s r) :
    Definite (finishSession ag tagPtr s) r := by
  intro x hx
  by_cases hin : InRegion (buffer tagPtr 16) x
  · exact (finishSession_stores ag tagPtr s).2 x hin
  · have hsame := finishSession_outside ag tagPtr s x (List.forall_mem_singleton.2 hin)
    exact fun hany => h x hx (hsame.2.1 hany)

/-- The state of AEAD in the CPU backend once the session is loaded and the AAD absorbed. -/
def aeadLoaded (m : Dir) (s : State) : State :=
  absorbAad .engine (initOperands s) (sessionLoad m (initOperands s) (setErr .ok s))

section aeadLoaded
variable (m : Dir) (s : State)

@[simp] theorem aeadLoaded_err : (aeadLoaded m s).err = .ok := by simp [aeadLoaded]
@[simp] theorem aeadLoaded_errlog : (aeadLoaded m s).errlog = s.errlog := by simp [aeadLoaded]
@[simp] theorem aeadLoaded_dir : (aeadLoaded m s).dir = m := by simp [aeadLoaded]
@[simp] theorem aeadLoaded_lock : (aeadLoaded m s).lock = true := by simp [aeadLoaded]
@[simp] theorem aeadLoaded_job : (aeadLoaded m s).job = s.job := by simp [aeadLoaded]
@[simp] theorem aeadLoaded_mem : (aeadLoaded m s).mem = s.mem := by simp [aeadLoaded]
@[simp] theorem aeadLoaded_anyMem : (aeadLoaded m s).anyMem = s.anyMem := by simp [aeadLoaded]
@[simp] theorem aeadLoaded_ctr : (aeadLoaded m s).ctr = s.args[6] := by simp [aeadLoaded, initOperands]
@[simp] theorem aeadLoaded_ctrExh : (aeadLoaded m s).ctrExh = false := by simp [aeadLoaded]
@[simp] theorem aeadLoaded_accAny : (aeadLoaded m s).accAny = false := by simp [aeadLoaded]
@[simp] theorem aeadLoaded_payloadBytes : (aeadLoaded m s).payloadBytes = 0 := by simp [aeadLoaded]
@[simp] theorem aeadLoaded_aadBytes : (aeadLoaded m s).aadBytes = s.args[5].setWidth 64 := by
  simp [aeadLoaded, initOperands]
@[simp] theorem aeadLoaded_key : (aeadLoaded m s).key = keyAt s s.args[0] := by
  simp [aeadLoaded, initOperands, keyAt_setErr]
@[simp] theorem aeadLoaded_nonce : (aeadLoaded m s).nonce = s.args[3] ++ s.args[2] ++ s.args[1] := by
  simp [aeadLoaded, initOperands, nonceOf]
@[simp] theorem aeadLoaded_polyR :
    (aeadLoaded m s).polyR = polyKeyR (aeadLoaded m s).key (aeadLoaded m s).nonce := by simp [aeadLoaded]
@[simp] theorem aeadLoaded_polyS :
    (aeadLoaded m s).polyS = polyKeyS (aeadLoaded m s).key (aeadLoaded m s).nonce := by simp [aeadLoaded]

theorem aeadLoaded_accessLog : (aeadLoaded m s).accessLog = aadAccesses .engine s.args[4] s.args[5] ++
    { agent := .engine, kind := .read, addr := s.args[0].toNat, len := 32 } :: s.accessLog := by
  simp [aeadLoaded, absorbAad_accessLog, initOperands]

/-- From ACC = 0 the AAD is absorbed, where its bytes hold values (R86). -/
theorem aeadLoaded_acc {s : State} (h : Definite s (buffer s.args[4] s.args[5].toNat)) : (aeadLoaded m s).acc =
    polyAbsorbPadded (aeadLoaded m s).polyR 0 (memBytes s.mem s.args[4].toNat s.args[5].toNat) := by
  have hread : bytesAt (draw 32 s) s.args[4].toNat s.args[5].toNat = memBytes s.mem s.args[4].toNat s.args[5].toNat :=
    bytesAt_definite h
  simp [aeadLoaded, bytesAt_sessionLoad, initOperands, hread]

end aeadLoaded

theorem aead_payloadBytes (m : Dir) (s : State) :
    (processPayload .engine (aeadOperands s) (aeadLoaded m s)).payloadBytes = s.args[9].setWidth 64 := by
  rw [processPayload_payloadBytes, aeadLoaded_payloadBytes]
  exact BitVec.zero_add _

/-- The tag of AEAD: the padded AAD, the padded ciphertext and the length block from ACC = 0 (R86, R89, R90). -/
theorem aead_finalTag {s : State} (m : Dir) (hdis : DisjointOrInPlace (aeadOperands s))
    (hdaad : Definite s (buffer s.args[4] s.args[5].toNat)) (hdin : Definite s (inBuffer (aeadOperands s))) :
    finalTag (processPayload .engine (aeadOperands s) (aeadLoaded m s)) =
      polyTag
        (polyAbsorb (aeadLoaded m s).polyR
          (polyAbsorbPadded (aeadLoaded m s).polyR
            (polyAbsorbPadded (aeadLoaded m s).polyR 0 (memBytes s.mem s.args[4].toNat s.args[5].toNat))
            (pieceCiphertext (aeadLoaded m s) s.args[7].toNat s.args[9].toNat))
          (bytesLe s.args[5].toNat 8 ++ bytesLe s.args[9].toNat 8))
        (aeadLoaded m s).polyS := by
  have hin : Definite (aeadLoaded m s) (inBuffer (aeadOperands s)) := hdin.of_anyMem_eq (aeadLoaded_anyMem m s)
  have hbytes : ∀ w : Word, (w.setWidth 64).toNat = w.toNat := fun w => BitVec.toNat_setWidth_of_le (by decide)
  rw [finalTag_held (by simp), processPayload_acc .engine hdis hin, aeadLoaded_acc m hdaad, processPayload_polyR,
    processPayload_polyS, processPayload_aadBytes, aeadLoaded_aadBytes, aead_payloadBytes, hbytes, hbytes]
  rfl

/-- Settles O31: the session load, the AAD, the piece and the finalisation, each by its own law. -/
theorem aeadCompletesInTheCpuBackend : Obligations.AeadCompletesInTheCpuBackend := by
  intro s im him hj hcpu hh hs hkey haad hp ht hr hukey huaad huin huout hutag hdis hdaad hdin
  have hrun : exec im.1 s =
      .next (finishSession .engine s.args[10] (processPayload .engine (aeadOperands s) (aeadLoaded im.2 s))) := by
    have hload := acceptPart_aead_cpu hcpu im.2 (initOperands s) (aeadOperands s) s.args[10]
    rw [exec_aead him, AeadPasses.command ⟨hj, hh, hs, hkey, haad, hp, ht, hr⟩, issue_cpu hcpu, hload]
    · rfl
    · exact List.forall_mem_cons.2 ⟨hukey, List.forall_mem_cons.2 ⟨huaad, List.forall_mem_cons.2 ⟨huin,
        List.forall_mem_cons.2 ⟨huout, List.forall_mem_singleton.2 hutag⟩⟩⟩⟩
    · exact fun q hq => by cases hq; exact hdis
    · simp [hload]
  have hin : Definite (aeadLoaded im.2 s) (inBuffer (aeadOperands s)) :=
    Definite.of_anyMem_eq hdin (aeadLoaded_anyMem _ s)
  obtain ⟨houtput, houtheld, -⟩ := payloadOutputIsInputXorKeystream .engine (aeadOperands s) (aeadLoaded im.2 s)
    huin.1 huout.1 hdis hin
  obtain ⟨hstored, htagheld⟩ := finishSession_stores .engine s.args[10]
    (processPayload .engine (aeadOperands s) (aeadLoaded im.2 s))
  refine ⟨_, pieceCiphertext (aeadLoaded im.2 s) s.args[7].toNat s.args[9].toNat,
    keystream (aeadLoaded im.2 s).key (aeadLoaded im.2 s).nonce s.args[6] s.args[9].toNat, hrun, rfl, by simp,
    by simp, by simp, rfl, rfl, ?_, ?_, by simp, (finishSession_payloadBytes _ _ _).trans (aead_payloadBytes _ s),
    by simp, by simp, by simp, ?_, ?_, ?_, finishSession_keeps_definite houtheld, htagheld, ?_, by simpa using hj,
    by simp⟩
  · rw [finishSession_ctr, processPayload_ctr, aeadLoaded_ctr]
    rfl
  · have hroom : (aeadLoaded im.2 s).ctr.toNat + blocksOf (aeadOperands s).len.toNat ≤ 2 ^ 32 := by
      rw [aeadLoaded_ctr]
      exact hr
    rw [finishSession_ctrExh, processPayload_ctrExh .engine hroom, aeadLoaded_ctr, aeadLoaded_ctrExh]
    simp [aeadOperands, blocksOf]
  · cases im.2 <;> simp [pieceCiphertext, ciphertextOf]
  · intro o ho hout
    have hbyte := houtput o ho
    have hsame := finishSession_outside .engine s.args[10] (processPayload .engine (aeadOperands s) (aeadLoaded im.2 s))
      (s.args[8].toNat + o) (List.forall_mem_singleton.2 hout)
    rw [aeadLoaded_mem, aeadLoaded_ctr] at hbyte
    rw [xorBytes_piece_getElem _ _ _ _ _ ho, hsame.1]
    exact congrArg some hbyte
  · intro R T
    have hT : finalTag (processPayload .engine (aeadOperands s) (aeadLoaded im.2 s)) = T := by
      rw [aead_finalTag im.2 hdis hdaad hdin, aeadLoaded_polyR, aeadLoaded_polyS]
      simp only [T, R, finishSession_key, finishSession_nonce, processPayload_key, processPayload_nonce]
    rw [← hT]
    exact ⟨rfl, rfl, rfl, rfl, hstored⟩
  · rw [finishSession_accessLog, processPayload_accessLog, aeadLoaded_accessLog]
    rfl

end Sys2Proof.Machine

namespace Sys2Proof.Machine

/-! ## The command word and its fields (R58) -/

/-- The three fields are adjacent and cover the word, so no bit of it is lost in them. -/
theorem cmdWord_cmdFields (w : Word) : cmdWord (cmdFields w) = w := by
  simp only [cmdWord, cmdFields, BitVec.append_assoc]
  rw [BitVec.extractLsb'_append_extractLsb'_eq_extractLsb' (by decide),
    BitVec.extractLsb'_append_extractLsb'_eq_extractLsb' (by decide)]
  exact BitVec.extractLsb'_eq_self

/-- Each field is what is left of the word once the fields below it are dropped. -/
theorem cmdFields_cmdWord (c : CmdWord) : cmdFields (cmdWord c) = c := by
  obtain ⟨rsv, m, opc⟩ := c
  have hrsv : (rsv ++ m ++ opc).extractLsb' 9 23 = rsv := by
    rw [BitVec.extractLsb'_append_eq_of_le (by decide)]
    exact BitVec.extractLsb'_append_eq_left
  have hm : (rsv ++ m ++ opc).extractLsb' 8 1 = m := by
    rw [BitVec.extractLsb'_append_eq_of_le (by decide)]
    exact BitVec.extractLsb'_append_eq_right
  have hopc : (rsv ++ m ++ opc).extractLsb' 0 8 = opc := BitVec.extractLsb'_append_eq_right
  simp only [cmdFields, cmdWord, hrsv, hm, hopc]

/-! ## The opcode map and its inverse (R59, R60) -/

/-- The law of each command's word, said of all ten. -/
theorem legalWord : ∀ i : Instr, Laws.LegalWord.Statement i
  | .setBackendCpu => Laws.LegalWord.setBackendCpu
  | .setBackendDma => Laws.LegalWord.setBackendDma
  | .initEnc => Laws.LegalWord.initEnc
  | .initDec => Laws.LegalWord.initDec
  | .updateExcl => Laws.LegalWord.updateExcl
  | .updateIncl => Laws.LegalWord.updateIncl
  | .aeadEnc => Laws.LegalWord.aeadEnc
  | .aeadDec => Laws.LegalWord.aeadDec
  | .release => Laws.LegalWord.release
  | .genBlock => Laws.LegalWord.genBlock

theorem cmdFields_encode (i : Instr) : cmdFields (encode i) = encodeFields i := cmdFields_cmdWord _

theorem encodeFields_rsv (i : Instr) : (encodeFields i).rsv = 0 := by
  obtain ⟨-, hrsv⟩ := legalWord i
  rwa [cmdFields_encode] at hrsv

theorem opcodeMap_encodeFields (i : Instr) :
    opcodeMap (encodeFields i).opc.toNat ((encodeFields i).m == 1) = .ok i := by
  cases i <;> rfl

/-- A command stands in one row of the map. -/
theorem opcodeMap_eq_ok {opc : Nat} {m : Bool} {i : Instr} (h : opcodeMap opc m = .ok i) :
    opc = (encodeFields i).opc.toNat ∧ m = ((encodeFields i).m == 1) := by
  unfold opcodeMap at h
  split at h <;> cases h <;> exact ⟨rfl, rfl⟩

theorem bit_eq_of_beq_one_eq : ∀ {a b : BitVec 1}, (a == 1) = (b == 1) → a = b := by decide

/-! ## Decoding and encoding (R57, R59, R65) -/

theorem decode_reserved {w : Word} (h : (cmdFields w).rsv ≠ 0) : decode w = .illegal .reserved := if_pos h

theorem decode_of_rsv_zero {w : Word} (h : (cmdFields w).rsv = 0) :
    decode w = opcodeMap (cmdFields w).opc.toNat ((cmdFields w).m == 1) := if_neg (not_not_intro h)

theorem decode_encode (i : Instr) : decode (encode i) = .ok i := by
  obtain ⟨-, hrsv⟩ := legalWord i
  rw [decode_of_rsv_zero hrsv, cmdFields_encode, opcodeMap_encodeFields]

/-- The fields of a word that decodes are those of its command. -/
theorem cmdFields_eq_of_decode {w : Word} {i : Instr} (h : decode w = .ok i) : cmdFields w = encodeFields i := by
  by_cases hrsv : (cmdFields w).rsv = 0
  · rw [decode_of_rsv_zero hrsv] at h
    obtain ⟨hopc, hm⟩ := opcodeMap_eq_ok h
    calc cmdFields w = ⟨(cmdFields w).rsv, (cmdFields w).m, (cmdFields w).opc⟩ := rfl
      _ = ⟨(encodeFields i).rsv, (encodeFields i).m, (encodeFields i).opc⟩ := by
        rw [hrsv, encodeFields_rsv, bit_eq_of_beq_one_eq hm, BitVec.eq_of_toNat_eq hopc]
  · rw [decode_reserved hrsv] at h
    cases h

theorem encode_of_decode {w : Word} {i : Instr} (h : decode w = .ok i) : encode i = w := by
  rw [encode, ← cmdFields_eq_of_decode h, cmdWord_cmdFields]

theorem decode_eq_ok_iff (w : Word) (i : Instr) : decode w = .ok i ↔ w = encode i :=
  ⟨fun h => (encode_of_decode h).symm, fun h => h ▸ decode_encode i⟩

/-- Settles O2: the fields cover the word, and the opcode map is inverse to the fields of a command. -/
theorem decodeAndEncodeAgree : Obligations.DecodeAndEncodeAgree :=
  ⟨fun i => ⟨(legalWord i).1, decode_encode i⟩, fun _ _ => encode_of_decode⟩

/-- Settles O1: the words that decode to a command are its encoding alone, and the ten rows list the encodings. -/
theorem legalWordsAreExactlyTheOpcodeMap : Obligations.LegalWordsAreExactlyTheOpcodeMap := by
  intro w i
  rw [decode_eq_ok_iff]
  cases i <;> simp [encode, cmdWord, encodeFields]

/-- Settles O4: the seven legal words are encodings of their commands; R63's three reasons refuse the other three. -/
theorem sampleWordsDecode : Obligations.SampleWordsDecode :=
  ⟨decode_encode .setBackendDma, decode_encode .initDec, decode_encode .updateExcl, decode_encode .updateIncl,
    decode_encode .aeadDec, decode_encode .release, decode_encode .genBlock, by decide, by decide,
    decode_reserved (by decide)⟩

/-! ## Illegal words (R63) -/

theorem opcodeMap_unknown {opc : Nat} (h : opc = 0 ∨ 8 ≤ opc) (m : Bool) : opcodeMap opc m = .illegal .opcode := by
  obtain rfl | h8 := h
  · cases m <;> rfl
  · obtain ⟨n, rfl⟩ := Nat.exists_eq_add_of_le' h8
    cases m <;> rfl

/-- Where the opcode map names no command: an unknown OPC, or M = 1 with an OPC that has no second form. -/
theorem opcodeMap_illegal_iff (opc : Nat) (m : Bool) : (∃ why, opcodeMap opc m = .illegal why) ↔
    (opc = 0 ∨ 8 ≤ opc) ∨ m = true ∧ opc ≠ 1 ∧ opc ≠ 2 ∧ opc ≠ 5 := by
  by_cases h : opc = 0 ∨ 8 ≤ opc
  · simp [opcodeMap_unknown h, h]
  · obtain ⟨hlo, hhi⟩ : 1 ≤ opc ∧ opc ≤ 7 := by omega
    interval_cases opc <;> cases m <;> simp [opcodeMap]

theorem decode_illegal_iff (w : Word) : (∃ why, decode w = .illegal why) ↔
    ((cmdFields w).opc = 0 ∨ 8 ≤ (cmdFields w).opc.toNat) ∨ (cmdFields w).rsv ≠ 0 ∨
      ((cmdFields w).m = 1 ∧ (cmdFields w).opc ≠ 1 ∧ (cmdFields w).opc ≠ 2 ∧ (cmdFields w).opc ≠ 5) := by
  by_cases hrsv : (cmdFields w).rsv = 0
  · rw [decode_of_rsv_zero hrsv, opcodeMap_illegal_iff]
    simp [hrsv, BitVec.toNat_eq]
  · exact iff_of_true ⟨_, decode_reserved hrsv⟩ (.inr (.inl hrsv))

theorem writeCmd_illegal {w : Word} (h : ∃ why, decode w = .illegal why) (s : State) :
    writeCmd w s = .next (raiseErr .illegalCommand s) := by
  obtain ⟨why, hw⟩ := h
  rw [writeCmd, hw]

/-- Settles O3: decoding refuses by RSV or by the opcode map, and a refused word only raises the error, whatever the
state. -/
theorem illegalWordsRaiseIllegalCommand : Obligations.IllegalWordsRaiseIllegalCommand := by
  refine ⟨decode_illegal_iff, fun s w h => ?_⟩
  rw [busWrite_cmd, writeCmd_illegal h, raiseErr_of_ne (by decide)]
  rfl

/-! ## The `wait` loop (R67, R120) -/

theorem hostWait_busy {s : State} (hj : s.job ≠ none) :
    hostWait s = .next { s with busData := statusWord s, inbox := .wait :: s.inbox } := by
  have hb : busy s = true := by rw [← Bool.not_eq_false, busy_eq_false]; exact hj
  simp only [hostWait, hb, if_true]

theorem hostWait_idle {s : State} (hj : s.job = none) : hostWait s = .next { s with busData := statusWord s } := by
  simp only [hostWait, (busy_eq_false s).2 hj, Bool.false_eq_true, if_false]

/-- Settles O48: the HOST's turn takes the loop out of the inbox, and a pass with BUSY = 1 puts it back. -/
theorem waitLoopPollsStatusUntilNotBusy : Obligations.WaitLoopPollsStatusUntilNotBusy := by
  intro s rest ts hts hin
  have hstep : step s = hostWait { s with turns := ts, inbox := rest } := by
    rw [step_host hts, hostTurn_cons (s := { s with turns := ts }) hin, hostOp]
  refine ⟨fun hj => ?_, fun hj => ?_⟩
  · rw [hstep, hostWait_busy (s := { s with turns := ts, inbox := rest }) hj, ← hin]
    rfl
  · rw [hstep, hostWait_idle (s := { s with turns := ts, inbox := rest }) hj]
    rfl

end Sys2Proof.Machine

namespace Sys2Proof.Machine

/-! ## The absorption of a piece and the clamp (R83 to R88) -/

/-- The output range of a piece holds its input XORed with the keystream (R77, R80). -/
theorem processPayload_outputBytes (ag : Agent) {p : PayloadArgs} {s : State} (hdis : DisjointOrInPlace p)
    (hdef : Definite s (inBuffer p)) : memBytes (processPayload ag p s).mem p.outPtr.toNat p.len.toNat =
      xorBytes (memBytes s.mem p.inPtr.toNat p.len.toNat) (keystream s.key s.nonce s.ctr p.len.toNat) := by
  refine List.ext_getElem? fun o => ?_
  obtain ho | ho := Nat.lt_or_ge o p.len.toNat
  · obtain ⟨hbyte, -⟩ := payloadBlocks_output ag _ _ _ _ s rfl hdis.clear hdef ho
    rw [xorBytes_piece_getElem _ _ _ _ _ ho, ← hbyte]
    simp [memBytes, processPayload, ho]
  · simp [memBytes, xorBytes, ho]

/-- Settles O34: the ciphertext of the piece is what the output range holds, or what the input range held. -/
theorem payloadAbsorbsTheCiphertextOnce : Obligations.PayloadAbsorbsTheCiphertextOnce := by
  intro ag p s _ _ hdis hdef
  rw [processPayload_acc ag hdis hdef, processPayload_outputBytes ag hdis hdef]
  unfold pieceCiphertext
  cases s.dir <;> rfl

/-- Settles O35: the law of two pieces, by induction on the blocks of the first. -/
theorem absorptionSplitsAtBlockBoundaries : Obligations.AbsorptionSplitsAtBlockBoundaries :=
  fun r acc _ e h => polyAbsorbPadded_append r acc e h

/-- The clamp mask is 0 in the top four bits of bytes 3, 7, 11 and 15 and the bottom two of bytes 4, 8 and 12 (R83). -/
theorem clampMask_getLsbD : ∀ i < 128, clampMask.getLsbD i =
    !((i / 8 % 4 == 3 && decide (4 ≤ i % 8)) || (decide (4 ≤ i / 8) && i / 8 % 4 == 0 && decide (i % 8 < 2))) := by
  decide

/-- R before the clamp is the first half of the block at counter 0 (R82). -/
theorem oneTimeKey_firstHalf (key : BitVec 256) (nonce : BitVec 96) :
    (oneTimeKey key nonce).take 16 = (chachaBlock key 0 nonce).take 16 := by
  rw [oneTimeKey, List.take_take]
  rfl

/-- Settles O36: each bit is that of r where the mask has a one, and the mask itself is below 2^124. -/
theorem clampClearsTheNamedBits : Obligations.ClampClearsTheNamedBits := by
  intro key nonce
  rw [polyKeyR, oneTimeKey_firstHalf]
  refine ⟨fun i hi => ?_, ?_⟩
  · rw [BitVec.getLsbD_and, clampMask_getLsbD i hi, Bool.and_comm]
  · rw [BitVec.toNat_and]
    exact Nat.lt_of_le_of_lt Nat.and_le_right (by decide)

/-! ## An accepted AEAD in the CPU backend (R104) -/

/-- While a job is in flight no command ends with ERR = OK (R94 step 2). -/
theorem idle_of_exec_ok {i : Instr} {s t : State} (h : exec i s = .next t) (hok : t.err = .ok) : s.job = none := by
  obtain ⟨e, hne, -, rfl⟩ | ⟨hj, -⟩ | ⟨hj, -⟩ | ⟨hj, -⟩ | ⟨hj, -⟩ := exec_cases h
  · rw [raiseErr_eq] at hok
    exact absurd hok hne
  iterate 4 · exact hj

/-- What the snapshot of AEAD takes from the ARGs (R61). -/
theorem aeadArgs_eq_some {s : State} {q : InitArgs × PayloadArgs × Word} (h : aeadArgs s = some q) :
    NamedHeld s 11 ∧ q = (initOperands s, aeadOperands s, s.args[10]) := by
  unfold aeadArgs at h
  split at h
  · exact ⟨(argsNamedHeld_iff s 11).1 ‹_›, (Option.some.inj h).symm⟩
  · cases h

theorem AeadPasses.of_checks {s : State} (hj : s.job = none) (hh : NamedHeld s 11)
    (h : aeadError s (initOperands s) (aeadOperands s) s.args[10] = none) : AeadPasses s := by
  simp only [aeadError, check_eq_none] at h
  obtain ⟨hmay, hkey, haad, hnull, htag, hcap, -⟩ := h
  have hbegin : mayBegin s = true := by simpa using hmay
  have hroom : aeadCapacity (initOperands s).initCtr (blocksOf (aeadOperands s).len.toNat) = true := by
    simpa using hcap
  have hpayload : payloadNull (aeadOperands s) = false := by simpa using hnull
  exact ⟨hj, hh, (mayBegin_iff s).1 hbegin, hkey, fun hlen hptr => haad ⟨hlen, hptr⟩,
    (payloadNull_eq_false _).1 hpayload, htag, of_decide_eq_true hroom⟩

/-- The state that an accepted AEAD leaves in the CPU backend (R104). -/
def aeadRun (m : Dir) (s : State) : State :=
  finishSession .engine s.args[10] (processPayload .engine (aeadOperands s) (aeadLoaded m s))

/-- An AEAD that ends with ERR = OK has passed its checks and its refusals, and has performed its body (R94, R104). -/
theorem exec_aead_ok {im : Instr × Dir} (him : im ∈ [(Instr.aeadEnc, Dir.encrypt), (Instr.aeadDec, Dir.decrypt)])
    {s t : State} (hcpu : s.backend = .cpu) (h : exec im.1 s = .next t) (hok : t.err = .ok) :
    AeadPasses s ∧
    (∀ r ∈ [keyBuffer s.args[0], aadBuffer (initOperands s), inBuffer (aeadOperands s), outBuffer (aeadOperands s),
      tagBuffer s.args[10]], Usable s r) ∧
    DisjointOrInPlace (aeadOperands s) ∧ t = aeadRun im.2 s := by
  obtain ⟨hissuer, hissues⟩ : im.1 ∈ [Instr.initEnc, .initDec, .updateExcl, .updateIncl, .aeadEnc, .aeadDec] ∧
      issuedBy im.1 s = (aeadArgs s).map fun q => (.aead im.2 q.1 q.2.1 q.2.2, aeadError s q.1 q.2.1 q.2.2) := by
    simp only [List.mem_cons, List.not_mem_nil, or_false] at him
    obtain rfl | rfl := him <;> exact ⟨by decide, rfl⟩
  obtain ⟨c, hissued, hrefusal, hlaunch⟩ := exec_ok_issued hissuer h hok
  rw [hissues, Option.map_eq_some_iff] at hissued
  obtain ⟨q, hq, hc⟩ := hissued
  obtain ⟨hheld, rfl⟩ := aeadArgs_eq_some hq
  obtain ⟨rfl, herr⟩ := Prod.mk.inj hc
  obtain ⟨hnameable, hbacked, hdis⟩ := (bufferRefusal_eq_none _ _ _ _).1 hrefusal
  rw [accessedWithin_eq, if_pos hcpu] at hbacked
  refine ⟨.of_checks (idle_of_exec_ok h hok) hheld herr,
    fun r hr => ⟨(hnameable r hr).1, (hnameable r hr).2, hbacked r hr⟩, hdis _ rfl, ?_⟩
  obtain ⟨-, -, rfl⟩ | ⟨hdma, -⟩ := launch_cases hlaunch
  · rw [acceptPart_aead_cpu hcpu]
    rfl
  · simp [hcpu] at hdma

/-! ## The commands of a session as runs on the state (R101 to R103) -/

/-- The run of INIT in the CPU backend, up to the STATE it sets that of AEAD before the payload (R101). -/
theorem exec_init_cpu {im : Instr × Dir} (him : im ∈ [(Instr.initEnc, Dir.encrypt), (Instr.initDec, Dir.decrypt)])
    {s : State} (h : InitPasses s) (hcpu : s.backend = .cpu) (hkey : Usable s (keyBuffer s.args[0]))
    (haad : Usable s (aadBuffer (initOperands s))) :
    exec im.1 s = .next { aeadLoaded im.2 s with session := .aadDone } := by
  have hload := acceptPart_init_cpu hcpu im.2 (initOperands s)
  rw [exec_init him, h.command, issue_cpu hcpu, hload]
  · rfl
  · exact List.forall_mem_cons.2 ⟨hkey, List.forall_mem_singleton.2 haad⟩
  · exact fun q hq => by cases hq
  · simp [hload]

/-- A piece that an update in the state may process: its pointers and ranges (R44 to R49), and the counter (R97). -/
structure PieceReady (s : State) (p : PayloadArgs) : Prop where
  pointers : p.len ≠ 0 → p.inPtr ≠ 0 ∧ p.outPtr ≠ 0
  input    : Usable s (inBuffer p)
  output   : Usable s (outBuffer p)
  clear    : DisjointOrInPlace p
  room     : p.len ≠ 0 → s.ctrExh = false ∧ s.ctr.toNat + blocksOf p.len.toNat ≤ 2 ^ 32

/-- A state in which a session goes on, idle in the CPU backend and without an error. -/
structure SessionOpen (s : State) : Prop where
  idle  : s.job = none
  cpu   : s.backend = .cpu
  held  : s.ctxHeld = true
  noErr : s.err = .ok

/-- The state with another STATE and other ARGs: where the HOST has written ARGs between two commands of a session. -/
def withStateArgs (x : SessState) (vs : Vector Word 16) (hs : Vector Bool 16) (s : State) : State :=
  { s with session := x, args := vs, argsHeld := hs }

theorem eq_withStateArgs {x : SessState} {s : State} (h : s.session = x) (vs : Vector Word 16) (hs : Vector Bool 16) :
    s = { withStateArgs x vs hs s with args := s.args, argsHeld := s.argsHeld } := by
  subst h
  rfl

section withStateArgs
variable (x : SessState) (vs : Vector Word 16) (hs : Vector Bool 16)

theorem storeBytes_withStateArgs (a : Nat) (bs : List Byte) (s : State) :
    storeBytes a bs (withStateArgs x vs hs s) = withStateArgs x vs hs (storeBytes a bs s) := by
  unfold storeBytes; split <;> rfl

theorem logAccess_withStateArgs (ag : Agent) (k : AccessKind) (a n : Nat) (s : State) :
    logAccess ag k a n (withStateArgs x vs hs s) = withStateArgs x vs hs (logAccess ag k a n s) := by
  unfold logAccess; split <;> rfl

theorem engineWrite_withStateArgs (ag : Agent) (a : Nat) (bs : List Byte) (s : State) :
    engineWrite ag a bs (withStateArgs x vs hs s) = withStateArgs x vs hs (engineWrite ag a bs s) := by
  rw [engineWrite, logAccess_withStateArgs, storeBytes_withStateArgs]
  rfl

theorem payloadBlock_withStateArgs (ag : Agent) (inA outA k : Nat) (s : State) :
    payloadBlock ag inA outA k (withStateArgs x vs hs s) = withStateArgs x vs hs (payloadBlock ag inA outA k s) := by
  have hread : afterRead ag inA k (withStateArgs x vs hs s) = withStateArgs x vs hs (afterRead ag inA k s) :=
    congrArg (draw k) (logAccess_withStateArgs x vs hs ag .read inA k s)
  rw [payloadBlock, hread]
  exact congrArg (countBlock k) (engineWrite_withStateArgs x vs hs ag outA _ (absorb _ (afterRead ag inA k s)))

theorem payloadBlocks_withStateArgs (ag : Agent) (n inA outA len : Nat) (s : State) :
    payloadBlocks ag n inA outA len (withStateArgs x vs hs s) =
      withStateArgs x vs hs (payloadBlocks ag n inA outA len s) := by
  induction n generalizing inA outA len s with
  | zero => rfl
  | succ n ih => rw [payloadBlocks, payloadBlock_withStateArgs, ih, payloadBlocks]

/-- The payload procedure neither reads nor writes STATE and the ARGs. -/
theorem processPayload_withStateArgs (ag : Agent) (p : PayloadArgs) (s : State) :
    processPayload ag p (withStateArgs x vs hs s) = withStateArgs x vs hs (processPayload ag p s) :=
  payloadBlocks_withStateArgs ..

/-- The finalisation reads neither, and sets STATE. -/
theorem finishSession_withStateArgs (ag : Agent) (tp : Word) (s : State) :
    finishSession ag tp (withStateArgs x vs hs s) = withStateArgs .finalized vs hs (finishSession ag tp s) := by
  have hwrite := engineWrite_withStateArgs x vs hs ag tp.toNat (tagBytes (finalTag s)) (finishAcc s)
  exact congrArg (fun u : State => releaseChannels { writeTag (finalTag s) u with session := .finalized }) hwrite

end withStateArgs

/-- The state once the HOST has written the operands of a piece to ARG0 .. ARG2 (R61). -/
def writePiece (p : PayloadArgs) (s : State) : State :=
  writeArg 2 p.len (writeArg 1 p.outPtr (writeArg 0 p.inPtr s))

theorem writePiece_operands (p : PayloadArgs) (s : State) : updateOperands (writePiece p s) = p := by
  simp [updateOperands, writePiece, writeArg]

theorem writePiece_held (p : PayloadArgs) (s : State) : NamedHeld (writePiece p s) 3 := by
  intro i hi
  have hcases : i = 0 ∨ i = 1 ∨ i = 2 := by omega
  obtain rfl | rfl | rfl := hcases <;> simp [writePiece, writeArg]

theorem writeTagPtr_operands (tp : Word) (p : PayloadArgs) (s : State) :
    updateOperands (writeArg 3 tp (writePiece p s)) = p ∧ (writeArg 3 tp (writePiece p s)).args[3] = tp := by
  simp [updateOperands, writePiece, writeArg]

theorem writeTagPtr_held (tp : Word) (p : PayloadArgs) (s : State) :
    NamedHeld (writeArg 3 tp (writePiece p s)) 4 := by
  intro i hi
  have hcases : i = 0 ∨ i = 1 ∨ i = 2 ∨ i = 3 := by omega
  obtain rfl | rfl | rfl | rfl := hcases <;> simp [writePiece, writeArg]

/-- The run of UPDATE_EXCL in the CPU backend on a ready piece of whole blocks (R102). -/
theorem exec_updateExcl_cpu {s : State} {p : PayloadArgs} (hargs : updateOperands s = p) (hh : NamedHeld s 3)
    (hs : s.session = .aadDone ∨ s.session = .payloadStreaming) (ho : SessionOpen s) (hp : PieceReady s p)
    (hw : p.len.toNat % 64 = 0) :
    exec .updateExcl s = .next { processPayload .engine p s with session := .payloadStreaming } := by
  subst hargs
  have hpass : UpdateExclPasses s := ⟨ho.idle, hh, hs, hp.pointers, hw, by
    have hroom := hp.room
    rwa [← blocksOf_whole hw] at hroom⟩
  have hacc : acceptPart (.updateExcl (updateOperands s)) s = s := (acceptPart_update rfl).trans (setErr_self ho.noErr)
  refine hpass.command.trans ((issue_cpu ho.cpu ?_ ?_ (hacc.symm ▸ ho.held)).trans ?_)
  · exact List.forall_mem_cons.2 ⟨hp.input, List.forall_mem_singleton.2 hp.output⟩
  · exact fun q hq => by cases hq; exact hp.clear
  · rw [hacc]
    rfl

/-- The run of UPDATE_INCL in the CPU backend on a ready piece (R103). -/
theorem exec_updateIncl_cpu {s : State} {p : PayloadArgs} {tp : Word} (hargs : updateOperands s = p)
    (htag : s.args[3] = tp) (hh : NamedHeld s 4) (hs : s.session = .aadDone ∨ s.session = .payloadStreaming)
    (ho : SessionOpen s) (hp : PieceReady s p) (htp : tp ≠ 0) (hut : Usable s (tagBuffer tp)) :
    exec .updateIncl s = .next (finishSession .engine tp (processPayload .engine p s)) := by
  subst hargs htag
  have hpass : UpdateInclPasses s := ⟨ho.idle, hh, hs, hp.pointers, htp, hp.room⟩
  have hacc : acceptPart (.updateIncl (updateOperands s) s.args[3]) s = s :=
    (acceptPart_update rfl).trans (setErr_self ho.noErr)
  refine hpass.command.trans ((issue_cpu ho.cpu ?_ ?_ (hacc.symm ▸ ho.held)).trans ?_)
  · exact List.forall_mem_cons.2 ⟨hp.input, List.forall_mem_cons.2 ⟨hp.output, List.forall_mem_singleton.2 hut⟩⟩
  · exact fun q hq => by cases hq; exact hp.clear
  · rw [hacc]
    rfl

theorem PieceReady.withStateArgs {s : State} {p : PayloadArgs} (h : PieceReady s p) (x : SessState)
    (vs : Vector Word 16) (hs : Vector Bool 16) : PieceReady (withStateArgs x vs hs s) p :=
  ⟨h.pointers, h.input, h.output, h.clear, h.room⟩

theorem SessionOpen.withStateArgs {s : State} (h : SessionOpen s) (x : SessState) (vs : Vector Word 16)
    (hs : Vector Bool 16) : SessionOpen (withStateArgs x vs hs s) :=
  ⟨h.idle, h.cpu, h.held, h.noErr⟩

/-- With a piece's operands written to the ARGs, UPDATE_EXCL runs the payload procedure and sets STATE (R102). -/
theorem exec_updateExcl_piece {s : State} {p : PayloadArgs} {x : SessState}
    (hx : x = .aadDone ∨ x = .payloadStreaming) (ho : SessionOpen s) (hp : PieceReady s p) (hw : p.len.toNat % 64 = 0)
    (vs : Vector Word 16) (hs : Vector Bool 16) : ∃ vs' hs', exec .updateExcl (writePiece p (withStateArgs x vs hs s)) =
      .next (withStateArgs .payloadStreaming vs' hs' (processPayload .engine p s)) := by
  obtain ⟨vs', hs', hargs⟩ : ∃ vs' hs', writePiece p (withStateArgs x vs hs s) = withStateArgs x vs' hs' s :=
    ⟨_, _, rfl⟩
  have hheld := writePiece_held p (withStateArgs x vs hs s)
  have hops := writePiece_operands p (withStateArgs x vs hs s)
  rw [hargs] at hheld hops ⊢
  rw [exec_updateExcl_cpu hops hheld hx (ho.withStateArgs x vs' hs') (hp.withStateArgs x vs' hs') hw,
    processPayload_withStateArgs]
  exact ⟨vs', hs', rfl⟩

/-- With the tag pointer written as well, UPDATE_INCL runs the payload procedure and finishes the session (R103). -/
theorem exec_updateIncl_piece {s : State} {p : PayloadArgs} {tp : Word} {x : SessState}
    (hx : x = .aadDone ∨ x = .payloadStreaming) (ho : SessionOpen s) (hp : PieceReady s p) (htp : tp ≠ 0)
    (hut : Usable s (tagBuffer tp)) (vs : Vector Word 16) (hs : Vector Bool 16) : ∃ vs' hs',
      exec .updateIncl (writeArg 3 tp (writePiece p (withStateArgs x vs hs s))) =
        .next (withStateArgs .finalized vs' hs' (finishSession .engine tp (processPayload .engine p s))) := by
  obtain ⟨vs', hs', hargs⟩ : ∃ vs' hs',
      writeArg 3 tp (writePiece p (withStateArgs x vs hs s)) = withStateArgs x vs' hs' s := ⟨_, _, rfl⟩
  have hheld := writeTagPtr_held tp p (withStateArgs x vs hs s)
  obtain ⟨hops, htag⟩ := writeTagPtr_operands tp p (withStateArgs x vs hs s)
  rw [hargs] at hheld hops htag ⊢
  rw [exec_updateIncl_cpu hops htag hheld hx (ho.withStateArgs x vs' hs') (hp.withStateArgs x vs' hs') htp hut,
    processPayload_withStateArgs, finishSession_withStateArgs]
  exact ⟨vs', hs', rfl⟩

/-! ## A payload in two pieces, the first of whole blocks (R87, R105) -/

/-- The first `j` blocks of a payload. -/
def firstBlocks (j : Nat) (p : PayloadArgs) : PayloadArgs := { p with len := BitVec.ofNat 32 (64 * j) }

/-- What is left of a payload after its first `j` blocks. -/
def afterBlocks (j : Nat) (p : PayloadArgs) : PayloadArgs :=
  { inPtr := p.inPtr + BitVec.ofNat 32 (64 * j), outPtr := p.outPtr + BitVec.ofNat 32 (64 * j),
    len := p.len - BitVec.ofNat 32 (64 * j) }

section pieces
variable {j : Nat} {p : PayloadArgs} {s : State}

theorem firstBlocks_len (hj : 64 * j ≤ p.len.toNat) : (firstBlocks j p).len.toNat = 64 * j := by
  have hlt : 64 * j < 2 ^ 32 := by omega
  rw [firstBlocks, BitVec.toNat_ofNat, Nat.mod_eq_of_lt hlt]

theorem afterBlocks_len (hj : 64 * j ≤ p.len.toNat) : (afterBlocks j p).len.toNat = p.len.toNat - 64 * j := by
  have hoff : (BitVec.ofNat 32 (64 * j)).toNat = 64 * j := firstBlocks_len hj
  rw [afterBlocks, BitVec.toNat_sub_of_le (BitVec.le_def.2 (hoff.symm ▸ hj)), hoff]

/-- In a buffer that does not wrap, an address inside it is its base plus the offset (R46). -/
theorem toNat_add_ofNat_of_fits {a : Word} {n k : Nat} (hf : Fits (buffer a n)) (hk : k < n) :
    (a + BitVec.ofNat 32 k).toNat = a.toNat + k := by
  simp only [Fits, buffer] at hf
  have hk32 : k < 2 ^ 32 := by omega
  rw [BitVec.toNat_add, BitVec.toNat_ofNat, Nat.mod_eq_of_lt hk32, Nat.mod_eq_of_lt (by omega)]

/-- A range inside a usable one is usable. -/
theorem Usable.sub {r q : Region} (h : Usable s r) (hsub : ∀ a, InRegion q a → InRegion r a) : Usable s q := by
  obtain ⟨hfits, hdevices, hbacked⟩ := h
  refine ⟨?_, fun a ha => hdevices a (hsub a ha), fun a ha => hbacked a (hsub a ha)⟩
  by_cases hempty : q.size = 0
  · exact .inl hempty
  · have hlast := hsub (q.base + q.size - 1) ⟨by omega, by omega⟩
    simp only [InRegion, Fits] at hlast hfits ⊢
    omega

theorem Usable.firstBytes {a : Word} {n k : Nat} (h : Usable s (buffer a n)) (hk : k ≤ n) : Usable s (buffer a k) :=
  h.sub fun x hx => by simp only [InRegion, buffer] at hx ⊢; omega

theorem Usable.bytesAfter {a : Word} {n k : Nat} (h : Usable s (buffer a n)) :
    Usable s (buffer (a + BitVec.ofNat 32 k) (n - k)) := by
  refine h.sub fun x hx => ?_
  have hfits := h.1
  simp only [InRegion, buffer] at hx ⊢
  rw [toNat_add_ofNat_of_fits hfits (by omega)] at hx
  omega

theorem blocksOf_firstBlocks (hj : 64 * j ≤ p.len.toNat) : blocksOf (firstBlocks j p).len.toNat = j := by
  rw [firstBlocks_len hj, blocksOf]
  omega

theorem blocksOf_afterBlocks (hj : 64 * j ≤ p.len.toNat) :
    blocksOf p.len.toNat = j + blocksOf (afterBlocks j p).len.toNat := by
  rw [afterBlocks_len hj, blocksOf, blocksOf]
  omega

theorem word_ne_zero_iff (w : Word) : w ≠ 0 ↔ 0 < w.toNat := by
  rw [Nat.pos_iff_ne_zero, Ne, Ne, ← BitVec.toNat_inj]
  rfl

theorem PieceReady.first (h : PieceReady s p) (hj : 64 * j ≤ p.len.toNat) :
    PieceReady s (firstBlocks j p) := by
  have hlen := firstBlocks_len hj
  have hne : (firstBlocks j p).len ≠ 0 → p.len ≠ 0 := by
    simp only [word_ne_zero_iff, hlen]
    omega
  refine ⟨fun hl => h.pointers (hne hl), ?_, ?_, ?_, fun hl => ?_⟩
  · rw [inBuffer, hlen]
    exact h.input.firstBytes hj
  · rw [outBuffer, hlen]
    exact h.output.firstBytes hj
  · have hclear := h.clear
    rw [DisjointOrInPlace, hlen]
    exact hclear.imp_right fun hd => by simp only [firstBlocks]; omega
  · obtain ⟨hexh, hctr⟩ := h.room (hne hl)
    rw [blocksOf_firstBlocks hj]
    rw [blocksOf_afterBlocks hj] at hctr
    exact ⟨hexh, by omega⟩

/-- Where bytes are left, their addresses are those of the payload plus the offset. -/
theorem afterBlocks_pointers (h : PieceReady s p) (hl : 64 * j < p.len.toNat) :
    (afterBlocks j p).inPtr.toNat = p.inPtr.toNat + 64 * j ∧
    (afterBlocks j p).outPtr.toNat = p.outPtr.toNat + 64 * j :=
  ⟨toNat_add_ofNat_of_fits h.input.1 hl, toNat_add_ofNat_of_fits h.output.1 hl⟩

/-- After the first blocks the rest is ready: the counter has gone up by their number (R97). -/
theorem PieceReady.after (ag : Agent) (h : PieceReady s p) (hj : 64 * j ≤ p.len.toNat) :
    PieceReady (processPayload ag (firstBlocks j p) s) (afterBlocks j p) := by
  have hlen := afterBlocks_len hj
  have hrest : (afterBlocks j p).len ≠ 0 → 64 * j < p.len.toNat := by
    rw [word_ne_zero_iff, hlen]
    omega
  have husable : ∀ r, Usable s r → Usable (processPayload ag (firstBlocks j p) s) r := fun r hr => by
    simpa [Usable] using hr
  refine ⟨fun hl => ?_, husable _ ?_, husable _ ?_, ?_, fun hl => ?_⟩
  · have hmore := hrest hl
    obtain ⟨hin, hout⟩ := afterBlocks_pointers h hmore
    have hptr := h.pointers ((word_ne_zero_iff _).2 (by omega))
    simp only [word_ne_zero_iff] at hptr ⊢
    omega
  · rw [inBuffer, hlen]
    exact h.input.bytesAfter
  · rw [outBuffer, hlen]
    exact h.output.bytesAfter
  · have hclear := h.clear
    refine hclear.imp (fun hsame => congrArg (· + BitVec.ofNat 32 (64 * j)) hsame) fun hd => ?_
    rw [hlen]
    obtain hmore | hend := Nat.lt_or_ge (64 * j) p.len.toNat
    · obtain ⟨hin, hout⟩ := afterBlocks_pointers h hmore
      omega
    · omega
  · have hmore := hrest hl
    obtain ⟨hexh, hctr⟩ := h.room ((word_ne_zero_iff _).2 (by omega))
    have hpos : blocksOf (afterBlocks j p).len.toNat ≠ 0 := by
      rw [Ne, blocksOf_eq_zero, hlen]
      omega
    rw [blocksOf_afterBlocks hj] at hctr
    have hroom : s.ctr.toNat + blocksOf (firstBlocks j p).len.toNat < 2 ^ 32 := by
      rw [blocksOf_firstBlocks hj]
      omega
    refine ⟨?_, ?_⟩
    · rw [← Bool.not_eq_true, processPayload_ctrExh ag (Nat.le_of_lt hroom), hexh]
      simp only [Bool.false_eq_true, false_or, not_and]
      omega
    · rw [blocksOf_firstBlocks hj] at hroom
      have hj32 : j < 2 ^ 32 := by omega
      rw [processPayload_ctr, blocksOf_firstBlocks hj, BitVec.toNat_add, BitVec.toNat_ofNat, Nat.mod_eq_of_lt hj32,
        Nat.mod_eq_of_lt hroom]
      omega

/-- Whole blocks do not depend on how many bytes come after them. -/
theorem payloadBlocks_whole (ag : Agent) (n inA outA : Nat) {len len' : Nat} (s : State) (h : 64 * n ≤ len)
    (h' : 64 * n ≤ len') : payloadBlocks ag n inA outA len s = payloadBlocks ag n inA outA len' s := by
  induction n generalizing inA outA len len' s with
  | zero => rfl
  | succ n ih =>
    rw [payloadBlocks, payloadBlocks, Nat.min_eq_left (by omega), Nat.min_eq_left (by omega)]
    exact ih _ _ _ (by omega) (by omega)

/-- The first blocks of a payload and then the rest are the payload (R105). -/
theorem processPayload_pieces (ag : Agent) (h : PieceReady s p) (hj : 64 * j ≤ p.len.toNat) :
    processPayload ag (afterBlocks j p) (processPayload ag (firstBlocks j p) s) = processPayload ag p s := by
  have hfirst : processPayload ag (firstBlocks j p) s =
      payloadBlocks ag j p.inPtr.toNat p.outPtr.toNat p.len.toNat s := by
    rw [processPayload, blocksOf_firstBlocks hj, firstBlocks_len hj]
    exact payloadBlocks_whole ag j _ _ s (Nat.le_refl _) hj
  rw [hfirst, processPayload, processPayload, blocksOf_afterBlocks hj, payloadBlocks_add, afterBlocks_len hj]
  obtain hmore | hend := Nat.lt_or_ge (64 * j) p.len.toNat
  · obtain ⟨hin, hout⟩ := afterBlocks_pointers h hmore
    rw [hin, hout]
  · have hnone : blocksOf (p.len.toNat - 64 * j) = 0 := by
      rw [blocksOf_eq_zero]
      omega
    rw [hnone]
    rfl

end pieces

/-! ## AEAD as INIT, UPDATE_EXCL and UPDATE_INCL (R105) -/

theorem NamedHeld.mono {s : State} {m n : Nat} (h : NamedHeld s n) (hm : m ≤ n) : NamedHeld s m :=
  fun i hi => h i (by omega)

theorem AeadPasses.init {s : State} (h : AeadPasses s) : InitPasses s :=
  ⟨h.idle, h.held.mono (by decide), h.begins, h.key, h.aad⟩

theorem aeadLoaded_usable {s : State} {r : Region} (m : Dir) (h : Usable s r) : Usable (aeadLoaded m s) r := by
  simpa [Usable, aeadLoaded] using h

/-- The payload of an accepted AEAD is a ready piece of the session that it has loaded. -/
theorem AeadPasses.ready {s : State} (h : AeadPasses s) (m : Dir) (hin : Usable s (inBuffer (aeadOperands s)))
    (hout : Usable s (outBuffer (aeadOperands s))) (hdis : DisjointOrInPlace (aeadOperands s)) :
    PieceReady (aeadLoaded m s) (aeadOperands s) where
  pointers := h.payload
  input := aeadLoaded_usable m hin
  output := aeadLoaded_usable m hout
  clear := hdis
  room := fun _ => ⟨by simp, by rw [aeadLoaded_ctr]; exact h.room⟩

theorem aeadLoaded_open {s : State} (m : Dir) (hj : s.job = none) (hcpu : s.backend = .cpu) :
    SessionOpen (aeadLoaded m s) :=
  ⟨by simpa using hj, by simpa [aeadLoaded] using hcpu, by simp [aeadLoaded], by simp⟩

theorem SessionOpen.processPayload {s : State} (h : SessionOpen s) (ag : Agent) (p : PayloadArgs) :
    SessionOpen (processPayload ag p s) := by
  obtain ⟨hj, hcpu, hc, he⟩ := h
  exact ⟨by simpa using hj, by simpa using hcpu, by simpa using hc, by simpa using he⟩

/-- Settles O58: the two pieces run the payload procedure on the whole payload, and STATE and the ARGs, in which the
runs differ between the commands, are neither read nor kept by it. -/
theorem aeadEqualsTheStreamedSequence : Obligations.AeadEqualsTheStreamedSequence := by
  intro s t j ie hie hcpu hexec hok hj
  obtain ⟨m, haead, hinit⟩ : ∃ m, (ie.1, m) ∈ [(Instr.aeadEnc, Dir.encrypt), (Instr.aeadDec, Dir.decrypt)] ∧
      (ie.2, m) ∈ [(Instr.initEnc, Dir.encrypt), (Instr.initDec, Dir.decrypt)] := by
    simp only [List.mem_cons, List.not_mem_nil, or_false] at hie
    obtain rfl | rfl := hie
    · exact ⟨.encrypt, by decide⟩
    · exact ⟨.decrypt, by decide⟩
  obtain ⟨hpass, husable, hdis, rfl⟩ := exec_aead_ok haead hcpu hexec hok
  simp only [List.forall_mem_cons] at husable
  obtain ⟨hkey, haad, hin, hout, htag, -⟩ := husable
  have hready := hpass.ready m hin hout hdis
  have hopen := aeadLoaded_open m hpass.idle hcpu
  obtain ⟨vs, hs, hexcl⟩ := exec_updateExcl_piece (.inl rfl) hopen (hready.first hj)
    (by rw [firstBlocks_len hj, Nat.mul_mod_right]) (aeadLoaded m s).args (aeadLoaded m s).argsHeld
  obtain ⟨vs', hs', hincl⟩ := exec_updateIncl_piece (.inr rfl) (hopen.processPayload .engine _)
    (hready.after .engine hj) hpass.tag (tp := s.args[10]) (by simpa [Usable] using aeadLoaded_usable m htag) vs hs
  rw [processPayload_pieces .engine hready hj] at hincl
  exact ⟨_, _, _, exec_init_cpu hinit hpass.init hcpu hkey haad, hexcl, hincl, eq_withStateArgs rfl vs' hs'⟩

/-! ## AEAD there and back (R88, R98, R104, R110) -/

theorem Apart.symm {r q : Region} (h : Apart r q) : Apart q r := fun a ha => h a ha.symm

/-- A range that keeps clear of what has changed reads as before, and still holds values. -/
theorem MemSameOutside.keeps {rs : List Region} {s t : State} {r : Region} (h : MemSameOutside rs s t)
    (hr : ∀ q ∈ rs, Apart r q) :
    memBytes t.mem r.base r.size = memBytes s.mem r.base r.size ∧ (Definite s r → Definite t r) := by
  have hsame : ∀ a, InRegion r a → SameByte s t a := fun a ha => h a fun q hq hqa => hr q hq a ⟨ha, hqa⟩
  exact ⟨memBytes_congr fun a h1 h2 => (hsame a ⟨h1, h2⟩).1,
    fun hdef a ha hany => hdef a ha ((hsame a ha).2.1 hany)⟩

/-- XOR with the same string of the same length twice gives the first string back (R88). -/
theorem xorBytes_cancel {a b : List Byte} (h : a.length = b.length) : xorBytes (xorBytes a b) b = a := by
  refine List.ext_getElem (by simp [xorBytes, h]) fun i h1 h2 => ?_
  simp [xorBytes]

/-- A key whose bytes hold values is what memory holds. -/
theorem keyAt_definite {s : State} {a : Word} (h : Definite s (keyBuffer a)) :
    keyAt s a = BitVec.ofNat 256 (leNat (memBytes s.mem a.toNat 32)) :=
  congrArg (fun bs => BitVec.ofNat 256 (leNat bs)) (bytesAt_definite h)

/-- AEAD changes no byte outside its output and tag ranges. -/
theorem aeadRun_outside (m : Dir) (s : State) :
    MemSameOutside [outBuffer (aeadOperands s), tagBuffer s.args[10]] s (aeadRun m s) := by
  have hload : MemSameOutside [outBuffer (aeadOperands s), tagBuffer s.args[10]] s (aeadLoaded m s) :=
    .of_mem_eq (by simp) (by simp)
  exact (hload.trans ((processPayload_outside .engine _ _).mono (by simp))).trans
    ((finishSession_outside .engine _ _).mono (by simp))

/-- What AEAD leaves in an output range clear of the tag: the input XORed with the keystream (R98, R104). -/
theorem aeadRun_output (m : Dir) {s : State} (hdis : DisjointOrInPlace (aeadOperands s))
    (hdin : Definite s (inBuffer (aeadOperands s)))
    (htag : Apart (tagBuffer s.args[10]) (outBuffer (aeadOperands s))) :
    memBytes (aeadRun m s).mem s.args[8].toNat s.args[9].toNat =
      xorBytes (memBytes s.mem s.args[7].toNat s.args[9].toNat)
        (keystream (aeadLoaded m s).key (aeadLoaded m s).nonce (aeadLoaded m s).ctr s.args[9].toNat) ∧
    Definite (aeadRun m s) (outBuffer (aeadOperands s)) := by
  have hin : Definite (aeadLoaded m s) (inBuffer (aeadOperands s)) := hdin.of_anyMem_eq (aeadLoaded_anyMem m s)
  obtain ⟨hbytes, hheld⟩ := (finishSession_outside .engine s.args[10]
    (processPayload .engine (aeadOperands s) (aeadLoaded m s))).keeps (List.forall_mem_singleton.2 htag.symm)
  have houtput := processPayload_outputBytes .engine hdis hin
  rw [aeadLoaded_mem] at houtput
  refine ⟨hbytes.trans houtput, hheld fun a ⟨h1, h2⟩ => ?_⟩
  obtain ⟨o, rfl⟩ := Nat.exists_eq_add_of_le h1
  exact (payloadBlocks_output .engine _ _ _ _ _ rfl hdis.clear hin
    (by simp only [outBuffer, buffer] at h2; omega)).2

/-- The session that AEAD loads is that of its key, nonce and init_ctr, whatever the direction (R99). -/
theorem aeadLoaded_congr {s v : State} (m m' : Dir) (hops : initOperands v = initOperands s)
    (hkey : keyAt v s.args[0] = keyAt s s.args[0]) :
    (aeadLoaded m v).key = (aeadLoaded m' s).key ∧ (aeadLoaded m v).nonce = (aeadLoaded m' s).nonce ∧
    (aeadLoaded m v).ctr = (aeadLoaded m' s).ctr := by
  simp only [initOperands, InitArgs.mk.injEq] at hops
  obtain ⟨h0, h1, h2, h3, -, -, h6⟩ := hops
  simp only [aeadLoaded_key, aeadLoaded_nonce, aeadLoaded_ctr, h0, h1, h2, h3, h6, hkey, and_self]

/-- The tag of AEAD is a function of the session loaded, the AAD, the ciphertext and the lengths (R86, R90). -/
theorem aead_finalTag_congr {s v : State} {m m' : Dir} (hdis : DisjointOrInPlace (aeadOperands s))
    (hdis' : DisjointOrInPlace (aeadOperands v)) (hdaad : Definite s (aadBuffer (initOperands s)))
    (hdaad' : Definite v (aadBuffer (initOperands v))) (hdin : Definite s (inBuffer (aeadOperands s)))
    (hdin' : Definite v (inBuffer (aeadOperands v))) (hops : initOperands v = initOperands s)
    (hlen : v.args[9] = s.args[9]) (hkey : keyAt v s.args[0] = keyAt s s.args[0])
    (haad : memBytes v.mem s.args[4].toNat s.args[5].toNat = memBytes s.mem s.args[4].toNat s.args[5].toNat)
    (hcipher : pieceCiphertext (aeadLoaded m' v) v.args[7].toNat v.args[9].toNat =
      pieceCiphertext (aeadLoaded m s) s.args[7].toNat s.args[9].toNat) :
    finalTag (processPayload .engine (aeadOperands v) (aeadLoaded m' v)) =
      finalTag (processPayload .engine (aeadOperands s) (aeadLoaded m s)) := by
  obtain ⟨hk, hn, -⟩ := aeadLoaded_congr m' m hops hkey
  have h4 : v.args[4] = s.args[4] := congrArg InitArgs.aadPtr hops
  have h5 : v.args[5] = s.args[5] := congrArg InitArgs.aadLen hops
  rw [aead_finalTag m' hdis' hdaad' hdin', aead_finalTag m hdis hdaad hdin, hcipher]
  simp only [aeadLoaded_polyR, aeadLoaded_polyS, hk, hn, h4, h5, hlen, haad]

/-- An AEAD whose key, AAD and input hold values, and whose output and tag ranges keep clear of key, AAD and one
another. -/
structure AeadApart (s : State) : Prop where
  clear   : DisjointOrInPlace (aeadOperands s)
  keyHeld : Definite s (keyBuffer s.args[0])
  aadHeld : Definite s (aadBuffer (initOperands s))
  inHeld  : Definite s (inBuffer (aeadOperands s))
  keyOut  : Apart (keyBuffer s.args[0]) (outBuffer (aeadOperands s))
  keyTag  : Apart (keyBuffer s.args[0]) (tagBuffer s.args[10])
  aadOut  : Apart (aadBuffer (initOperands s)) (outBuffer (aeadOperands s))
  aadTag  : Apart (aadBuffer (initOperands s)) (tagBuffer s.args[10])
  tagOut  : Apart (tagBuffer s.args[10]) (outBuffer (aeadOperands s))

/-- The key is as before after such an AEAD. -/
theorem AeadApart.key_kept {s : State} (h : AeadApart s) (m : Dir) :
    keyAt (aeadRun m s) s.args[0] = keyAt s s.args[0] := by
  obtain ⟨hbytes, hheld⟩ := (aeadRun_outside m s).keeps (r := keyBuffer s.args[0])
    (List.forall_mem_cons.2 ⟨h.keyOut, List.forall_mem_singleton.2 h.keyTag⟩)
  rw [keyAt_definite h.keyHeld, keyAt_definite (hheld h.keyHeld)]
  exact congrArg (fun bs => BitVec.ofNat 256 (leNat bs)) hbytes

/-- The AAD is as before after such an AEAD. -/
theorem AeadApart.aad_kept {s : State} (h : AeadApart s) (m : Dir) :
    memBytes (aeadRun m s).mem s.args[4].toNat s.args[5].toNat = memBytes s.mem s.args[4].toNat s.args[5].toNat ∧
    Definite (aeadRun m s) (aadBuffer (initOperands s)) := by
  obtain ⟨hbytes, hheld⟩ := (aeadRun_outside m s).keeps (r := aadBuffer (initOperands s))
    (List.forall_mem_cons.2 ⟨h.aadOut, List.forall_mem_singleton.2 h.aadTag⟩)
  exact ⟨hbytes, hheld h.aadHeld⟩

/-- The state `v` is the one an encryption from `s` has left, with ARGs that name the same session and, as the payload,
the ciphertext, to be decrypted to `back` (R110). -/
structure NamesCiphertext (back : Word) (s v : State) : Prop where
  rest     : v = { aeadRun .encrypt s with args := v.args, argsHeld := v.argsHeld }
  operands : initOperands v = initOperands s
  payload  : aeadOperands v = { inPtr := s.args[8], outPtr := back, len := s.args[9] }

section NamesCiphertext
variable {back : Word} {s v : State} (hv : NamesCiphertext back s v) (hs : AeadApart s)
include hv

theorem NamesCiphertext.args : v.args[7] = s.args[8] ∧ v.args[8] = back ∧ v.args[9] = s.args[9] := by
  simpa only [aeadOperands, PayloadArgs.mk.injEq] using hv.payload

theorem NamesCiphertext.mem : v.mem = (aeadRun .encrypt s).mem := (congrArg State.mem hv.rest :)

theorem NamesCiphertext.anyMem : v.anyMem = (aeadRun .encrypt s).anyMem :=
  (congrArg State.anyMem hv.rest :)

include hs

/-- The input of the decryption holds the ciphertext. -/
theorem NamesCiphertext.input :
    memBytes v.mem s.args[8].toNat s.args[9].toNat =
      pieceCiphertext (aeadLoaded .encrypt s) s.args[7].toNat s.args[9].toNat ∧
    Definite v (inBuffer (aeadOperands v)) := by
  obtain ⟨hbytes, hheld⟩ := aeadRun_output .encrypt hs.clear hs.inHeld hs.tagOut
  refine ⟨?_, ?_⟩
  · rw [hv.mem, hbytes, pieceCiphertext, aeadLoaded_dir, aeadLoaded_mem]
    rfl
  · rw [hv.payload]
    exact hheld.of_anyMem_eq hv.anyMem

theorem NamesCiphertext.key : keyAt v s.args[0] = keyAt s s.args[0] :=
  (congrArg (keyAt · s.args[0]) hv.rest).trans (hs.key_kept .encrypt)

/-- The decryption computes the tag of the encryption (R88, R90). -/
theorem NamesCiphertext.tag (hclear : DisjointOrInPlace (aeadOperands v)) :
    finalTag (processPayload .engine (aeadOperands v) (aeadLoaded .decrypt v)) =
      finalTag (processPayload .engine (aeadOperands s) (aeadLoaded .encrypt s)) := by
  obtain ⟨haad, haadHeld⟩ := hs.aad_kept .encrypt
  obtain ⟨hcipher, hinHeld⟩ := hv.input hs
  obtain ⟨h7, -, h9⟩ := hv.args
  refine aead_finalTag_congr hs.clear hclear hs.aadHeld ?_ hs.inHeld hinHeld hv.operands h9 (hv.key hs) ?_ ?_
  · rw [hv.operands]
    exact haadHeld.of_anyMem_eq hv.anyMem
  · rw [hv.mem, haad]
  · rw [pieceCiphertext, aeadLoaded_dir, aeadLoaded_mem, h7, h9, ← hcipher]
    rfl

/-- The decryption leaves the plaintext in its output range (R88, R98). -/
theorem NamesCiphertext.plaintext (hclear : DisjointOrInPlace (aeadOperands v))
    (htag : Apart (tagBuffer v.args[10]) (outBuffer (aeadOperands v))) :
    memBytes (aeadRun .decrypt v).mem back.toNat s.args[9].toNat = memBytes s.mem s.args[7].toNat s.args[9].toNat := by
  obtain ⟨hcipher, hinHeld⟩ := hv.input hs
  obtain ⟨h7, h8, h9⟩ := hv.args
  obtain ⟨houtput, -⟩ := aeadRun_output .decrypt hclear hinHeld htag
  obtain ⟨hk, hn, hc⟩ := aeadLoaded_congr .decrypt .encrypt hv.operands (hv.key hs)
  rw [h7, h8, h9, hcipher, hk, hn, hc, pieceCiphertext, aeadLoaded_dir, aeadLoaded_mem] at houtput
  exact houtput.trans (xorBytes_cancel (by simp [keystream]))

end NamesCiphertext

/-- Writing ARG7, ARG8 and ARG10 after the encryption names the ciphertext as the payload. -/
theorem namesCiphertext_of_writes (back tp : Word) (s : State) :
    NamesCiphertext back s (writeArg 10 tp (writeArg 8 back (writeArg 7 s.args[8] (aeadRun .encrypt s)))) where
  rest := rfl
  operands := by simp [initOperands, aeadRun, aeadLoaded, writeArg]
  payload := by simp [aeadOperands, aeadRun, aeadLoaded, writeArg]

/-- Settles O60: the decryption absorbs the ciphertext that the encryption absorbed and stored, and XORs it with the
same keystream. -/
theorem decryptingTheCiphertextRestoresThePlaintext : Obligations.DecryptingTheCiphertextRestoresThePlaintext := by
  intro s t u back tag2 hcpu henc hok hdec hok' hdef hout htag hback
  simp only [List.forall_mem_cons] at hdef hout htag
  obtain ⟨hdkey, hdaad, hdin, -⟩ := hdef
  obtain ⟨hkeyout, haadout, htagout, -⟩ := hout
  obtain ⟨hkeytag, haadtag, -⟩ := htag
  obtain ⟨-, -, hclear, rfl⟩ := exec_aead_ok (im := (.aeadEnc, .encrypt)) (by decide) hcpu henc hok
  have hs : AeadApart s := ⟨hclear, hdkey, hdaad, hdin, hkeyout, hkeytag, haadout, haadtag, htagout⟩
  have hv := namesCiphertext_of_writes back tag2 s
  have hcpu' : (aeadRun .encrypt s).backend = .cpu := by simpa [aeadRun, aeadLoaded] using hcpu
  obtain ⟨-, -, hclear', rfl⟩ := exec_aead_ok (im := (.aeadDec, .decrypt)) (by decide) (by simpa using hcpu') hdec hok'
  have htag := hv.tag hs hclear'
  refine ⟨hv.plaintext hs hclear' ?_, ?_, ?_, ?_, ?_⟩
  · rw [hv.payload]
    simpa [writeArg, tagBuffer, outBuffer] using hback
  · exact congrArg (wordAt · 0) htag
  · exact congrArg (wordAt · 1) htag
  · exact congrArg (wordAt · 2) htag
  · exact congrArg (wordAt · 3) htag

end Sys2Proof.Machine

namespace Sys2Proof.Machine

/-! ## Every command while a job is in flight (R94 step 2) -/

theorem exec_busy (i : Instr) {s : State} (hj : s.job ≠ none) : exec i s = .next (logErr .busyReject s) := by
  cases i <;> exact unlessBusy_busy _ hj

/-- Settles O15: every command asks for BUSY before anything else. -/
theorem commandsAreRejectedWhileBusy : Obligations.CommandsAreRejectedWhileBusy :=
  fun i _ hj => exec_busy i hj

/-! ## SET_BACKEND and RELEASE (R100, R106) -/

theorem setBackend_unlocked {s : State} (b : Backend) (hj : s.job = none) (hl : s.lock = false) :
    setBackend b s = .next (setErr .ok { s with backend := b }) := by
  simp [setBackend, unlessBusy_idle _ hj, hl]

theorem setBackend_locked {s : State} (b : Backend) (hj : s.job = none) (hl : s.lock = true) :
    setBackend b s = .next (logErr .sequenceInvalid s) := by
  simp [setBackend, unlessBusy_idle _ hj, hl, raiseErr]

/-- Settles O22: LOCK alone decides, whatever BACKEND is. -/
theorem setBackendWritesBackendWhileUnlocked : Obligations.SetBackendWritesBackendWhileUnlocked :=
  fun _ hj => ⟨fun hl => ⟨setBackend_unlocked .cpu hj hl, setBackend_unlocked .dma hj hl⟩,
    fun hl => ⟨setBackend_locked .cpu hj hl, setBackend_locked .dma hj hl⟩⟩

theorem exec_release_idle {s : State} (hj : s.job = none) : exec .release s = .next (releaseSession s) :=
  unlessBusy_idle _ hj

/-- Settles O23: with no job in flight RELEASE has no check, and its effect is `releaseSession`. -/
theorem releaseEndsTheSession : Obligations.ReleaseEndsTheSession := by
  intro s hj
  refine ⟨_, exec_release_idle hj, ?_⟩
  simp [hj, HostSideSame]

/-- In CREATED the registers that RELEASE clears hold their reset values already (R106, R115). -/
theorem MachineInv.releaseSession_created {s : State} (h : MachineInv s) (hj : s.job = none)
    (hs : s.session = .created) : releaseSession s = setErr .ok s := by
  have hclear := h.created hs hj
  have hfree := free_of_mayBegin h.channels hj ((mayBegin_iff s).2 (.inl hs))
  cases s
  simp only at hs hclear hfree
  simp [releaseSession, wipeContext, releaseChannels, setErr, hs, hclear, hfree]

/-- Settles O24: RELEASE clears what the invariant says is clear. -/
theorem releaseInCreatedChangesOnlyErr : Obligations.ReleaseInCreatedChangesOnlyErr := by
  intro s h hj hs
  rw [exec_release_idle hj, h.releaseSession_created hj hs]
  rfl

/-! ## A command that ends in an error, and one that does not (R96) -/

@[simp] theorem raiseErr_err (e : ErrCode) (s : State) : (raiseErr e s).err = e := by rw [raiseErr_eq]

/-- A command that answers a next state ends with ERR = OK, or has done nothing but raise its error. -/
theorem exec_ok_or_raised {i : Instr} {s t : State} (h : exec i s = .next t) :
    t.err = .ok ∨ t = raiseErr t.err s := by
  obtain ⟨e, -, -, rfl⟩ | ⟨-, -, b, -, rfl⟩ | ⟨-, -, rfl⟩ | ⟨-, -, a, -, -, -, rfl⟩ | ⟨-, c, -, -, hlaunch⟩ :=
    exec_cases h
  · exact .inr (by rw [raiseErr_err])
  · exact .inl rfl
  · exact .inl rfl
  · exact .inl (by simp [genEffect])
  · obtain ⟨-, -, rfl⟩ | ⟨-, rfl⟩ := launch_cases hlaunch <;> exact .inl (by simp)

/-- Settles O14: `raiseErr` is all that a command with an error does. -/
theorem errorsChangeOnlyErrAndErrlog : Obligations.ErrorsChangeOnlyErrAndErrlog :=
  fun _ s t h herr => ((exec_ok_or_raised h).resolve_left herr).trans (raiseErr_eq t.err s)

/-- An accepted command leaves ERRLOG alone (R33). -/
theorem exec_ok_errlog {i : Instr} {s t : State} (h : exec i s = .next t) (hok : t.err = .ok) :
    t.errlog = s.errlog := by
  obtain ⟨e, hne, -, rfl⟩ | ⟨-, -, b, -, rfl⟩ | ⟨-, -, rfl⟩ | ⟨-, -, a, -, -, -, rfl⟩ | ⟨-, c, -, -, hlaunch⟩ :=
    exec_cases h
  · exact absurd (raiseErr_err e s ▸ hok) hne
  · rfl
  · rfl
  · simp
  · obtain ⟨-, -, rfl⟩ | ⟨-, rfl⟩ := launch_cases hlaunch <;> simp

/-- SET_BACKEND is the one command that writes BACKEND (R27). -/
theorem exec_keeps_backend {i : Instr} {s t : State} (hi : i ∉ [Instr.setBackendCpu, .setBackendDma])
    (h : exec i s = .next t) : t.backend = s.backend := by
  obtain ⟨e, -, -, rfl⟩ | ⟨-, -, b, hset, -⟩ | ⟨-, -, rfl⟩ | ⟨-, -, a, -, -, -, rfl⟩ | ⟨-, c, -, -, hlaunch⟩ :=
    exec_cases h
  · rw [raiseErr_eq]
  · obtain ⟨rfl, -⟩ | ⟨rfl, -⟩ := hset <;> simp at hi
  · rfl
  · simp
  · obtain ⟨-, -, rfl⟩ | ⟨-, rfl⟩ := launch_cases hlaunch <;> simp

/-! ## The command that an instruction issues with the operands its ARGs hold (R61) -/

theorem issuedBy_init {i : Instr} (hi : i ∈ [Instr.initEnc, .initDec]) (s : State) : ∃ m, issuedBy i s =
    if argsNamedHeld s 7 then some (.init m (initOperands s), initError s (initOperands s)) else none := by
  simp only [List.mem_cons, List.not_mem_nil, or_false] at hi
  obtain rfl | rfl := hi
  · exact ⟨.encrypt, by simp only [issuedBy, initArgs]; split <;> rfl⟩
  · exact ⟨.decrypt, by simp only [issuedBy, initArgs]; split <;> rfl⟩

theorem issuedBy_updateExcl (s : State) : issuedBy .updateExcl s =
    if argsNamedHeld s 3 then some (.updateExcl (updateOperands s), updateExclError s (updateOperands s))
    else none := by
  simp only [issuedBy, updateExclArgs]; split <;> rfl

theorem issuedBy_updateIncl (s : State) : issuedBy .updateIncl s =
    if argsNamedHeld s 4 then
      some (.updateIncl (updateOperands s) s.args[3], updateInclError s (updateOperands s) s.args[3])
    else none := by
  simp only [issuedBy, updateInclArgs]; split <;> rfl

theorem issuedBy_aead {i : Instr} (hi : i ∈ [Instr.aeadEnc, .aeadDec]) (s : State) : ∃ m, issuedBy i s =
    if argsNamedHeld s 11 then
      some (.aead m (initOperands s) (aeadOperands s) s.args[10],
        aeadError s (initOperands s) (aeadOperands s) s.args[10])
    else none := by
  simp only [List.mem_cons, List.not_mem_nil, or_false] at hi
  obtain rfl | rfl := hi
  · exact ⟨.encrypt, by simp only [issuedBy, aeadArgs]; split <;> rfl⟩
  · exact ⟨.decrypt, by simp only [issuedBy, aeadArgs]; split <;> rfl⟩

/-- With the ARGs it names held and no job in flight, an instruction raises what its checks give (R94 step 4). -/
theorem exec_raises {i : Instr} {s : State} {n : Nat} {c : Command} {err : Option ErrCode} (e : ErrCode)
    (hj : s.job = none) (hissued : issuedBy i s = if argsNamedHeld s n then some (c, err) else none)
    (hh : NamedHeld s n) (he : err = some e) : exec i s = .next (raiseErr e s) := by
  subst he
  rw [if_pos ((argsNamedHeld_iff s n).2 hh)] at hissued
  exact exec_issued hj hissued

/-! ## The checks, each where it raises (R97, R101 to R104) -/

theorem mayBegin_eq_false {s : State} (h : s.session ≠ .created ∧ s.session ≠ .finalized) : mayBegin s = false := by
  simp [mayBegin, h]

theorem payloadNull_iff (p : PayloadArgs) :
    payloadNull p = true ↔ p.len ≠ 0 ∧ (p.inPtr = 0 ∨ p.outPtr = 0) := by
  simp [payloadNull]

theorem not_capacity {s : State} {n : Nat} (hn : n ≠ 0) (h : s.ctrExh = true ∨ 2 ^ 32 < s.ctr.toNat + n) :
    capacity s n = false := by
  obtain hexh | hctr := h
  · simp [capacity, hn, hexh]
  · simp only [capacity, beq_eq_false_iff_ne.2 hn, decide_eq_false (Nat.not_le.2 hctr), Bool.and_false, Bool.or_false]

theorem initError_sequence {s : State} (a : InitArgs) (h : mayBegin s = false) :
    initError s a = some .sequenceInvalid :=
  if_pos (by simp [h])

theorem initError_null {s : State} {a : InitArgs} (h : mayBegin s = true)
    (hnull : a.keyPtr = 0 ∨ a.aadLen ≠ 0 ∧ a.aadPtr = 0) : initError s a = some .bufferNull := by
  rw [initError, if_neg (by simp [h]), ← ite_or, if_pos hnull]

theorem updateExclError_finalized {s : State} (p : PayloadArgs) (h : s.session = .finalized) :
    updateExclError s p = some .alreadyFinalized :=
  if_pos h

theorem updateExclError_sequence {s : State} (p : PayloadArgs) (h : s.session = .created ∨ s.session = .faulted) :
    updateExclError s p = some .sequenceInvalid := by
  obtain h | h := h <;> simp [updateExclError, mayUpdate, h]

/-- In AAD_DONE and PAYLOAD_STREAMING the operands decide (R102). -/
theorem updateExclError_open {s : State} (p : PayloadArgs)
    (h : s.session = .aadDone ∨ s.session = .payloadStreaming) : updateExclError s p =
      if payloadNull p = true then some .bufferNull
      else if p.len.toNat % 64 ≠ 0 ∨ (!capacity s (p.len.toNat / 64)) = true then some .lengthInvalid
      else none := by
  obtain h | h := h <;> simp [updateExclError, mayUpdate, h, ite_or]

theorem updateInclError_finalized {s : State} (p : PayloadArgs) (t : Word) (h : s.session = .finalized) :
    updateInclError s p t = some .alreadyFinalized :=
  if_pos h

theorem updateInclError_sequence {s : State} (p : PayloadArgs) (t : Word)
    (h : s.session = .created ∨ s.session = .faulted) : updateInclError s p t = some .sequenceInvalid := by
  obtain h | h := h <;> simp [updateInclError, mayUpdate, h]

/-- In AAD_DONE and PAYLOAD_STREAMING the operands decide (R103). -/
theorem updateInclError_open {s : State} (p : PayloadArgs) (t : Word)
    (h : s.session = .aadDone ∨ s.session = .payloadStreaming) : updateInclError s p t =
      if payloadNull p = true ∨ t = 0 then some .bufferNull
      else if (!capacity s (blocksOf p.len.toNat)) = true then some .lengthInvalid
      else none := by
  obtain h | h := h <;> simp [updateInclError, mayUpdate, h, ite_or]

theorem aeadError_sequence {s : State} (a : InitArgs) (p : PayloadArgs) (t : Word) (h : mayBegin s = false) :
    aeadError s a p t = some .sequenceInvalid :=
  if_pos (by simp [h])

/-- In CREATED and FINALIZED the operands decide (R104). -/
theorem aeadError_begins {s : State} (a : InitArgs) (p : PayloadArgs) (t : Word) (h : mayBegin s = true) :
    aeadError s a p t =
      if a.keyPtr = 0 ∨ a.aadLen ≠ 0 ∧ a.aadPtr = 0 ∨ payloadNull p = true ∨ t = 0 then some .bufferNull
      else if (!aeadCapacity a.initCtr (blocksOf p.len.toNat)) = true then some .lengthInvalid
      else none := by
  simp only [aeadError, h, ite_or, Bool.not_true, Bool.false_eq_true, if_false]

/-! ## Commands rejected by their checks, in order (R101 to R104, R126) -/

/-- Settles O16: STATE is checked before the pointers. -/
theorem initIsRejectedInOrder : Obligations.InitIsRejectedInOrder := by
  intro s i hi hj hh
  obtain ⟨m, hissued⟩ := issuedBy_init hi s
  exact ⟨fun hs => exec_raises .sequenceInvalid hj hissued hh (initError_sequence _ (mayBegin_eq_false hs)),
    fun hs hnull => exec_raises .bufferNull hj hissued hh (initError_null ((mayBegin_iff s).2 hs) hnull)⟩

/-- Settles O17: STATE is checked before the pointers, and they before the length and the counter. -/
theorem updateExclIsRejectedInOrder : Obligations.UpdateExclIsRejectedInOrder := by
  intro s hj hh
  have raises := fun e => exec_raises e hj (issuedBy_updateExcl s) hh
  refine ⟨fun hs => raises .alreadyFinalized (updateExclError_finalized _ hs),
    fun hs => raises .sequenceInvalid (updateExclError_sequence _ hs), fun hs => ⟨fun hnull => ?_, fun hok hlen => ?_⟩⟩
  · refine raises .bufferNull ?_
    rw [updateExclError_open _ hs, if_pos ((payloadNull_iff _).2 hnull)]
  · refine raises .lengthInvalid ?_
    rw [updateExclError_open _ hs, if_neg (fun hnull => hok ((payloadNull_iff _).1 hnull)), if_pos]
    by_cases hwhole : s.args[2].toNat % 64 = 0
    · obtain ⟨hne, hroom⟩ := hlen.resolve_left (fun h => h hwhole)
      have hblocks : s.args[2].toNat / 64 ≠ 0 := by
        have := (word_ne_zero_iff _).1 hne
        omega
      exact .inr (by simpa [updateOperands] using not_capacity hblocks hroom)
    · exact .inl hwhole

/-- Settles O18: STATE is checked before the pointers, and they before the counter. -/
theorem updateInclIsRejectedInOrder : Obligations.UpdateInclIsRejectedInOrder := by
  intro s hj hh
  have raises := fun e => exec_raises e hj (issuedBy_updateIncl s) hh
  have null : payloadNull (updateOperands s) = true ∨ s.args[3] = 0 ↔
      s.args[2] ≠ 0 ∧ (s.args[0] = 0 ∨ s.args[1] = 0) ∨ s.args[3] = 0 := or_congr_left (payloadNull_iff _)
  refine ⟨fun hs => raises .alreadyFinalized (updateInclError_finalized _ _ hs),
    fun hs => raises .sequenceInvalid (updateInclError_sequence _ _ hs),
    fun hs => ⟨fun hnull => ?_, fun hok ⟨hne, hroom⟩ => ?_⟩⟩
  · refine raises .bufferNull ?_
    rw [updateInclError_open _ _ hs, if_pos (null.2 hnull)]
  · refine raises .lengthInvalid ?_
    rw [updateInclError_open _ _ hs, if_neg (mt null.1 hok), if_pos]
    have hblocks : blocksOf s.args[2].toNat ≠ 0 := by
      rw [Ne, blocksOf_eq_zero]
      exact Nat.ne_of_gt ((word_ne_zero_iff _).1 hne)
    simpa [updateOperands] using not_capacity hblocks hroom

/-- Settles O19: STATE is checked before the pointers, and they before the counter's range. -/
theorem aeadIsRejectedInOrder : Obligations.AeadIsRejectedInOrder := by
  intro s i hi hj hh
  obtain ⟨m, hissued⟩ := issuedBy_aead hi s
  have raises := fun e => exec_raises e hj hissued hh
  have null : (s.args[0] = 0 ∨ s.args[5] ≠ 0 ∧ s.args[4] = 0 ∨ payloadNull (aeadOperands s) = true ∨ s.args[10] = 0) ↔
      s.args[0] = 0 ∨ s.args[5] ≠ 0 ∧ s.args[4] = 0 ∨ s.args[9] ≠ 0 ∧ (s.args[7] = 0 ∨ s.args[8] = 0) ∨
        s.args[10] = 0 := or_congr_right (or_congr_right (or_congr_left (payloadNull_iff _)))
  refine ⟨fun hs => raises .sequenceInvalid (aeadError_sequence _ _ _ (mayBegin_eq_false hs)),
    fun hs => ⟨fun hnull => ?_, fun hok hlong => ?_⟩⟩
  · refine raises .bufferNull ?_
    rw [aeadError_begins _ _ _ ((mayBegin_iff s).2 hs)]
    exact if_pos (null.2 hnull)
  · refine raises .lengthInvalid ?_
    have hcap : aeadCapacity s.args[6] (blocksOf s.args[9].toNat) = false := decide_eq_false (Nat.not_le.2 hlong)
    rw [aeadError_begins _ _ _ ((mayBegin_iff s).2 hs)]
    exact (if_neg (mt null.1 hok)).trans (if_pos (by simpa [initOperands, aeadOperands] using hcap))

/-! ## The accept of the updates in the DMA backend (R116) -/

/-- An update reads no key (R48). -/
theorem keyRanges_update {c : Command} (h : beginsSession c = false) : keyRanges c = [] := by
  cases c with
  | init d a => cases h
  | updateExcl p => rfl
  | updateIncl p t => rfl
  | aead d a p t => cases h

/-- An update starts its job and sets ERR; its registers stay for the completion. -/
theorem issue_update_dma {c : Command} {s : State} (hdma : s.backend = .dma) (hc : beginsSession c = false)
    (hn : ∀ r ∈ bodyRanges c, Nameable s r) (hp : ∀ q ∈ payloadOf c, DisjointOrInPlace q) :
    issue c none s = .next (startJob c (setErr .ok s)) := by
  rw [issue_dma hdma (by simp [keyRanges_update hc]) hn hp, acceptPart_update hc]

/-- Settles O29: the checks and refusals pass, and the accept of an update sets ERR alone. -/
theorem updatesStartAJobInTheDmaBackend : Obligations.UpdatesStartAJobInTheDmaBackend := by
  intro s hj hdma hs hp hnin hnout hdis
  refine ⟨fun hh hw hr => ?_, fun hh ht hntag hr => ?_⟩
  · refine (UpdateExclPasses.command ⟨hj, hh, hs, hp, hw, hr⟩).trans (issue_update_dma hdma rfl ?_ ?_)
    · exact List.forall_mem_cons.2 ⟨hnin, List.forall_mem_singleton.2 hnout⟩
    · exact fun q hq => by cases hq; exact hdis
  · refine (UpdateInclPasses.command ⟨hj, hh, hs, hp, ht, hr⟩).trans (issue_update_dma hdma rfl ?_ ?_)
    · exact List.forall_mem_cons.2 ⟨hnin, List.forall_mem_cons.2 ⟨hnout, List.forall_mem_singleton.2 hntag⟩⟩
    · exact fun q hq => by cases hq; exact hdis

/-! ## Frames of the commands (R96, R98, R100 to R106) -/

/-- What a command with a body does in either backend: it raises its error, or the command it issues with its
operands performs its body or starts its job. -/
theorem exec_issuer_cases {i : Instr} {s t : State}
    (hi : i ∈ [Instr.initEnc, .initDec, .updateExcl, .updateIncl, .aeadEnc, .aeadDec]) (h : exec i s = .next t) :
    (∃ e, e ≠ .ok ∧ t = raiseErr e s) ∨
    ∃ c, issuedBy i s = some (c, none) ∧
      (t = bodyOf .engine c (acceptPart c s) ∨ t = startJob c (acceptPart c s)) := by
  by_cases hok : t.err = .ok
  · obtain ⟨c, hissued, -, hlaunch⟩ := exec_ok_issued hi h hok
    exact .inr ⟨c, hissued, (launch_cases hlaunch).imp (fun hcpu => hcpu.2.2) (fun hdma => hdma.2)⟩
  · exact .inl ⟨t.err, hok, (exec_ok_or_raised h).resolve_left hok⟩

/-- The command of a snapshot is the one with the operands the ARGs hold. -/
theorem eq_of_issued {o : Option (Command × Option ErrCode)} {b : Bool} {c d : Command} {e err : Option ErrCode}
    (heq : o = if b then some (d, err) else none) (h : o = some (c, e)) : c = d := by
  rw [heq, Option.ite_none_right_eq_some, Option.some.injEq, Prod.mk.injEq] at h
  exact h.2.1.symm

theorem raiseErr_outside (rs : List Region) (e : ErrCode) (s : State) : MemSameOutside rs s (raiseErr e s) := by
  rw [raiseErr_eq]
  exact .of_mem_eq rfl rfl

theorem raiseErr_keeps_session (e : ErrCode) (s : State) : SessionSame s (raiseErr e s) ∧
    (raiseErr e s).lock = s.lock ∧ (raiseErr e s).job = s.job := by
  rw [raiseErr_eq]
  simp [SessionSame]

/-- An accepted command changes no byte outside the output ranges it names, in either backend (R98, R116). -/
theorem accepted_outside {c : Command} {s t : State}
    (h : t = bodyOf .engine c (acceptPart c s) ∨ t = startJob c (acceptPart c s)) :
    MemSameOutside (outputRanges c) s t := by
  have haccept : MemSameOutside (outputRanges c) s (acceptPart c s) := .of_mem_eq (by simp) (by simp)
  obtain rfl | rfl := h
  · exact haccept.trans (bodyOf_outside .engine c _)
  · exact haccept.trans (.of_mem_eq rfl rfl)

/-- SET_BACKEND raises an error or writes BACKEND (R94, R100). -/
theorem exec_setBackend_cases {i : Instr} {s t : State} (hi : i ∈ [Instr.setBackendCpu, .setBackendDma])
    (h : exec i s = .next t) : (∃ e, e ≠ .alreadyFinalized ∧ t = raiseErr e s) ∨
      ∃ b, t = setErr .ok { s with backend := b } := by
  simp only [List.mem_cons, List.not_mem_nil, or_false] at hi
  obtain ⟨e, -, hfin, rfl⟩ | ⟨-, -, b, -, rfl⟩ | ⟨-, rfl, -⟩ | ⟨-, rfl, -⟩ | ⟨-, c, hissued, -⟩ := exec_cases h
  · exact .inl ⟨e, fun he => by obtain ⟨-, -, rfl | rfl⟩ := hfin he <;> simp at hi, rfl⟩
  · exact .inr ⟨b, rfl⟩
  · simp at hi
  · simp at hi
  · obtain rfl | rfl := hi <;> cases hissued

/-- RELEASE raises an error or ends the session (R94, R106). -/
theorem exec_release_cases {s t : State} (h : exec .release s = .next t) :
    t = raiseErr .busyReject s ∨ t = releaseSession s := by
  by_cases hj : s.job = none
  · exact .inr (Host.Outcome.next.inj ((exec_release_idle hj).symm.trans h)).symm
  · exact .inl (Host.Outcome.next.inj ((exec_busy .release hj).symm.trans h)).symm

/-- INIT writes no byte of memory: its body reads the AAD, and its job has not run (R101). -/
theorem exec_init_memory {i : Instr} {s t : State} (hi : i ∈ [Instr.initEnc, .initDec]) (h : exec i s = .next t) :
    t.mem = s.mem ∧ t.anyMem = s.anyMem := by
  obtain ⟨m, hissues⟩ := issuedBy_init hi s
  have hissuer : i ∈ [Instr.initEnc, .initDec, .updateExcl, .updateIncl, .aeadEnc, .aeadDec] :=
    List.mem_append_left [Instr.updateExcl, .updateIncl, .aeadEnc, .aeadDec] hi
  obtain ⟨e, hne, rfl⟩ | ⟨c, hissued, hrun⟩ := exec_issuer_cases hissuer h
  · simp [raiseErr_eq]
  · obtain rfl := eq_of_issued hissues hissued
    obtain rfl | rfl := hrun
    · simp [bodyOf, initBody]
    · simp

/-- Settles O38: none of the effects of the three commands is a store, and each names the registers it writes. -/
theorem commandsThatStoreNothingLeaveMemory : Obligations.CommandsThatStoreNothingLeaveMemory := by
  intro s t
  refine ⟨fun i hi h => ?_, fun i hi h => ?_, fun i hi h => ⟨exec_keeps_backend ?_ h, exec_ok_errlog h⟩⟩
  · have hcases : i ∈ [Instr.setBackendCpu, .setBackendDma] ∨ i ∈ [Instr.initEnc, .initDec] ∨ i = .release := by
      simpa [or_assoc] using hi
    obtain hset | hinit | rfl := hcases
    · obtain ⟨e, -, rfl⟩ | ⟨b, rfl⟩ := exec_setBackend_cases hset h
      · simp [raiseErr_eq]
      · simp
    · exact exec_init_memory hinit h
    · obtain rfl | rfl := exec_release_cases h
      · simp [raiseErr_eq]
      · simp
  · obtain ⟨e, hne, rfl⟩ | ⟨b, rfl⟩ := exec_setBackend_cases hi h
    · simp [raiseErr_of_ne hne, SessionSame]
    · simp [SessionSame]
  · simp only [List.mem_cons, List.not_mem_nil, or_false] at hi ⊢
    obtain rfl | rfl | rfl := hi <;> decide

/-- Settles O39: the payload procedure writes its output range, and neither it nor the job's start names the rest. -/
theorem updateExclLeavesTheRest : Obligations.UpdateExclLeavesTheRest := by
  intro s t h
  obtain ⟨e, hne, rfl⟩ | ⟨c, hissued, hrun⟩ := exec_issuer_cases (by decide) h
  · refine ⟨raiseErr_outside _ e s, ?_⟩
    simp +contextual [raiseErr_eq, hne]
  · obtain rfl := eq_of_issued (issuedBy_updateExcl s) hissued
    refine ⟨accepted_outside hrun, ?_⟩
    rw [acceptPart_update rfl] at hrun
    obtain rfl | rfl := hrun
    · simp [bodyOf, updateExclBody]
    · simp

/-- Settles O40: the finalisation adds the tag buffer to what UPDATE_EXCL may write. -/
theorem updateInclLeavesTheRest : Obligations.UpdateInclLeavesTheRest := by
  intro s t h
  obtain ⟨e, hne, rfl⟩ | ⟨c, hissued, hrun⟩ := exec_issuer_cases (by decide) h
  · refine ⟨raiseErr_outside _ e s, ?_⟩
    simp [raiseErr_eq, hne]
  · obtain rfl := eq_of_issued (issuedBy_updateIncl s) hissued
    refine ⟨accepted_outside hrun, ?_⟩
    rw [acceptPart_update rfl] at hrun
    obtain rfl | rfl := hrun
    · simp [bodyOf, updateInclBody]
    · simp

/-- Settles O41: an accepted AEAD writes its output ranges, and a rejected one only raises its error. -/
theorem aeadLeavesTheRest : Obligations.AeadLeavesTheRest := by
  intro s t i hi h
  obtain ⟨m, hissues⟩ := issuedBy_aead hi s
  obtain ⟨hissuer, hother⟩ : i ∈ [Instr.initEnc, .initDec, .updateExcl, .updateIncl, .aeadEnc, .aeadDec] ∧
      i ∉ [Instr.setBackendCpu, .setBackendDma] := by
    simp only [List.mem_cons, List.not_mem_nil, or_false] at hi
    obtain rfl | rfl := hi <;> decide
  refine ⟨?_, exec_keeps_backend hother h, exec_ok_errlog h, ?_⟩
  · obtain ⟨e, hne, rfl⟩ | ⟨c, hissued, hrun⟩ := exec_issuer_cases hissuer h
    · exact raiseErr_outside _ e s
    · obtain rfl := eq_of_issued hissues hissued
      exact accepted_outside hrun
  · intro herr
    rw [(exec_ok_or_raised h).resolve_left herr]
    exact raiseErr_keeps_session _ s

end Sys2Proof.Machine

namespace Sys2Proof.Machine

/-! ## The completion of a job, and the way out of FAULTED (R117, R118, R132) -/

/-- Without a job the DMA agent has no step (log entry 7). -/
theorem dmaTurn_idle {s : State} (ok : Bool) (hj : s.job = none) : dmaTurn ok s = .next s := by
  simp [dmaTurn, hj]

/-- Settles O42: `dmaTurn_unraced` is the completion, and without a job the turn is idle. -/
theorem completionPerformsTheBody : Obligations.CompletionPerformsTheBody :=
  ⟨fun _ _ hj hr hc hb => dmaTurn_unraced hj hr hc hb, fun _ ok hj => dmaTurn_idle ok hj⟩

/-- Once LOCK = 1, SET_BACKEND is rejected for either backend (R100). -/
theorem exec_setBackend_locked {i : Instr} {s : State} (hi : i ∈ [Instr.setBackendCpu, .setBackendDma])
    (hj : s.job = none) (hl : s.lock = true) : exec i s = .next (logErr .sequenceInvalid s) := by
  simp only [List.mem_cons, List.not_mem_nil, or_false] at hi
  obtain rfl | rfl := hi
  · exact setBackend_locked .cpu hj hl
  · exact setBackend_locked .dma hj hl

/-- Settles O44: FAULTED is none of the states in which a command's check of STATE passes, and RELEASE has none. -/
theorem faultedSessionNeedsRelease : Obligations.FaultedSessionNeedsRelease := by
  intro s hs hj
  have hclosed : s.session ≠ .created ∧ s.session ≠ .finalized := by simp [hs]
  refine ⟨fun hh i hi => ?init, fun hh => ?updateExcl, fun hh => ?updateIncl, fun hh i hi => ?aead,
    fun hl i hi => exec_setBackend_locked hi hj hl, ?release⟩
  case init => exact (initIsRejectedInOrder s i hi hj hh).1 hclosed
  case updateExcl =>
    obtain ⟨-, hsequence, -⟩ := updateExclIsRejectedInOrder s hj hh
    exact hsequence (.inr hs)
  case updateIncl =>
    obtain ⟨-, hsequence, -⟩ := updateInclIsRejectedInOrder s hj hh
    exact hsequence (.inr hs)
  case aead => exact (aeadIsRejectedInOrder s i hi hj hh).1 hclosed
  case release => exact ⟨releaseSession s, exec_release_idle hj, rfl, rfl⟩

end Sys2Proof.Machine

namespace Sys2Proof.Machine

/-! ## Reset (R136 to R138) -/

/-- A reset turn is the platform's reset of the engine, taken from the schedule (R136; log entry 6). -/
theorem step_reset {s : State} {ts : List Turn} (h : s.turns = .reset :: ts) :
    step s = .next (platformReset { s with turns := ts }) := by
  simp only [step, takeTurn, h]

theorem inJobOutputs_iff {s : State} {a : Nat} : (∃ r ∈ jobOutputs s, InRegion r a) ↔
    ∃ j, s.job = some j ∧ ∃ r ∈ outputRanges j.cmd, InRegion r a := by
  cases hj : s.job <;> simp [jobOutputs, hj]

theorem statusWord_reset : statusWord State.reset = 0 := by decide

/-- Every field of the STATUS word is a register that the platform's reset takes from the state at power-on (R137). -/
theorem statusWord_platformReset (s : State) : statusWord (platformReset s) = 0 := statusWord_reset

theorem argsHeld_reset (i : Fin 16) : State.reset.argsHeld[i] = false := Vector.getElem_replicate i.isLt

theorem argsHeld_platformReset (s : State) (i : Fin 16) : (platformReset s).argsHeld[i] = false := argsHeld_reset i

/-- The bytes that hold any value after a reset: those that did, and the outputs of the abandoned job (R138). -/
theorem mem_anyMem_platformReset (s : State) (a : Nat) : a ∈ (platformReset s).anyMem ↔
    a ∈ s.anyMem ∨ ∃ j, s.job = some j ∧ ∃ r ∈ outputRanges j.cmd, InRegion r a :=
  (mem_markRanges (jobOutputs s) s.anyMem a).trans (or_congr_right inJobOutputs_iff)

/-- Settles O13: the step is `platformReset`, which takes every register from the state after power-on, keeps memory
and marks the outputs of the job it abandons. -/
theorem resetAbandonsAJobInFlight : Obligations.ResetAbandonsAJobInFlight := by
  intro s ts hturn
  exact ⟨_, step_reset hturn, statusWord_platformReset _, rfl, rfl, rfl, rfl, rfl, rfl, rfl, rfl, rfl,
    argsHeld_platformReset _, rfl, rfl, busRead_value (r := .cmd) rfl rfl, rfl, mem_anyMem_platformReset _⟩

/-- Settles O12: the fields of `State.reset` read off, STATUS and the ARGs by their lemmas. -/
theorem resetStateHasTheResetValues : Obligations.ResetStateHasTheResetValues :=
  ⟨statusWord_reset, rfl, rfl, rfl, rfl, rfl, rfl, rfl, rfl, rfl, rfl, rfl, rfl, rfl, rfl, rfl, argsHeld_reset⟩

/-- Settles O52: the state is CREATED with no job, so the clauses about a session under way, FAULTED, and a job ask
nothing, and the others are about registers and memory at zero. -/
theorem resetMeetsTheInvariant : Obligations.ResetMeetsTheInvariant where
  memory := ⟨rfl, rfl⟩
  errlog := BitVec.zero_and
  acc := zero_lt_polyP
  multiplier := zero_clamped
  channels := by simp [ChannelsLegal, mayUpdate, State.reset]
  context := by simp [ContextLegal, mayUpdate, State.reset]
  lock := by simp [LockLegal, State.reset]
  counter := fun hexh => by cases hexh
  job := fun j hj => by cases hj
  created := fun _ _ => by simp [State.reset]
  faulted := fun hs => by cases hs

end Sys2Proof.Machine
